-- ==== Sys2Proof/Word.lean ====
section
/-! DEFINITION. The words of the SPC: bytes of the buffers and of the wire, 32-bit host registers, and the name
of a packet bank (00_scope.md R11 to R13, 10_state.md R20 and R26). -/

namespace Sys2Proof

/-- One byte of IBUF, of OBUF, of user data or of the wire (00_scope.md R13). -/
abbrev Byte := BitVec 8

/-- A host register, a command word and a command operand are 32 bits (10_state.md R26, 30_encoding.md R82). -/
abbrev Word := BitVec 32

/-- The two packet banks `PKT[0]` and `PKT[1]`, chosen by the B bit (10_state.md R20; `NBANK = 2`, 00_scope.md R9). -/
inductive Bank where
  | b0
  | b1
deriving DecidableEq, Repr

end Sys2Proof
end

