-- ==== Sys2Proof/Syntax.lean ====
section
/-! DEFINITION. The instructions of the SPC: one constructor per row of the opcode map (30_encoding.md R83), each with
the operands its command word carries (R82, R86): the bank `b`, and the selector `sel` of the three rows that use SEL.
A selector keeps its four bits, because a word with an undefined selector is a legal word that raises `IllegalOperand`
when it runs (R84, R85). -/

namespace Sys2Proof

/-- The sixteen commands (30_encoding.md R83). -/
inductive Instr where
  /-- NEW, opcode 0x01 (41_packet_model.md R110). -/
  | new (b : Bank)
  /-- PH_ENCODE, opcode 0x02 (40_header_codec.md R100). -/
  | phEncode (b : Bank)
  /-- PH_DECODE, opcode 0x03 (40_header_codec.md R101). -/
  | phDecode (b : Bank)
  /-- SH_ENCODE, opcode 0x04 (40_header_codec.md R102). -/
  | shEncode (b : Bank)
  /-- SH_DECODE, opcode 0x05 (40_header_codec.md R103). -/
  | shDecode (b : Bank)
  /-- SERIALIZE, opcode 0x06 (41_packet_model.md R111). -/
  | serialize (b : Bank)
  /-- INTERPRET, opcode 0x07 (41_packet_model.md R112). -/
  | interpret (b : Bank)
  /-- SET_USER_DATA, opcode 0x08 (41_packet_model.md R113). -/
  | setUserData (b : Bank)
  /-- GET_USER_DATA, opcode 0x09 (41_packet_model.md R114). -/
  | getUserData (b : Bank)
  /-- GET_FIELD, opcode 0x0A (41_packet_model.md R115). -/
  | getField (b : Bank) (sel : BitVec 4)
  /-- SET_FIELD, opcode 0x0B (41_packet_model.md R116). -/
  | setField (b : Bank) (sel : BitVec 4)
  /-- CLONE, opcode 0x0C (41_packet_model.md R117). -/
  | clone (b : Bank)
  /-- WRAP_STATUS, opcode 0x10 (42_framing.md R130). -/
  | wrapStatus (b : Bank)
  /-- WRAP_SENSOR, opcode 0x11 (42_framing.md R131). -/
  | wrapSensor (b : Bank)
  /-- ROUTE, opcode 0x12 (42_framing.md R132). -/
  | route (b : Bank)
  /-- CHECK_SIZE, opcode 0x13 (42_framing.md R133). -/
  | checkSize (sel : BitVec 4)
deriving DecidableEq, Repr

end Sys2Proof
end

