-- ==== Sys2Proof/Decode.lean ====
section
/-! DEFINITION. Decoding a command word by the opcode map (30_encoding.md R82 to R84), total on all 2^32 words, and the
encoder (R87: the row's match value, the bank at bit 8, the selector at bits 15 to 12). -/

namespace Sys2Proof

/-- The mnemonics of the opcode map (30_encoding.md R83). -/
inductive Mnemonic where
  | new | phEncode | phDecode | shEncode | shDecode | serialize | interpret | setUserData | getUserData
  | getField | setField | clone | wrapStatus | wrapSensor | route | checkSize
deriving DecidableEq, Repr

/-- RSV0, bits [31:16] (30_encoding.md R82). -/
def rsv0Of (w : Word) : BitVec 16 := w.extractLsb' 16 16

/-- SEL, bits [15:12] (30_encoding.md R82). -/
def selOf (w : Word) : BitVec 4 := w.extractLsb' 12 4

/-- RSV1, bits [11:9] (30_encoding.md R82). -/
def rsv1Of (w : Word) : BitVec 3 := w.extractLsb' 9 3

/-- B, bit [8] (30_encoding.md R82). -/
def bankOf (w : Word) : Bank := if w.getLsbD 8 then .b1 else .b0

/-- OPC, bits [7:0] (30_encoding.md R82). -/
def opcOf (w : Word) : BitVec 8 := w.extractLsb' 0 8

/-- A row of the opcode map: a word matches it when `w &&& mask = pattern` (30_encoding.md R83). -/
structure OpRow where
  mnemonic : Mnemonic
  usesB : Bool
  usesSel : Bool
  pattern : Word
  mask : Word
  build : Bank → BitVec 4 → Instr

/-- The opcode map (30_encoding.md R83). -/
def opcodeTable : List OpRow := [
  ⟨.new, true, false, 0x00000001, 0xFFFFFEFF, fun b _ => .new b⟩,
  ⟨.phEncode, true, false, 0x00000002, 0xFFFFFEFF, fun b _ => .phEncode b⟩,
  ⟨.phDecode, true, false, 0x00000003, 0xFFFFFEFF, fun b _ => .phDecode b⟩,
  ⟨.shEncode, true, false, 0x00000004, 0xFFFFFEFF, fun b _ => .shEncode b⟩,
  ⟨.shDecode, true, false, 0x00000005, 0xFFFFFEFF, fun b _ => .shDecode b⟩,
  ⟨.serialize, true, false, 0x00000006, 0xFFFFFEFF, fun b _ => .serialize b⟩,
  ⟨.interpret, true, false, 0x00000007, 0xFFFFFEFF, fun b _ => .interpret b⟩,
  ⟨.setUserData, true, false, 0x00000008, 0xFFFFFEFF, fun b _ => .setUserData b⟩,
  ⟨.getUserData, true, false, 0x00000009, 0xFFFFFEFF, fun b _ => .getUserData b⟩,
  ⟨.getField, true, true, 0x0000000A, 0xFFFF0EFF, fun b sel => .getField b sel⟩,
  ⟨.setField, true, true, 0x0000000B, 0xFFFF0EFF, fun b sel => .setField b sel⟩,
  ⟨.clone, true, false, 0x0000000C, 0xFFFFFEFF, fun b _ => .clone b⟩,
  ⟨.wrapStatus, true, false, 0x00000010, 0xFFFFFEFF, fun b _ => .wrapStatus b⟩,
  ⟨.wrapSensor, true, false, 0x00000011, 0xFFFFFEFF, fun b _ => .wrapSensor b⟩,
  ⟨.route, true, false, 0x00000012, 0xFFFFFEFF, fun b _ => .route b⟩,
  ⟨.checkSize, false, true, 0x00000013, 0xFFFF0FFF, fun _ sel => .checkSize sel⟩]

/-- The word matches the row (30_encoding.md R83). -/
def OpRow.matches (r : OpRow) (w : Word) : Bool := w &&& r.mask == r.pattern

/-- Why a word is illegal: the three cases of 30_encoding.md R84. -/
inductive Illegal where
  /-- Opcode 0x00, 0x0D to 0x0F or 0x14 to 0xFF. -/
  | unassignedOpcode
  /-- RSV0 or RSV1 is nonzero. -/
  | reservedNonzero
  /-- SEL is nonzero on a command that does not use it, or B is 1 on CHECK_SIZE. -/
  | unusedOperandNonzero
deriving DecidableEq, Repr

/-- The case of R84 that a word matching no row falls under, the first in the rule's order (DESIGN CHOICE, safe: log
entry 8). -/
def illegalCase (w : Word) : Illegal :=
  if opcodeTable.any (fun r => r.pattern.extractLsb' 0 8 == opcOf w) then
    if rsv0Of w != 0 || rsv1Of w != 0 then .reservedNonzero else .unusedOperandNonzero
  else .unassignedOpcode

/-- The decoder, total on all words (30_encoding.md R83, R84). -/
def decode (w : Word) : Except Illegal Instr :=
  match opcodeTable.find? (fun r => r.matches w) with
  | some r => .ok (r.build (bankOf w) (selOf w))
  | none => .error (illegalCase w)

/-- The B bit in its place (30_encoding.md R82). -/
def bankBit : Bank → Word
  | .b0 => 0x000
  | .b1 => 0x100

/-- The SEL field in its place (30_encoding.md R82). -/
def selBits (sel : BitVec 4) : Word := sel.setWidth 32 <<< 12

/-- The encoder: the command word of an instruction (30_encoding.md R82, R87). -/
def encode : Instr → Word
  | .new b => 0x00000001 ||| bankBit b
  | .phEncode b => 0x00000002 ||| bankBit b
  | .phDecode b => 0x00000003 ||| bankBit b
  | .shEncode b => 0x00000004 ||| bankBit b
  | .shDecode b => 0x00000005 ||| bankBit b
  | .serialize b => 0x00000006 ||| bankBit b
  | .interpret b => 0x00000007 ||| bankBit b
  | .setUserData b => 0x00000008 ||| bankBit b
  | .getUserData b => 0x00000009 ||| bankBit b
  | .getField b sel => 0x0000000A ||| bankBit b ||| selBits sel
  | .setField b sel => 0x0000000B ||| bankBit b ||| selBits sel
  | .clone b => 0x0000000C ||| bankBit b
  | .wrapStatus b => 0x00000010 ||| bankBit b
  | .wrapSensor b => 0x00000011 ||| bankBit b
  | .route b => 0x00000012 ||| bankBit b
  | .checkSize sel => 0x00000013 ||| selBits sel

/-- The command word that the opcode table's bits `w` of a row of `nbits` bits stand for: the bits above `nbits` are 0.
A command is one 32-bit word and is written to CMD whole, so no byte order applies (20_memory.md R52). -/
def tableWord (nbits w : Nat) : Word := BitVec.ofNat 32 (w % 2 ^ nbits)

/-- What the decoder reads from the opcode table's bits `w` of a row of `nbits` bits. -/
def decodeTableWord (nbits w : Nat) : Option Instr :=
  match decode (tableWord nbits w) with
  | .ok i => some i
  | .error _ => none

end Sys2Proof
end

