-- ==== Sys2Proof/Machine/Packet.lean ====
section
/-! DEFINITION. The SpacePacket a bank holds, as plain data (10_state.md R20 to R23): a primary header, a secondary
header that is always allocated, and a user data field. Every primary header field has its declared width, so it is always in
range (30_encoding.md R71). The widths of the secondary header fields are the layout's (R75), so these are plain 32-bit
values, in range where each is below 2 to the layout's width of it (`SecHdr.inRange`; log entry 4). -/

namespace Sys2Proof.Machine

/-- The primary header fields (10_state.md R21). -/
structure PriHdr where
  /-- VER, 3 bits. -/
  ver : BitVec 3
  /-- TYPE, 1 bit: 0 Telemetry, 1 Command. -/
  typ : BitVec 1
  /-- SHF, 1 bit: 1 Present, 0 NotPresent. -/
  shf : BitVec 1
  /-- APID, 11 bits. -/
  apid : BitVec 11
  /-- SEQF, 2 bits. -/
  seqf : BitVec 2
  /-- SEQC, 14 bits. -/
  seqc : BitVec 14
  /-- PDL, 16 bits, derived (R24). -/
  pdl : BitVec 16
deriving DecidableEq, Repr

/-- The secondary header fields, each an unsigned value of the width its `SH_LAYOUT` gives it (10_state.md R22,
30_encoding.md R75). The widths named here are the default layout's. -/
structure SecHdr where
  /-- CAT, 8 bits. -/
  cat : Word
  /-- ADU_USE, 1 bit. -/
  aduUse : Word
  /-- ADU_CH, 7 bits. -/
  aduCh : Word
  /-- ADU_SEGF, 2 bits. -/
  aduSegf : Word
  /-- ADU_CNT, 14 bits. -/
  aduCnt : Word
  /-- TIME, 32 bits of opaque data (60_exceptions.md R162). -/
  time : Word
deriving DecidableEq, Repr

/-- The width a layout gives each of the six secondary header fields (30_encoding.md R75). -/
structure ShWidths where
  cat : Nat
  aduUse : Nat
  aduCh : Nat
  aduSegf : Nat
  aduCnt : Nat
  time : Nat
deriving DecidableEq, Repr

/-- Every width is at most 32, so that GET_FIELD can return the field and SET_FIELD can give it any value (00_scope.md
R14, 30_encoding.md R86; DEDUCED: log entry 4). -/
def ShWidths.fit32 (w : ShWidths) : Bool :=
  w.cat ≤ 32 && w.aduUse ≤ 32 && w.aduCh ≤ 32 && w.aduSegf ≤ 32 && w.aduCnt ≤ 32 && w.time ≤ 32

/-- Every secondary header field is below 2 to its width (00_scope.md R11, 30_encoding.md R77). -/
def SecHdr.inRange (w : ShWidths) (h : SecHdr) : Bool :=
  h.cat.toNat < 2 ^ w.cat && h.aduUse.toNat < 2 ^ w.aduUse && h.aduCh.toNat < 2 ^ w.aduCh
    && h.aduSegf.toNat < 2 ^ w.aduSegf && h.aduCnt.toNat < 2 ^ w.aduCnt && h.time.toNat < 2 ^ w.time

/-- A packet bank (10_state.md R20). -/
structure Packet where
  pri : PriHdr
  sec : SecHdr
  /-- UDF, the user data field (R23). -/
  udf : List Byte
deriving DecidableEq, Repr

end Sys2Proof.Machine
end

