-- ==== Sys2Proof/Config.lean ====
section
/-! DEFINITION. The parameters of the block (00_scope.md R9): one record, fixed when the block is instantiated and no
part of its state (R19, 70_reset_and_hazards.md R178). The OPEN parameters are constants without a body, so nothing
proved about the block can rest on a value of theirs (log entry 3). The record this hardware has is `Machine.block`, in
Machine/Block.lean. -/

namespace Sys2Proof

/-- `SEQ_MODE` (00_scope.md R9, 42_framing.md R134). -/
inductive SeqMode where
  | perApid
  | constant
deriving DecidableEq, Repr

/-- `OVERFLOW_POLICY` (00_scope.md R9, 41_packet_model.md R118). -/
inductive OverflowPolicy where
  | fault
  | truncate
deriving DecidableEq, Repr

/-- A route class, the value of `ROUTE_CLASS` at a nibble (00_scope.md R9, 42_framing.md R132). -/
inductive RouteClass where
  /-- Local: apply as the new commanded state. -/
  | loc
  /-- Forward to the subsystem `sid`, a 32-bit identifier (R10). -/
  | forward (sid : Word)
  /-- Broadcast to all subsystems. -/
  | broadcast
  /-- Invalid: the nibble addresses nothing. -/
  | invalid
deriving DecidableEq, Repr, Inhabited

/-- `SH_LAYOUT` (30_encoding.md R75): the width of each of the six fields, the secondary header's length `SEC_LEN`, and
its codec. -/
structure ShLayout where
  widths : Machine.ShWidths
  secLen : Nat
  enc : Machine.SecHdr → List Byte
  dec : List Byte → Machine.SecHdr

/-- What any `SH_LAYOUT` must meet (30_encoding.md R77): every encoding has `SEC_LEN` bytes, and decoding an encoding
gives the fields back whenever they are in range; that `dec` is total is its being a function, and what it decodes has
the layout's widths (00_scope.md R11). -/
structure ShLayout.Lawful (l : ShLayout) : Prop where
  widths : l.widths.fit32 = true
  enc_length : ∀ h, (l.enc h).length = l.secLen
  dec_enc : ∀ h, h.inRange l.widths = true → l.dec (l.enc h) = h
  dec_inRange : ∀ s, s.length = l.secLen → (l.dec s).inRange l.widths = true

/-- `UDF_CAP`, fixed (00_scope.md R9). -/
def udfCap : Nat := 65536

/-- The configuration record (00_scope.md R9). -/
structure Config where
  /-- `BUF_CAP`, the size of IBUF and of OBUF. -/
  bufCap : Nat
  /-- `VERSION_CONST`. -/
  versionConst : BitVec 3
  /-- `SH_LAYOUT`, with `SEC_LEN`. -/
  shLayout : ShLayout
  /-- `SEQ_FLAG_UNSEG`. -/
  seqFlagUnseg : BitVec 2
  /-- `STATUS_APID`. -/
  statusApid : BitVec 11
  /-- `SENSOR_APID`. -/
  sensorApid : BitVec 11
  /-- `SEQ_MODE`. -/
  seqMode : SeqMode
  /-- `SEQ_CONST`. -/
  seqConst : BitVec 14
  /-- `OVERFLOW_POLICY`. -/
  overflowPolicy : OverflowPolicy
  /-- `ROUTE_CLASS`. -/
  routeClass : BitVec 4 → RouteClass
  /-- `BROADCAST_APPLIES_LOCAL`. -/
  broadcastAppliesLocal : Bool
  /-- `CAN_MAX`. -/
  canMax : Nat
  /-- `CANFD_MAX`. -/
  canFdMax : Nat
  /-- `UDP_MAX`. -/
  udpMax : Nat
  /-- `MST_RESET`. -/
  mstReset : BitVec 16

/-- `SEC_LEN` (00_scope.md R9). -/
def Config.secLen (c : Config) : Nat := c.shLayout.secLen

/-- OPEN: `STATUS_APID`, 11 bits and at most 0x7FE (00_scope.md R9, D13). -/
opaque Config.openStatusApid : Fin 2047

/-- OPEN: `SENSOR_APID`, 11 bits and at most 0x7FE (00_scope.md R9, D13). -/
opaque Config.openSensorApid : Fin 2047

/-- OPEN: `ROUTE_CLASS`, the class of each of the sixteen nibbles (00_scope.md R9, D21). -/
opaque Config.openRouteClass : BitVec 4 → RouteClass

end Sys2Proof
end

