-- ==== Sys2Proof/Machine/Codec.lean ====
section
/-! DEFINITION. The wire format (30_encoding.md Part A): big-endian byte sequences, the primary header, the default
secondary header layout, and the minimal-width sensor value. -/

namespace Sys2Proof.Machine

/-- `be16` (00_scope.md R13). -/
def be16 (v : BitVec 16) : List Byte := [v.extractLsb' 8 8, v.extractLsb' 0 8]

/-- `be32` (00_scope.md R13). -/
def be32 (v : Word) : List Byte :=
  [v.extractLsb' 24 8, v.extractLsb' 16 8, v.extractLsb' 8 8, v.extractLsb' 0 8]

/-- `unbe16` (00_scope.md R13). -/
def unbe16 (x y : Byte) : BitVec 16 := x.setWidth 16 <<< 8 ||| y.setWidth 16

/-- `s[i]` (00_scope.md R13), made total: positions outside the sequence are never read by a rule. -/
def byteAt (s : List Byte) (i : Nat) : Byte := s.getD i 0

/-- The first 16-bit word of the primary header: VER, TYPE, SHF, APID (30_encoding.md R71). -/
def priWord0 (p : PriHdr) : BitVec 16 :=
  p.ver.setWidth 16 <<< 13 ||| p.typ.setWidth 16 <<< 12 ||| p.shf.setWidth 16 <<< 11 ||| p.apid.setWidth 16

/-- The second 16-bit word of the primary header: SEQF, SEQC (30_encoding.md R71). -/
def priWord1 (p : PriHdr) : BitVec 16 := p.seqf.setWidth 16 <<< 14 ||| p.seqc.setWidth 16

/-- `encPH` (30_encoding.md R71). -/
def encPH (p : PriHdr) : List Byte := be16 (priWord0 p) ++ be16 (priWord1 p) ++ be16 p.pdl

/-- The primary header whose three 16-bit words are given (30_encoding.md R72). -/
def priOfWords (w0 w1 w2 : BitVec 16) : PriHdr where
  ver := w0.extractLsb' 13 3
  typ := w0.extractLsb' 12 1
  shf := w0.extractLsb' 11 1
  apid := w0.extractLsb' 0 11
  seqf := w1.extractLsb' 14 2
  seqc := w1.extractLsb' 0 14
  pdl := w2

/-- `decPH`, on a sequence of six bytes (30_encoding.md R72). -/
def decPH (s : List Byte) : PriHdr :=
  priOfWords (unbe16 (byteAt s 0) (byteAt s 1)) (unbe16 (byteAt s 2) (byteAt s 3)) (unbe16 (byteAt s 4) (byteAt s 5))

/-- `encSH` of the default layout (30_encoding.md R77), a header whose fields are in range. -/
def encSH (h : SecHdr) : List Byte :=
  [h.cat.setWidth 8,
   (h.aduUse <<< 7 ||| h.aduCh).setWidth 8,
   (h.aduSegf <<< 6 ||| (h.aduCnt.extractLsb' 8 6).setWidth 32).setWidth 8,
   h.aduCnt.extractLsb' 0 8] ++ be32 h.time

/-- `decSH` of the default layout, on a sequence of eight bytes (30_encoding.md R77). -/
def decSH (s : List Byte) : SecHdr where
  cat := (byteAt s 0).setWidth 32
  aduUse := ((byteAt s 1).extractLsb' 7 1).setWidth 32
  aduCh := ((byteAt s 1).extractLsb' 0 7).setWidth 32
  aduSegf := ((byteAt s 2).extractLsb' 6 2).setWidth 32
  aduCnt := ((byteAt s 2).extractLsb' 0 6).setWidth 32 <<< 8 ||| (byteAt s 3).setWidth 32
  time :=
    (byteAt s 4).setWidth 32 <<< 24 ||| (byteAt s 5).setWidth 32 <<< 16 ||| (byteAt s 6).setWidth 32 <<< 8
      ||| (byteAt s 7).setWidth 32

/-- `minBE`, the minimal-width big-endian value: one, two or four bytes (30_encoding.md R79). -/
def minBE (v : Word) : List Byte :=
  if v.extractLsb' 8 24 = 0 then [v.extractLsb' 0 8]
  else if v.extractLsb' 16 16 = 0 then be16 (v.extractLsb' 0 16)
  else be32 v

end Sys2Proof.Machine
end

