-- ==== Sys2Proof/Machine/Block.lean ====
section
/-! DEFINITION. The configuration of this hardware, with the values of the "value for this hardware" column of
00_scope.md R9; the three OPEN parameters are the constants of Config without a body. -/

namespace Sys2Proof.Machine

/-- The field widths of the default `SH_LAYOUT` (30_encoding.md R76, 10_state.md R22). -/
def defaultWidths : ShWidths where
  cat := 8
  aduUse := 1
  aduCh := 7
  aduSegf := 2
  aduCnt := 14
  time := 32

/-- The default `SH_LAYOUT`, `SEC_LEN = 8` (30_encoding.md R76, R77). -/
def defaultLayout : ShLayout where
  widths := defaultWidths
  secLen := 8
  enc := encSH
  dec := decSH

/-- The configuration of this hardware (00_scope.md R9). -/
def block : Config where
  bufCap := 65542
  versionConst := 0b000
  shLayout := defaultLayout
  seqFlagUnseg := 0b11
  statusApid := BitVec.ofNat 11 Config.openStatusApid.val
  sensorApid := BitVec.ofNat 11 Config.openSensorApid.val
  seqMode := .perApid
  seqConst := 0
  overflowPolicy := .fault
  routeClass := Config.openRouteClass
  broadcastAppliesLocal := false
  canMax := 8
  canFdMax := 64
  udpMax := 1024
  mstReset := 0x0000

/-- `EMPTY`: VER is `VERSION_CONST`, every other header field 0, no user data (41_packet_model.md, opening). -/
def emptyPacket (c : Config) : Packet where
  pri := ⟨c.versionConst, 0, 0, 0, 0, 0, 0⟩
  sec := ⟨0, 0, 0, 0, 0, 0⟩
  udf := []

end Sys2Proof.Machine
end

