-- ==== Sys2Proof/Machine/Transaction.lean ====
section
/-! DEFINITION. What passes the host port, as plain data (20_memory.md R55): the transactions the host issues and what
one returns to it. A register number, a buffer address and a buffer byte stay natural numbers, because the port refuses
the ones outside its map (R57). -/

namespace Sys2Proof.Machine

/-- The host's transactions; nothing else reaches the block (20_memory.md R55). -/
inductive Transaction where
  /-- `HostWriteReg(r, v)`; a write to register 0, CMD, runs the command `v`. -/
  | writeReg (r : Nat) (v : Word)
  /-- `HostReadReg(r)`. -/
  | readReg (r : Nat)
  /-- `HostWriteIBuf(a, x)`. -/
  | writeIBuf (a x : Nat)
  /-- `HostReadIBuf(a)`. -/
  | readIBuf (a : Nat)
  /-- `HostReadOBuf(a)`. -/
  | readOBuf (a : Nat)
  /-- `Reset`. -/
  | reset
deriving DecidableEq, Repr

/-- What a transaction returns to the host: a register's 32 bits, a buffer's byte, or nothing (20_memory.md R55). -/
inductive Response where
  | nothing
  | word (v : Word)
  | byte (x : Byte)
deriving DecidableEq, Repr

end Sys2Proof.Machine
end

