-- ==== Sys2Proof/Machine/State.lean ====
section
/-! DEFINITION. The state of the block (10_state.md) as plain data, the reasons a step can stop, and the reset state
(70_reset_and_hazards.md R175). -/

namespace Sys2Proof.Machine

/-- A byte buffer: its written bytes, addresses strictly rising. An address that is not listed has a clear written
mark (10_state.md R38; DEDUCED, safe: log entry 5). -/
abbrev Memory := List Host.Cell

/-- `SEQ_CTR`: its nonzero counters, APIDs strictly rising; an APID that is not listed counts 0 (10_state.md R35; DEDUCED, safe: log
entry 5). -/
abbrev SeqTable := List (Nat × BitVec 14)

/-- The state of the block, and at its end the two fields through which the model is driven and observed, which are
no state of the block (00_scope.md R19; log entries 1 and 2). -/
structure State where
  /-- `PKT[0]` (10_state.md R20). -/
  pkt0 : Packet
  /-- `PKT[1]` (10_state.md R20). -/
  pkt1 : Packet
  /-- `ARG0` (10_state.md R28). -/
  arg0 : Word
  /-- `ARG1` (10_state.md R28). -/
  arg1 : Word
  /-- `RES0` (10_state.md R29). -/
  res0 : Word
  /-- `RES1` (10_state.md R29). -/
  res1 : Word
  /-- `RES2` (10_state.md R29). -/
  res2 : Word
  /-- `STATUS.ERR`, bits [7:0] of STATUS; the others are hardwired to 0 (10_state.md R30). -/
  statusErr : BitVec 8
  /-- `OBUF_LEN` (10_state.md R31). -/
  obufLen : Word
  /-- Bits [15:0] of `MAIN_STATE_TC`; the others are hardwired to 0 (10_state.md R34). -/
  mainStateTc : BitVec 16
  /-- `SEQ_CTR` (10_state.md R35). -/
  seqCtr : SeqTable
  /-- `IBUF` (10_state.md R36). -/
  ibuf : Memory
  /-- `OBUF` (10_state.md R37). -/
  obuf : Memory
  /-- MODEL (DESIGN CHOICE, safe: log entry 1): the host's transactions the port has not accepted yet, in the order the
  host issues them. -/
  pending : List Transaction
  /-- MODEL (DESIGN CHOICE, safe: log entry 2): what the last transaction returned to the host. -/
  response : Response
deriving DecidableEq, Repr

/-- The model's faults (60_exceptions.md R159). -/
inductive Fault where
  /-- `UninitRead`: a command reads an IBUF byte, or the host an IBUF or OBUF byte, that was not written since reset
  (10_state.md R38). Raised by PH_DECODE, SH_DECODE, INTERPRET, SET_USER_DATA and by the host's buffer reads. Safe: the
  hardware returns some byte there and the model stops. -/
  | uninitRead
deriving DecidableEq, Repr

/-- The model's refusals (20_memory.md R57, 60_exceptions.md R159): a transaction outside the port's map has no step.
All are safe: the model stops where hardware would ignore the access or report a bus error (log entry 7). -/
inductive Refusal where
  /-- An instruction the model gives no meaning. Raised by no arm of `exec`. Safe. -/
  | notModelled (mnemonic : String)
  /-- A register number above 8. Raised by the port for a register transaction. Safe. -/
  | noSuchRegister
  /-- A host write to one of registers 3 to 8. Raised by the port. Safe. -/
  | readOnlyRegister
  /-- A host read of CMD. Raised by the port. Safe. -/
  | writeOnlyRegister
  /-- A buffer transaction at an address of `BUF_CAP` or more. Raised by the port. Safe. -/
  | addressOutsideBuffer
  /-- A HostWriteIBuf of a value of 256 or more. Raised by the port. Safe. -/
  | notAByte
deriving DecidableEq, Repr

/-- The state right after reset, of a block with configuration `c` (70_reset_and_hazards.md R175). -/
def State.resetWith (c : Config) : State where
  pkt0 := emptyPacket c
  pkt1 := emptyPacket c
  arg0 := 0
  arg1 := 0
  res0 := 0
  res1 := 0
  res2 := 0
  statusErr := 0
  obufLen := 0
  mainStateTc := c.mstReset
  seqCtr := []
  ibuf := []
  obuf := []
  pending := []
  response := .nothing

/-- The state of this block right after reset (70_reset_and_hazards.md R175). -/
def State.reset : State := State.resetWith block

end Sys2Proof.Machine
end

