-- ==== Sys2Proof/Machine/Flags.lean ====
section
/-! DEFINITION. STATUS, the block's only condition indicator (10_state.md R30, R33): the error codes of its ERR field
(60_exceptions.md R150), and the one operation that writes it. -/

namespace Sys2Proof.Machine

/-- The errors a command can raise (60_exceptions.md R150). -/
inductive Err where
  | notACCSDSSpacePacket
  | inconsistentPacketLength
  | secondaryHeaderDecodeError
  | addressedToWrongSubsystem
  | packetTooLargeForTransport
  | fieldOverflow
  | emptyPacketDataField
  | packetDataFieldTooLong
  | userDataTooShort
  | illegalCommand
  | illegalOperand
  | readOnlyField
deriving DecidableEq, Repr

/-- The code of an error in STATUS.ERR (60_exceptions.md R150). -/
def Err.code : Err → BitVec 8
  | .notACCSDSSpacePacket => 1
  | .inconsistentPacketLength => 2
  | .secondaryHeaderDecodeError => 3
  | .addressedToWrongSubsystem => 4
  | .packetTooLargeForTransport => 5
  | .fieldOverflow => 6
  | .emptyPacketDataField => 7
  | .packetDataFieldTooLong => 8
  | .userDataTooShort => 9
  | .illegalCommand => 10
  | .illegalOperand => 11
  | .readOnlyField => 12

/-- `STATUS <- zext_32(code)` (10_state.md R30). -/
def State.setErr (s : State) (code : BitVec 8) : State := { s with statusErr := code }

/-- STATUS as the host reads it: ERR in bits [7:0], the reserved bits 0 (10_state.md R30). -/
def State.status (s : State) : Word := s.statusErr.setWidth 32

end Sys2Proof.Machine
end

