-- ==== Sys2Proof/Machine/Ops.lean ====
section
/-! DEFINITION. The named operations over the buffers, the counters, the banks and the registers, how a command ends
(00_scope.md R14, R15), and taking an error (60_exceptions.md R152). The block has no return from an error (R153). -/

namespace Sys2Proof.Machine

/-! Sparse tables: lists of an index and a value, indices strictly rising. -/

/-- The value listed at an index. -/
def Sparse.get {α : Type} : List (Nat × α) → Nat → Option α
  | [], _ => none
  | (k, x) :: m, a => if k = a then some x else Sparse.get m a

/-- List `x` at `a`, keeping the indices in order. -/
def Sparse.put {α : Type} : List (Nat × α) → Nat → α → List (Nat × α)
  | [], a, x => [(a, x)]
  | (k, y) :: m, a, x =>
    if a < k then (a, x) :: (k, y) :: m
    else if a = k then (a, x) :: m
    else (k, y) :: Sparse.put m a x

/-- Unlist `a`. -/
def Sparse.del {α : Type} (m : List (Nat × α)) (a : Nat) : List (Nat × α) := m.filter (fun e => e.1 != a)

/-- The indices are strictly rising, the first at least `lo`. -/
def Sparse.sortedFrom {α : Type} : Nat → List (Nat × α) → Bool
  | _, [] => true
  | lo, (k, _) :: m => lo ≤ k && Sparse.sortedFrom (k + 1) m

/-! The byte buffers (10_state.md R36 to R38). -/

/-- The canonical form of a buffer: addresses strictly rising. -/
def Memory.wf (m : Memory) : Bool := Sparse.sortedFrom 0 m

/-- The byte at `a`; none where the written mark is clear (10_state.md R38). -/
def Memory.read (m : Memory) (a : Nat) : Option Byte := Sparse.get m a

/-- Write one byte and set its mark (10_state.md R38). -/
def Memory.write (m : Memory) (a : Nat) (x : Byte) : Memory := Sparse.put m a x

/-- The `n` bytes from `a` on; none if one of them has a clear mark (00_scope.md R14). -/
def Memory.readBytes (m : Memory) (a : Nat) : Nat → Option (List Byte)
  | 0 => some []
  | n + 1 =>
    match Memory.read m a, Memory.readBytes m (a + 1) n with
    | some x, some s => some (x :: s)
    | _, _ => none

/-- Write a byte sequence from `a` on (00_scope.md R14). -/
def Memory.writeBytes (m : Memory) (a : Nat) : List Byte → Memory
  | [] => m
  | x :: s => Memory.writeBytes (Memory.write m a x) (a + 1) s

/-! The sequence counters (10_state.md R35). -/

/-- The counter of an APID. -/
def SeqTable.read (t : SeqTable) (apid : BitVec 11) : BitVec 14 := (Sparse.get t apid.toNat).getD 0

/-- Set the counter of an APID; a counter of 0 is not listed. -/
def SeqTable.write (t : SeqTable) (apid : BitVec 11) (v : BitVec 14) : SeqTable :=
  if v = 0 then Sparse.del t apid.toNat else Sparse.put t apid.toNat v

/-! The packet banks (10_state.md R20). -/

/-- Bank `1 - b` (41_packet_model.md R117). -/
def otherBank : Bank → Bank
  | .b0 => .b1
  | .b1 => .b0

/-- `PKT[b]`. -/
def State.bank (s : State) : Bank → Packet
  | .b0 => s.pkt0
  | .b1 => s.pkt1

/-- `PKT[b] <- p`. -/
def State.setBank (s : State) (b : Bank) (p : Packet) : State :=
  { s with pkt0 := if b = .b0 then p else s.pkt0, pkt1 := if b = .b1 then p else s.pkt1 }

/-- `secLen(p)`: `SEC_LEN` if SHF is 1, else 0 (00_scope.md R18). -/
def Packet.secLen (c : Config) (p : Packet) : Nat := if p.pri.shf = 1 then c.secLen else 0

/-- `dataLen(p)` (00_scope.md R18). -/
def Packet.dataLen (c : Config) (p : Packet) : Nat := p.secLen c + p.udf.length

/-- The packet with PDL set to one less than a data field length (30_encoding.md R73). -/
def Packet.withDataLen (p : Packet) (n : Nat) : Packet :=
  { p with pri := { p.pri with pdl := BitVec.ofNat 16 (n - 1) } }

/-- The serialized packet: primary header, secondary header if SHF is 1, user data (30_encoding.md R74). -/
def Packet.bytes (c : Config) (p : Packet) : List Byte :=
  encPH p.pri ++ (if p.pri.shf = 1 then c.shLayout.enc p.sec else []) ++ p.udf

/-! How a command ends. -/

/-- The end of a command's pseudocode, or of a part of it: `ok` with what it made, `raise E` (00_scope.md R14), or the
model's stop on an unwritten byte (10_state.md R38). -/
inductive Cmd (α : Type) where
  | ok (x : α)
  | raise (e : Err)
  | uninit

/-- The rest of a command's pseudocode, run on what its first part made. -/
def Cmd.bind {α β : Type} (x : Cmd α) (f : α → Cmd β) : Cmd β :=
  match x with
  | .ok a => f a
  | .raise e => .raise e
  | .uninit => .uninit

/-- Error entry: every write of the command is discarded and STATUS gets the error's code; no mode changes, no vector
is taken, nothing is saved (60_exceptions.md R151, R152). -/
def raiseError (e : Err) (s : State) : State := s.setErr e.code

/-- The end of a command started in `s`: its writes commit together at `ok`, with STATUS.ERR 0 (00_scope.md R14, R15). -/
def finish (s : State) (r : Cmd State) : Host.Outcome State Fault Refusal :=
  match r with
  | .ok s' => .next (s'.setErr 0)
  | .raise e => .next (raiseError e s)
  | .uninit => .fault .uninitRead

/-! Reads and writes a command makes. -/

/-- `MemRead(IBUF, a, n)` (00_scope.md R14). -/
def State.memRead (s : State) (a n : Nat) : Cmd (List Byte) :=
  match Memory.readBytes s.ibuf a n with
  | some x => .ok x
  | none => .uninit

/-- `MemWrite(OBUF, 0, n, x); OBUF_LEN <- n`, with `n` the length of `x` (10_state.md R37). -/
def State.putOBuf (s : State) (x : List Byte) : State :=
  { s with obuf := Memory.writeBytes s.obuf 0 x, obufLen := BitVec.ofNat 32 x.length }

/-- `RES0 <- r0; RES1 <- r1; RES2 <- r2` (42_framing.md R132). -/
def State.setRes (s : State) (r0 r1 r2 : Word) : State := { s with res0 := r0, res1 := r1, res2 := r2 }

/-- `RES0 <- r0` (41_packet_model.md R115). -/
def State.setRes0 (s : State) (r0 : Word) : State := { s with res0 := r0 }

/-- `MAIN_STATE_TC <- zext_32(v)` (10_state.md R34). -/
def State.setMainStateTc (s : State) (v : BitVec 16) : State := { s with mainStateTc := v }

/-- `SEQ_CTR <- t` (42_framing.md R134). -/
def State.setSeqCtr (s : State) (t : SeqTable) : State := { s with seqCtr := t }

/-- `fit(v, W)` (41_packet_model.md R118). -/
def fit (c : Config) (v : Word) (w : Nat) : Cmd Word :=
  if v.toNat < 2 ^ w then .ok v
  else
    match c.overflowPolicy with
    | .fault => .raise .fieldOverflow
    | .truncate => .ok (BitVec.ofNat 32 (v.toNat % 2 ^ w))

/-- `nextSeq(a)`: the sequence count, and the counters after it (42_framing.md R134). -/
def nextSeq (c : Config) (a : BitVec 11) (t : SeqTable) : BitVec 14 × SeqTable :=
  match c.seqMode with
  | .constant => (c.seqConst, t)
  | .perApid => (t.read a, t.write a (t.read a + 1))

/-! The register file as the host reaches it (10_state.md R26). -/

/-- MAIN_STATE_TC as the host reads it: the value in bits [15:0], the others 0 (10_state.md R34). -/
def State.mainStateTcReg (s : State) : Word := s.mainStateTc.setWidth 32

/-- The value of register `r`, for the registers the host may read (10_state.md R26). -/
def State.readReg (s : State) : Nat → Option Word
  | 1 => some s.arg0
  | 2 => some s.arg1
  | 3 => some s.res0
  | 4 => some s.res1
  | 5 => some s.res2
  | 6 => some s.status
  | 7 => some s.obufLen
  | 8 => some s.mainStateTcReg
  | _ => none

end Sys2Proof.Machine
end

