-- ==== Sys2Proof/Machine/Operands.lean ====
section
/-! DEFINITION. The operand forms (30_encoding.md R85, R86): the operands that come from ARG0 and ARG1 as unsigned
32-bit values, the field selector, and the transport selector. -/

namespace Sys2Proof.Machine

/-! Operands from the ARG registers (30_encoding.md R86). -/

/-- `avail` of PH_DECODE. -/
abbrev State.availOperand (s : State) : Nat := s.arg0.toNat

/-- `offset` of SH_DECODE. -/
abbrev State.offsetOperand (s : State) : Nat := s.arg0.toNat

/-- `remaining` of SH_DECODE. -/
abbrev State.remainingOperand (s : State) : Nat := s.arg1.toNat

/-- `length` of INTERPRET. -/
abbrev State.lengthOperand (s : State) : Nat := s.arg0.toNat

/-- `n` of SET_USER_DATA. -/
abbrev State.countOperand (s : State) : Nat := s.arg0.toNat

/-- `value` of SET_FIELD. -/
abbrev State.fieldOperand (s : State) : Word := s.arg0

/-- `code` of WRAP_STATUS, which must fit 16 bits. -/
def State.codeOperand (c : Config) (s : State) : Cmd (BitVec 16) :=
  (fit c s.arg0 16).bind fun v => .ok (v.setWidth 16)

/-- `sensorId` of WRAP_SENSOR, which must fit 16 bits. -/
def State.sensorIdOperand (c : Config) (s : State) : Cmd (BitVec 16) :=
  (fit c s.arg0 16).bind fun v => .ok (v.setWidth 16)

/-- `value` of WRAP_SENSOR, all 32 bits, never sign-interpreted. -/
abbrev State.valueOperand (s : State) : Word := s.arg1

/-! The field selector (30_encoding.md R85). -/

/-- The fields of a bank that SEL names. -/
inductive Field where
  | ver | typ | shf | apid | seqf | seqc | pdl | cat | aduUse | aduCh | aduSegf | aduCnt | time | udfLen
deriving DecidableEq, Repr

/-- The field a selector names; none for 14 and 15. -/
def Field.ofSel (sel : BitVec 4) : Option Field :=
  match sel.toNat with
  | 0 => some .ver
  | 1 => some .typ
  | 2 => some .shf
  | 3 => some .apid
  | 4 => some .seqf
  | 5 => some .seqc
  | 6 => some .pdl
  | 7 => some .cat
  | 8 => some .aduUse
  | 9 => some .aduCh
  | 10 => some .aduSegf
  | 11 => some .aduCnt
  | 12 => some .time
  | 13 => some .udfLen
  | _ => none

/-- The selector of a field. -/
def Field.sel : Field → BitVec 4
  | .ver => 0
  | .typ => 1
  | .shf => 2
  | .apid => 3
  | .seqf => 4
  | .seqc => 5
  | .pdl => 6
  | .cat => 7
  | .aduUse => 8
  | .aduCh => 9
  | .aduSegf => 10
  | .aduCnt => 11
  | .time => 12
  | .udfLen => 13

/-- The width of a field; the secondary header's are the layout's. -/
def Field.width (c : Config) : Field → Nat
  | .ver => 3
  | .typ => 1
  | .shf => 1
  | .apid => 11
  | .seqf => 2
  | .seqc => 14
  | .pdl => 16
  | .cat => c.shLayout.widths.cat
  | .aduUse => c.shLayout.widths.aduUse
  | .aduCh => c.shLayout.widths.aduCh
  | .aduSegf => c.shLayout.widths.aduSegf
  | .aduCnt => c.shLayout.widths.aduCnt
  | .time => c.shLayout.widths.time
  | .udfLen => 17

/-- The fields SET_FIELD may not write: VER, PDL and UDF_LEN. -/
def Field.readOnly : Field → Bool
  | .ver | .pdl | .udfLen => true
  | .typ | .shf | .apid | .seqf | .seqc | .cat | .aduUse | .aduCh | .aduSegf | .aduCnt | .time => false

/-- The value of a field, zero-extended; for UDF_LEN the length of the user data (41_packet_model.md R115). -/
def Packet.get (p : Packet) : Field → Word
  | .ver => p.pri.ver.setWidth 32
  | .typ => p.pri.typ.setWidth 32
  | .shf => p.pri.shf.setWidth 32
  | .apid => p.pri.apid.setWidth 32
  | .seqf => p.pri.seqf.setWidth 32
  | .seqc => p.pri.seqc.setWidth 32
  | .pdl => p.pri.pdl.setWidth 32
  | .cat => p.sec.cat
  | .aduUse => p.sec.aduUse
  | .aduCh => p.sec.aduCh
  | .aduSegf => p.sec.aduSegf
  | .aduCnt => p.sec.aduCnt
  | .time => p.sec.time
  | .udfLen => BitVec.ofNat 32 p.udf.length

/-- The packet with a writable field set from a value that fits it (41_packet_model.md R116); no field is written
where SET_FIELD may not write. -/
def Packet.set (p : Packet) (f : Field) (v : Word) : Packet :=
  match f with
  | .ver | .pdl | .udfLen => p
  | .typ => { p with pri := { p.pri with typ := v.setWidth 1 } }
  | .shf => { p with pri := { p.pri with shf := v.setWidth 1 } }
  | .apid => { p with pri := { p.pri with apid := v.setWidth 11 } }
  | .seqf => { p with pri := { p.pri with seqf := v.setWidth 2 } }
  | .seqc => { p with pri := { p.pri with seqc := v.setWidth 14 } }
  | .cat => { p with sec := { p.sec with cat := v } }
  | .aduUse => { p with sec := { p.sec with aduUse := v } }
  | .aduCh => { p with sec := { p.sec with aduCh := v } }
  | .aduSegf => { p with sec := { p.sec with aduSegf := v } }
  | .aduCnt => { p with sec := { p.sec with aduCnt := v } }
  | .time => { p with sec := { p.sec with time := v } }

/-! The transport selector (30_encoding.md R85). -/

/-- The transports that SEL of CHECK_SIZE names. -/
inductive Transport where
  | can
  | canFd
  | udp
deriving DecidableEq, Repr

/-- The transport a selector names; none for 3 to 15. -/
def Transport.ofSel (sel : BitVec 4) : Option Transport :=
  match sel.toNat with
  | 0 => some .can
  | 1 => some .canFd
  | 2 => some .udp
  | _ => none

/-- The selector of a transport. -/
def Transport.sel : Transport → BitVec 4
  | .can => 0
  | .canFd => 1
  | .udp => 2

/-- The transport's payload limit (42_framing.md R133). -/
def Transport.limit (c : Config) : Transport → Nat
  | .can => c.canMax
  | .canFd => c.canFdMax
  | .udp => c.udpMax

end Sys2Proof.Machine
end

