-- ==== Sys2Proof/Machine/Framing.lean ====
section
/-! DEFINITION. The framing and routing commands (42_framing.md). Each is written for any configuration and then taken
at the block's own. -/

namespace Sys2Proof.Machine

/-- The telemetry packet a WRAP command builds from EMPTY: TYPE 0, SHF 0, the given APID, `SEQ_FLAG_UNSEG`, the given
sequence count, the given user data and the PDL of its length (42_framing.md R130, R131). -/
def telemetryPacket (c : Config) (apid : BitVec 11) (seqc : BitVec 14) (udf : List Byte) : Packet :=
  { emptyPacket c with
    pri := ⟨c.versionConst, 0, 0, apid, c.seqFlagUnseg, seqc, BitVec.ofNat 16 (udf.length - 1)⟩, udf := udf }

/-- Build in bank `b` the next telemetry packet of an APID, with that APID's next sequence count (42_framing.md R134). -/
def State.wrap (c : Config) (b : Bank) (apid : BitVec 11) (udf : List Byte) (s : State) : State :=
  let n := nextSeq c apid s.seqCtr
  (s.setSeqCtr n.2).setBank b (telemetryPacket c apid n.1 udf)

/-- WRAP_STATUS (42_framing.md R130). -/
def wrapStatusCmd (c : Config) (b : Bank) (s : State) : Cmd State :=
  (s.codeOperand c).bind fun code => .ok (s.wrap c b c.statusApid (be16 code))

/-- WRAP_SENSOR (42_framing.md R131). -/
def wrapSensorCmd (c : Config) (b : Bank) (s : State) : Cmd State :=
  (s.sensorIdOperand c).bind fun id => .ok (s.wrap c b c.sensorApid (be16 id ++ minBE s.valueOperand))

/-- The 16-bit code at the start of user data (42_framing.md R132). -/
def routeCode (u : List Byte) : BitVec 16 := unbe16 (byteAt u 0) (byteAt u 1)

/-- The state value of a broadcast: the code with its top nibble masked off (42_framing.md R132). -/
def broadcastValue (code : BitVec 16) : BitVec 16 := code &&& 0x0FFF

/-- ROUTE of user data of at least two bytes, by the class of its code's top nibble (42_framing.md R132; that a broadcast
sets OBUF_LEN too: DEDUCED, log entry 9). -/
def routeByClass (c : Config) (u : List Byte) (s : State) : RouteClass → Cmd State
  | .invalid => .raise .addressedToWrongSubsystem
  | .loc => .ok ((s.setMainStateTc (routeCode u)).setRes 0 0 ((routeCode u).setWidth 32))
  | .forward sid => .ok ((s.putOBuf u).setRes 1 sid ((routeCode u).setWidth 32))
  | .broadcast =>
    let v := broadcastValue (routeCode u)
    let t := (s.putOBuf (be16 v ++ u.drop 2)).setRes 2 0 (v.setWidth 32)
    .ok (if c.broadcastAppliesLocal then t.setMainStateTc v else t)

/-- ROUTE (42_framing.md R132). It reads no header field. -/
def routeCmd (c : Config) (b : Bank) (s : State) : Cmd State :=
  if (s.bank b).udf.length < 2 then .raise .userDataTooShort
  else routeByClass c (s.bank b).udf s (c.routeClass ((routeCode (s.bank b).udf).extractLsb' 12 4))

/-- CHECK_SIZE (42_framing.md R133). It changes nothing but STATUS. -/
def checkSizeCmd (c : Config) (sel : BitVec 4) (s : State) : Cmd State :=
  match Transport.ofSel sel with
  | none => .raise .illegalOperand
  | some t => if s.obufLen.toNat > t.limit c then .raise .packetTooLargeForTransport else .ok s

/-- The meaning of WRAP_STATUS (42_framing.md R130). -/
def execWrapStatus (b : Bank) (s : State) : Host.Outcome State Fault Refusal := finish s (wrapStatusCmd block b s)

/-- The meaning of WRAP_SENSOR (42_framing.md R131). -/
def execWrapSensor (b : Bank) (s : State) : Host.Outcome State Fault Refusal := finish s (wrapSensorCmd block b s)

/-- The meaning of ROUTE (42_framing.md R132). -/
def execRoute (b : Bank) (s : State) : Host.Outcome State Fault Refusal := finish s (routeCmd block b s)

/-- The meaning of CHECK_SIZE (42_framing.md R133). -/
def execCheckSize (sel : BitVec 4) (s : State) : Host.Outcome State Fault Refusal := finish s (checkSizeCmd block sel s)

end Sys2Proof.Machine
end

