-- ==== Sys2Proof/Machine/HeaderCodec.lean ====
section
/-! DEFINITION. The header codec commands (40_header_codec.md). Each is written for any configuration and then taken
at the block's own. -/

namespace Sys2Proof.Machine

/-- PH_ENCODE (40_header_codec.md R100). -/
def phEncodeCmd (b : Bank) (s : State) : Cmd State := .ok (s.putOBuf (encPH (s.bank b).pri))

/-- PH_DECODE (40_header_codec.md R101). -/
def phDecodeCmd (c : Config) (b : Bank) (s : State) : Cmd State :=
  if s.availOperand > c.bufCap then .raise .illegalOperand
  else if s.availOperand < 6 then .raise .notACCSDSSpacePacket
  else (s.memRead 0 6).bind fun h => .ok (s.setBank b { s.bank b with pri := decPH h })

/-- SH_ENCODE (40_header_codec.md R102): it runs whatever SHF holds. -/
def shEncodeCmd (c : Config) (b : Bank) (s : State) : Cmd State := .ok (s.putOBuf (c.shLayout.enc (s.bank b).sec))

/-- SH_DECODE (40_header_codec.md R103): it runs whatever SHF holds. -/
def shDecodeCmd (c : Config) (b : Bank) (s : State) : Cmd State :=
  if s.offsetOperand > c.bufCap ∨ s.remainingOperand > c.bufCap - s.offsetOperand then .raise .illegalOperand
  else if s.remainingOperand < c.secLen then .raise .secondaryHeaderDecodeError
  else (s.memRead s.offsetOperand c.secLen).bind fun h => .ok (s.setBank b { s.bank b with sec := c.shLayout.dec h })

/-- The meaning of PH_ENCODE (40_header_codec.md R100). -/
def execPhEncode (b : Bank) (s : State) : Host.Outcome State Fault Refusal := finish s (phEncodeCmd b s)

/-- The meaning of PH_DECODE (40_header_codec.md R101). -/
def execPhDecode (b : Bank) (s : State) : Host.Outcome State Fault Refusal := finish s (phDecodeCmd block b s)

/-- The meaning of SH_ENCODE (40_header_codec.md R102). -/
def execShEncode (b : Bank) (s : State) : Host.Outcome State Fault Refusal := finish s (shEncodeCmd block b s)

/-- The meaning of SH_DECODE (40_header_codec.md R103). -/
def execShDecode (b : Bank) (s : State) : Host.Outcome State Fault Refusal := finish s (shDecodeCmd block b s)

end Sys2Proof.Machine
end

