-- ==== Sys2Proof/Machine/PacketModel.lean ====
section
/-! DEFINITION. The space packet model commands (41_packet_model.md). Each is written for any configuration and then
taken at the block's own. -/

namespace Sys2Proof.Machine

/-- NEW (41_packet_model.md R110). -/
def newCmd (c : Config) (b : Bank) (s : State) : Cmd State := .ok (s.setBank b (emptyPacket c))

/-- SERIALIZE (41_packet_model.md R111). -/
def serializeCmd (c : Config) (b : Bank) (s : State) : Cmd State :=
  if (s.bank b).dataLen c = 0 then .raise .emptyPacketDataField
  else if (s.bank b).dataLen c > 65536 then .raise .packetDataFieldTooLong
  else
    let p := (s.bank b).withDataLen ((s.bank b).dataLen c)
    .ok ((s.setBank b p).putOBuf (p.bytes c))

/-- Steps 4 and 5 of INTERPRET: the packet in IBUF whose primary header is `h` (41_packet_model.md R112). -/
def interpretBody (c : Config) (h : PriHdr) (s : State) : Cmd Packet :=
  if h.shf = 0 then
    (s.memRead 6 (h.pdl.toNat + 1)).bind fun u => .ok { emptyPacket c with pri := h, udf := u }
  else if h.pdl.toNat + 1 < c.secLen then .raise .inconsistentPacketLength
  else
    (s.memRead 6 c.secLen).bind fun sh =>
      (s.memRead (6 + c.secLen) (h.pdl.toNat + 1 - c.secLen)).bind fun u =>
        .ok { pri := h, sec := c.shLayout.dec sh, udf := u }

/-- INTERPRET (41_packet_model.md R112). -/
def interpretCmd (c : Config) (b : Bank) (s : State) : Cmd State :=
  if s.lengthOperand > c.bufCap then .raise .illegalOperand
  else if s.lengthOperand < 6 then .raise .notACCSDSSpacePacket
  else
    (s.memRead 0 6).bind fun hb =>
      if s.lengthOperand < (decPH hb).pdl.toNat + 1 + 6 then .raise .inconsistentPacketLength
      else (interpretBody c (decPH hb) s).bind fun p => .ok (s.setBank b p)

/-- SET_USER_DATA (41_packet_model.md R113). -/
def setUserDataCmd (c : Config) (b : Bank) (s : State) : Cmd State :=
  if s.countOperand > c.bufCap then .raise .illegalOperand
  else if (s.bank b).secLen c + s.countOperand = 0 then .raise .emptyPacketDataField
  else if (s.bank b).secLen c + s.countOperand > 65536 then .raise .packetDataFieldTooLong
  else
    (s.memRead 0 s.countOperand).bind fun u =>
      .ok (s.setBank b ({ s.bank b with udf := u }.withDataLen ((s.bank b).secLen c + s.countOperand)))

/-- GET_USER_DATA (41_packet_model.md R114). -/
def getUserDataCmd (b : Bank) (s : State) : Cmd State := .ok (s.putOBuf (s.bank b).udf)

/-- GET_FIELD (41_packet_model.md R115). -/
def getFieldCmd (b : Bank) (sel : BitVec 4) (s : State) : Cmd State :=
  match Field.ofSel sel with
  | none => .raise .illegalOperand
  | some f => .ok (s.setRes0 ((s.bank b).get f))

/-- SET_FIELD (41_packet_model.md R116). -/
def setFieldCmd (c : Config) (b : Bank) (sel : BitVec 4) (s : State) : Cmd State :=
  match Field.ofSel sel with
  | none => .raise .illegalOperand
  | some f =>
    if f.readOnly then .raise .readOnlyField
    else (fit c s.fieldOperand (f.width c)).bind fun v => .ok (s.setBank b ((s.bank b).set f v))

/-- CLONE (41_packet_model.md R117). -/
def cloneCmd (b : Bank) (s : State) : Cmd State := .ok (s.setBank (otherBank b) (s.bank b))

/-- The meaning of NEW (41_packet_model.md R110). -/
def execNew (b : Bank) (s : State) : Host.Outcome State Fault Refusal := finish s (newCmd block b s)

/-- The meaning of SERIALIZE (41_packet_model.md R111). -/
def execSerialize (b : Bank) (s : State) : Host.Outcome State Fault Refusal := finish s (serializeCmd block b s)

/-- The meaning of INTERPRET (41_packet_model.md R112). -/
def execInterpret (b : Bank) (s : State) : Host.Outcome State Fault Refusal := finish s (interpretCmd block b s)

/-- The meaning of SET_USER_DATA (41_packet_model.md R113). -/
def execSetUserData (b : Bank) (s : State) : Host.Outcome State Fault Refusal := finish s (setUserDataCmd block b s)

/-- The meaning of GET_USER_DATA (41_packet_model.md R114). -/
def execGetUserData (b : Bank) (s : State) : Host.Outcome State Fault Refusal := finish s (getUserDataCmd b s)

/-- The meaning of GET_FIELD (41_packet_model.md R115). -/
def execGetField (b : Bank) (sel : BitVec 4) (s : State) : Host.Outcome State Fault Refusal :=
  finish s (getFieldCmd b sel s)

/-- The meaning of SET_FIELD (41_packet_model.md R116). -/
def execSetField (b : Bank) (sel : BitVec 4) (s : State) : Host.Outcome State Fault Refusal :=
  finish s (setFieldCmd block b sel s)

/-- The meaning of CLONE (41_packet_model.md R117). -/
def execClone (b : Bank) (s : State) : Host.Outcome State Fault Refusal := finish s (cloneCmd b s)

end Sys2Proof.Machine
end

