-- ==== Sys2Proof/Machine/Dispatch.lean ====
section
/-! DEFINITION. The meaning of every instruction, one arm each. -/

namespace Sys2Proof.Machine

/-- The effect of one command (20_memory.md R58). -/
def exec (i : Instr) (s : State) : Host.Outcome State Fault Refusal :=
  match i with
  | .new b => Sys2Proof.Machine.execNew b s
  | .phEncode b => Sys2Proof.Machine.execPhEncode b s
  | .phDecode b => Sys2Proof.Machine.execPhDecode b s
  | .shEncode b => Sys2Proof.Machine.execShEncode b s
  | .shDecode b => Sys2Proof.Machine.execShDecode b s
  | .serialize b => Sys2Proof.Machine.execSerialize b s
  | .interpret b => Sys2Proof.Machine.execInterpret b s
  | .setUserData b => Sys2Proof.Machine.execSetUserData b s
  | .getUserData b => Sys2Proof.Machine.execGetUserData b s
  | .getField b sel => Sys2Proof.Machine.execGetField b sel s
  | .setField b sel => Sys2Proof.Machine.execSetField b sel s
  | .clone b => Sys2Proof.Machine.execClone b s
  | .wrapStatus b => Sys2Proof.Machine.execWrapStatus b s
  | .wrapSensor b => Sys2Proof.Machine.execWrapSensor b s
  | .route b => Sys2Proof.Machine.execRoute b s
  | .checkSize sel => Sys2Proof.Machine.execCheckSize sel s

end Sys2Proof.Machine
end

