-- ==== Sys2Proof/WellFormed.lean ====
section
/-! DEFINITION. The well-formedness checks. The operand types of `Instr` admit exactly what a command word encodes, so
every instruction is well formed as an encoding; what is left to check is whether its selector names something (R85),
whether a transaction lies on the port's map (R57), whether a packet respects `UDF_CAP` (R23) and its layout's widths (30_encoding.md R75), and whether a
configuration meets the constraints of R10. -/

namespace Sys2Proof

/-- The instruction's selector, if it has one, names a field or a transport (30_encoding.md R85). An instruction that
fails the check still runs, and raises `IllegalOperand`. -/
def Instr.selectorDefined : Instr → Bool
  | .getField _ sel => sel.toNat < 14
  | .setField _ sel => sel.toNat < 14
  | .checkSize sel => sel.toNat < 3
  | .new _ | .phEncode _ | .phDecode _ | .shEncode _ | .shDecode _ | .serialize _ | .interpret _ | .setUserData _
  | .getUserData _ | .clone _ | .wrapStatus _ | .wrapSensor _ | .route _ => true

/-- The transaction lies on the port's map: the port refuses exactly the others (20_memory.md R57). -/
def Machine.Transaction.wf (c : Config) : Machine.Transaction → Bool
  | .writeReg r _ => r ≤ 2
  | .readReg r => 1 ≤ r && r ≤ 8
  | .writeIBuf a x => a < c.bufCap && x < 256
  | .readIBuf a => a < c.bufCap
  | .readOBuf a => a < c.bufCap
  | .reset => true

/-- The user data is no longer than `UDF_CAP` (10_state.md R23), and each secondary header field has the width the layout
gives it (10_state.md R22, 30_encoding.md R75). -/
def Machine.Packet.wf (c : Config) (p : Machine.Packet) : Bool :=
  p.udf.length ≤ udfCap && p.sec.inRange c.shLayout.widths

/-- The constraints on a configuration that its types do not already impose (00_scope.md R10). -/
def Config.wf (c : Config) : Bool :=
  6 + udfCap ≤ c.bufCap && c.statusApid != 0x7FF && c.sensorApid != 0x7FF && 1 ≤ c.secLen
    && c.canFdMax ≤ c.udpMax && c.canMax ≤ c.canFdMax

/-- A configuration of R9: it meets R10, and its layout meets R77. -/
structure Config.Valid (c : Config) : Prop where
  wf : c.wf = true
  layout : c.shLayout.Lawful

end Sys2Proof
end

