-- ==== Sys2Proof/Machine/HostPort.lean ====
section
/-! DEFINITION. The host port (20_memory.md section 2): what each transaction does, and how the port takes the next one. -/

namespace Sys2Proof.Machine

/-- A write of the word `w` to CMD: decode it and run the command, or raise `IllegalCommand` (20_memory.md R58,
30_encoding.md R84). -/
def writeCmd (w : Word) (s : State) : Host.Outcome State Fault Refusal :=
  match decode w with
  | .ok i => exec i s
  | .error _ => .next (raiseError .illegalCommand s)

/-- Return a response to the host. -/
def State.respond (s : State) (r : Response) : State := { s with response := r }

/-- `HostWriteReg(r, v)` (10_state.md R26, 20_memory.md R55, R57). -/
def hostWriteReg (r : Nat) (v : Word) (s : State) : Host.Outcome State Fault Refusal :=
  match r with
  | 0 => writeCmd v s
  | 1 => .next { s with arg0 := v }
  | 2 => .next { s with arg1 := v }
  | r => .refused (if r ≤ 8 then .readOnlyRegister else .noSuchRegister)

/-- `HostReadReg(r)` (10_state.md R26, 20_memory.md R55, R57). -/
def hostReadReg (r : Nat) (s : State) : Host.Outcome State Fault Refusal :=
  match s.readReg r with
  | some v => .next (s.respond (.word v))
  | none => .refused (if r = 0 then .writeOnlyRegister else .noSuchRegister)

/-- `HostWriteIBuf(a, x)` (20_memory.md R55, R57): write the byte and set its mark. -/
def hostWriteIBuf (c : Config) (a x : Nat) (s : State) : Host.Outcome State Fault Refusal :=
  if c.bufCap ≤ a then .refused .addressOutsideBuffer
  else if 256 ≤ x then .refused .notAByte
  else .next { s with ibuf := Memory.write s.ibuf a (BitVec.ofNat 8 x) }

/-- A host read of a byte of one of the buffers (20_memory.md R55, R57): a byte whose mark is clear is the fault
`UninitRead` (10_state.md R38). -/
def hostReadBuf (c : Config) (m : Memory) (a : Nat) (s : State) : Host.Outcome State Fault Refusal :=
  if c.bufCap ≤ a then .refused .addressOutsideBuffer
  else
    match Memory.read m a with
    | some x => .next (s.respond (.byte x))
    | none => .fault .uninitRead

/-- `Reset` (70_reset_and_hazards.md R175): the block's state to its reset values; the host's stream goes on. -/
def hostReset (s : State) : State := { State.reset with pending := s.pending }

/-- One transaction, complete before the next is taken (20_memory.md R55, R56). -/
def serve (t : Transaction) (s : State) : Host.Outcome State Fault Refusal :=
  match t with
  | .writeReg r v => hostWriteReg r v s
  | .readReg r => hostReadReg r s
  | .writeIBuf a x => hostWriteIBuf block a x s
  | .readIBuf a => hostReadBuf block s.ibuf a s
  | .readOBuf a => hostReadBuf block s.obuf a s
  | .reset => .next (hostReset s)

/-- Take the transaction `t` from the head of the stream, with `rest` left: the previous response is gone. -/
def State.accept (s : State) (rest : List Transaction) : State := { s with pending := rest, response := .nothing }

/-- Take and serve the next transaction of the host's stream; with none, the block holds its state unchanged
(20_memory.md R62, 60_exceptions.md R166). -/
def portStep (s : State) : Host.Outcome State Fault Refusal :=
  match s.pending with
  | [] => .next s
  | t :: rest => serve t (s.accept rest)

/-- The state with a write of `w` to CMD as the host's next transaction. -/
def State.withCommand (s : State) (w : Word) : State := { s with pending := .writeReg 0 w :: s.pending }

end Sys2Proof.Machine
end

