-- ==== Sys2Proof/Machine/Step.lean ====
section
/-! DEFINITION. The step of the block: one transaction of the host (70_reset_and_hazards.md R192). The block fetches no
instructions (10_state.md R32): the next instruction is the command word of the host's next write to CMD. -/

namespace Sys2Proof.Machine

/-- One step: the next transaction of the host's stream (20_memory.md R56, R62). -/
def step (s : State) : Host.Outcome State Fault Refusal := portStep s

/-- The state whose next transaction writes to CMD the command word the opcode table numbers `w` (log entry 1). -/
def State.withFetchWord (s : State) (nbits w : Nat) : State := s.withCommand (tableWord nbits w)

end Sys2Proof.Machine
end

