-- ==== Sys2Proof/Machine/HostProgram.lean ====
section
/-! DEFINITION. The host program syntax and its pseudo-instructions (30_encoding.md Part C, R87 and R88), as data: a
line assembles to the transactions it stands for, or is refused. The host is outside the block (70_reset_and_hazards.md
R190); nothing here is part of its step. -/

namespace Sys2Proof.Machine

/-- The registers a host program may read (30_encoding.md R87). -/
inductive HostReg where
  | arg0 | arg1 | res0 | res1 | res2 | status | obufLen | mainStateTc
deriving DecidableEq, Repr

/-- The number of a register (10_state.md R26). -/
def HostReg.num : HostReg → Nat
  | .arg0 => 1
  | .arg1 => 2
  | .res0 => 3
  | .res1 => 4
  | .res2 => 5
  | .status => 6
  | .obufLen => 7
  | .mainStateTc => 8

/-- The `sel=` of a `cmd` line: absent, a field name, a transport name or a number (30_encoding.md R87). -/
inductive SelArg where
  | absent
  | field (f : Field)
  | transport (t : Transport)
  | number (n : Nat)
deriving DecidableEq, Repr

/-- A line of a host program (30_encoding.md R87), the pseudo-instructions of R88 included. An absent `b=` is `none`. -/
inductive HostLine where
  | wrArg0 (v : Word)
  | wrArg1 (v : Word)
  | wrCmd (w : Word)
  | rd (r : HostReg)
  | cmd (m : Mnemonic) (b : Option Nat) (sel : SelArg)
  | ib (a : Nat) (xs : List Nat)
  | ob (a n : Nat)
  | reset
  | setf (f : Field) (v : Word) (b : Option Nat)
  | getf (f : Field) (b : Option Nat)
  | txstatus (code : Word) (t : Transport) (b : Option Nat)
  | rxroute (n : Word) (b : Option Nat)
deriving DecidableEq, Repr

/-- What the host does next: a transaction, and whether it stops there unless the value read is 0 (30_encoding.md R88). -/
structure HostStep where
  txn : Transaction
  stopUnlessZero : Bool
deriving DecidableEq, Repr

/-- The row of the opcode map for a mnemonic. -/
def rowOf (m : Mnemonic) : Option OpRow := opcodeTable.find? (fun r => r.mnemonic == m)

/-- The bank a `b=` gives a row: 0 where it is absent; refused where the row does not use B or the value is not 0 or 1. -/
def bankArg (r : OpRow) : Option Nat → Option Bank
  | none => some .b0
  | some 0 => if r.usesB then some .b0 else none
  | some 1 => if r.usesB then some .b1 else none
  | some _ => none

/-- The selector a `sel=` gives a row: 0 where it is absent; refused where the row does not use SEL, the name is none
of the row's names of R85, or the number has no four bits (log entry 6). -/
def selArg (r : OpRow) : SelArg → Option (BitVec 4)
  | .absent => some 0
  | .field f => if r.usesSel && r.mnemonic != .checkSize then some f.sel else none
  | .transport t => if r.mnemonic == .checkSize then some t.sel else none
  | .number n => if r.usesSel && n < 16 then some (BitVec.ofNat 4 n) else none

/-- The command word of a `cmd` line: the row's match value, the bank at bit 8, the selector at bit 12; none where the
assembler refuses the line (30_encoding.md R87). -/
def cmdWord (m : Mnemonic) (b : Option Nat) (sel : SelArg) : Option Word :=
  match rowOf m with
  | none => none
  | some r =>
    match bankArg r b, selArg r sel with
    | some bk, some sl => some (r.pattern ||| bankBit bk ||| selBits sl)
    | _, _ => none

/-- A transaction after which the host goes on. -/
def HostStep.plain (t : Transaction) : HostStep := ⟨t, false⟩

/-- A `cmd` line as a step. -/
def cmdStep (m : Mnemonic) (b : Option Nat) (sel : SelArg) : Option HostStep :=
  (cmdWord m b sel).map fun w => .plain (.writeReg 0 w)

/-- A `rd STATUS` at which the host stops unless it gives 0 (30_encoding.md R88). -/
def checkStatus : HostStep := ⟨.readReg 6, true⟩

/-- The steps a line assembles to; none where the assembler refuses it (30_encoding.md R87, R88). -/
def HostLine.assemble : HostLine → Option (List HostStep)
  | .wrArg0 v => some [.plain (.writeReg 1 v)]
  | .wrArg1 v => some [.plain (.writeReg 2 v)]
  | .wrCmd w => some [.plain (.writeReg 0 w)]
  | .rd r => some [.plain (.readReg r.num)]
  | .cmd m b sel => (cmdStep m b sel).map fun x => [x]
  | .ib a xs => some (xs.zipIdx.map fun e => .plain (.writeIBuf (a + e.2) e.1))
  | .ob a n => some ((List.range n).map fun k => .plain (.readOBuf (a + k)))
  | .reset => some [.plain .reset]
  | .setf f v b => (cmdStep .setField b (.field f)).map fun x => [.plain (.writeReg 1 v), x]
  | .getf f b => (cmdStep .getField b (.field f)).map fun x => [x, .plain (.readReg 3)]
  | .txstatus code t b =>
    match cmdStep .wrapStatus b .absent, cmdStep .serialize b .absent, cmdStep .checkSize none (.transport t) with
    | some x, some y, some z =>
      some [.plain (.writeReg 1 code), x, checkStatus, y, checkStatus, z, checkStatus]
    | _, _, _ => none
  | .rxroute n b =>
    match cmdStep .interpret b .absent, cmdStep .route b .absent with
    | some x, some y =>
      some [.plain (.writeReg 1 n), x, checkStatus, y, .plain (.readReg 6), .plain (.readReg 3), .plain (.readReg 4),
        .plain (.readReg 5)]
    | _, _ => none

/-- The host issues its steps one after another, each complete before the next (20_memory.md R56), and stops where a
step says so (30_encoding.md R88). -/
def runHost : List HostStep → State → Host.Outcome State Fault Refusal
  | [], s => .next s
  | h :: hs, s =>
    match serve h.txn (s.accept s.pending) with
    | .next t => if h.stopUnlessZero && t.response != .word 0 then .next t else runHost hs t
    | .fault r => .fault r
    | .refused r => .refused r

end Sys2Proof.Machine
end

