-- ==== Sys2Proof/Safety.lean ====
section
/-! DEFINITION. The terms the claims use: bytes seen through a read of one byte, the fields of a bank as numbers, an
outcome with its next state replaced, and the invariant of the block. -/

namespace Sys2Proof.Machine

/-- The buffer holds the bytes `x` from address `a` on, each read one byte at a time. -/
def HasBytes (m : Memory) (a : Nat) (x : List Byte) : Prop :=
  ∀ k : Nat, k < x.length → Memory.read m (a + k) = x[k]?

/-- Some byte of `[a, b)` has a clear written mark (10_state.md R38). -/
def HasUnwritten (m : Memory) (a b : Nat) : Prop := ∃ k, a ≤ k ∧ k < b ∧ Memory.read m k = none

/-- From `s` to `t` the bytes `x` were written to OBUF from position 0, OBUF_LEN is their number, and every other
position of OBUF reads as before (10_state.md R37). -/
structure WroteOBuf (s t : State) (x : List Byte) : Prop where
  len : t.obufLen.toNat = x.length
  bytes : HasBytes t.obuf 0 x
  rest : ∀ a, x.length ≤ a → Memory.read t.obuf a = Memory.read s.obuf a

/-- The field of a bank that a selector of 0 to 13 names, as a number (30_encoding.md R85). -/
def fieldNat (p : Packet) : Nat → Nat
  | 0 => p.pri.ver.toNat
  | 1 => p.pri.typ.toNat
  | 2 => p.pri.shf.toNat
  | 3 => p.pri.apid.toNat
  | 4 => p.pri.seqf.toNat
  | 5 => p.pri.seqc.toNat
  | 6 => p.pri.pdl.toNat
  | 7 => p.sec.cat.toNat
  | 8 => p.sec.aduUse.toNat
  | 9 => p.sec.aduCh.toNat
  | 10 => p.sec.aduSegf.toNat
  | 11 => p.sec.aduCnt.toNat
  | 12 => p.sec.time.toNat
  | _ => p.udf.length

/-- The width of the field that a selector names, the secondary header's by the layout's widths (30_encoding.md R85). -/
def fieldWidth (w : ShWidths) : Nat → Nat
  | 0 => 3
  | 1 => 1
  | 2 => 1
  | 3 => 11
  | 4 => 2
  | 5 => 14
  | 6 => 16
  | 7 => w.cat
  | 8 => w.aduUse
  | 9 => w.aduCh
  | 10 => w.aduSegf
  | 11 => w.aduCnt
  | 12 => w.time
  | _ => 17

/-- A secondary header of zeros (41_packet_model.md, `EMPTY`). -/
def zeroSecHdr : SecHdr := ⟨0, 0, 0, 0, 0, 0⟩

/-- The command ends with the error code, and its end state is the state before it except STATUS (60_exceptions.md
R152). -/
def Raises (i : Instr) (s : State) (code : BitVec 8) : Prop := exec i s = .next { s with statusErr := code }

/-- From `s` to `t` nothing changed but bank `b` and STATUS. -/
structure OnlyBank (b : Bank) (s t : State) : Prop where
  other : t.bank (otherBank b) = s.bank (otherBank b)
  frame : t = { s with pkt0 := t.pkt0, pkt1 := t.pkt1, statusErr := t.statusErr }

/-- From `s` to `t` nothing changed but OBUF, OBUF_LEN and STATUS. -/
def OnlyOBuf (s t : State) : Prop := t = { s with obuf := t.obuf, obufLen := t.obufLen, statusErr := t.statusErr }

/-- From `s` to `t` every byte of OBUF at OBUF_LEN or above reads as before (10_state.md R37). -/
def KeepsOBufTail (s t : State) : Prop :=
  ∀ a, t.obufLen.toNat ≤ a → Memory.read t.obuf a = Memory.read s.obuf a

/-- The class of the code at the start of the user data of bank `b` (42_framing.md R132). -/
def routeClassOf (b : Bank) (s : State) : RouteClass :=
  block.routeClass ((routeCode (s.bank b).udf).extractLsb' 12 4)

/-- Every piece of the block's state has the value 70_reset_and_hazards.md R175 gives it. -/
structure HasResetValues (t : State) : Prop where
  banks : ∀ b, t.bank b = ⟨⟨block.versionConst, 0, 0, 0, 0, 0, 0⟩, zeroSecHdr, []⟩
  args : t.arg0 = 0 ∧ t.arg1 = 0
  results : t.res0 = 0 ∧ t.res1 = 0 ∧ t.res2 = 0
  status : t.status = 0
  obufLen : t.obufLen = 0
  mainStateTc : t.mainStateTcReg = block.mstReset.setWidth 32
  seqCtr : ∀ apid, SeqTable.read t.seqCtr apid = 0
  buffers : ∀ a, Memory.read t.ibuf a = none ∧ Memory.read t.obuf a = none

/-- The outcome with `f` applied to its next state, if it has one. -/
def mapNext (f : State → State) : Host.Outcome State Fault Refusal → Host.Outcome State Fault Refusal
  | .next t => .next (f t)
  | .fault r => .fault r
  | .refused r => .refused r

/-- The indices of a sparse table are strictly rising and below `n`. -/
structure CanonicalBelow {α : Type} (n : Nat) (m : List (Nat × α)) : Prop where
  sorted : Sparse.sortedFrom 0 m = true
  below : ∀ e ∈ m, e.1 < n

/-- The invariant of the block: the buffers are canonical and lie inside `BUF_CAP` (10_state.md R36, R37), the counters
are canonical, one per APID, with no zero listed (R35), no user data exceeds `UDF_CAP` (R23), the secondary header fields
have their layout's widths (R22), and OBUF_LEN counts written bytes of OBUF (R31). -/
structure Inv (s : State) : Prop where
  ibuf : CanonicalBelow block.bufCap s.ibuf
  obuf : CanonicalBelow block.bufCap s.obuf
  seqCtr : CanonicalBelow 2048 s.seqCtr
  seqCtr_nonzero : ∀ e ∈ s.seqCtr, e.2 ≠ 0
  udf : ∀ b, (s.bank b).udf.length ≤ udfCap
  sec : ∀ b, (s.bank b).sec.inRange block.shLayout.widths = true
  obufLen : s.obufLen.toNat ≤ block.bufCap
  obufWritten : ∀ a, a < s.obufLen.toNat → Memory.read s.obuf a ≠ none

end Sys2Proof.Machine
end

