-- ==== Sys2Proof/Certificates/Slice0/Obligations.lean ====
section
/-! DEFINITION. The statements about the SPC, from the numbered rules of spec/. -/

open Sys2Proof Sys2Proof.Machine

/-! ## Command words -/

/-- Decoding the encoding of any instruction gives it back, with every operand (30_encoding.md R82, R83, R87). -/
def Obligations.DecodeOfEncode : Prop := ∀ i : Instr, decode (encode i) = .ok i

/-- A word that decodes is the encoding of what it decodes to: no two words mean one instruction, and the decoder
ignores no bit (30_encoding.md R82, R83). -/
def Obligations.DecodedWordIsItsEncoding : Prop := ∀ (w : Word) (i : Instr), decode w = .ok i → encode i = w

/-- Words written out from 30_encoding.md R82 and R83 and from section 3 of 95_test_vectors.md decode to the commands
they stand for, and the illegal words of that section to no command. -/
def Obligations.SpecCommandWordsDecode : Prop :=
  decode 0x00000001 = .ok (.new .b0) ∧ decode 0x00000103 = .ok (.phDecode .b1) ∧
  decode 0x00000006 = .ok (.serialize .b0) ∧ decode 0x0000C10A = .ok (.getField .b1 12) ∧
  decode 0x0000300B = .ok (.setField .b0 3) ∧ decode 0x0000000C = .ok (.clone .b0) ∧
  decode 0x00000111 = .ok (.wrapSensor .b1) ∧ decode 0x00001013 = .ok (.checkSize 1) ∧
  decode 0x00000000 = .error .unassignedOpcode ∧ decode 0x00000014 = .error .unassignedOpcode ∧
  decode 0x80000006 = .error .reservedNonzero ∧ decode 0x00000801 = .error .reservedNonzero ∧
  decode 0x00001001 = .error .unusedOperandNonzero ∧ decode 0x00000113 = .error .unusedOperandNonzero

/-- 30_encoding.md R84: a word is illegal exactly in the rule's three cases; writing an illegal word to CMD raises
`IllegalCommand` and changes nothing else; a legal word with an undefined selector raises `IllegalOperand`. -/
def Obligations.IllegalWordsRaiseIllegalCommand : Prop :=
  (∀ w : Word, (∃ e, decode w = .error e) ↔
    (opcOf w = 0 ∨ (0x0D ≤ (opcOf w).toNat ∧ (opcOf w).toNat ≤ 0x0F) ∨ 0x14 ≤ (opcOf w).toNat) ∨
    (rsv0Of w ≠ 0 ∨ rsv1Of w ≠ 0) ∨
    (selOf w ≠ 0 ∧ opcOf w ≠ 0x0A ∧ opcOf w ≠ 0x0B ∧ opcOf w ≠ 0x13) ∨ (bankOf w = .b1 ∧ opcOf w = 0x13)) ∧
  (∀ (w : Word) (e : Illegal) (s : State), decode w = .error e →
    serve (.writeReg 0 w) s = .next { s with statusErr := 10 }) ∧
  (∀ (b : Bank) (sel : BitVec 4) (s : State), 14 ≤ sel.toNat →
    Raises (.getField b sel) s 11 ∧ Raises (.setField b sel) s 11) ∧
  (∀ (sel : BitVec 4) (s : State), 3 ≤ sel.toNat → Raises (.checkSize sel) s 11)

/-- Whatever command is placed as the host's next transaction, the next step runs exactly it, and leaves the rest of
the host's stream. The stream is the model's own form of the host (log entry 1). -/
def Obligations.PlacedCommandRuns : Prop :=
  ∀ (i : Instr) (s : State), step (s.withFetchWord 32 (encode i).toNat) = exec i { s with response := .nothing }

/-! ## The host port -/

/-- A step takes the next transaction of the host's stream and serves it completely; with none pending the block holds
its state unchanged (20_memory.md R56, R62; 60_exceptions.md R166). -/
def Obligations.StepServesTheNextTransaction : Prop :=
  (∀ (s : State) (t : Transaction) (rest : List Transaction), s.pending = t :: rest →
    step s = serve t { s with pending := rest, response := .nothing }) ∧
  (∀ s : State, s.pending = [] → step s = .next s)

/-- When the next transaction writes to CMD a word that decodes to `i`, the step is `exec i` at the state with that
transaction taken from the stream (20_memory.md R58). -/
def Obligations.StepRunsTheDecodedCommand : Prop :=
  ∀ (s : State) (w : Word) (i : Instr) (rest : List Transaction), s.pending = .writeReg 0 w :: rest →
    decode w = .ok i → step s = exec i { s with pending := rest, response := .nothing }

/-- 20_memory.md R57: the port refuses exactly the transactions outside its map. A refusal has no next state, so it
changes nothing. -/
def Obligations.PortRefusesExactlyOffTheMap : Prop :=
  ∀ (t : Transaction) (s : State), (∃ r, serve t s = .refused r) ↔
    match t with
    | .writeReg r _ => 3 ≤ r
    | .readReg r => r = 0 ∨ 8 < r
    | .writeIBuf a x => block.bufCap ≤ a ∨ 256 ≤ x
    | .readIBuf a => block.bufCap ≤ a
    | .readOBuf a => block.bufCap ≤ a
    | .reset => False

/-- The register file (10_state.md R26, R28, R30, R34): ARG0 and ARG1 take and give all 32 bits, each readable register
reads as its value, and the reserved bits of STATUS and MAIN_STATE_TC read 0. -/
def Obligations.RegisterTransactions : Prop :=
  ∀ (s : State) (v : Word),
    serve (.writeReg 1 v) s = .next { s with arg0 := v } ∧ serve (.writeReg 2 v) s = .next { s with arg1 := v } ∧
    serve (.readReg 1) s = .next { s with response := .word s.arg0 } ∧
    serve (.readReg 2) s = .next { s with response := .word s.arg1 } ∧
    serve (.readReg 3) s = .next { s with response := .word s.res0 } ∧
    serve (.readReg 4) s = .next { s with response := .word s.res1 } ∧
    serve (.readReg 5) s = .next { s with response := .word s.res2 } ∧
    serve (.readReg 7) s = .next { s with response := .word s.obufLen } ∧
    (∃ x : Word, serve (.readReg 6) s = .next { s with response := .word x } ∧
      x.extractLsb' 0 8 = s.statusErr ∧ x.extractLsb' 8 24 = 0) ∧
    (∃ x : Word, serve (.readReg 8) s = .next { s with response := .word x } ∧
      x.extractLsb' 0 16 = s.mainStateTc ∧ x.extractLsb' 16 16 = 0)

/-- The buffers as the host reaches them (10_state.md R36 to R38, 20_memory.md R50, R55): a write of an IBUF byte sets
that byte and its mark and nothing else; a read returns the byte, and faults where the mark is clear. -/
def Obligations.BufferTransactions : Prop :=
  (∀ (s : State) (a x : Nat), a < block.bufCap → x < 256 → ∃ t, serve (.writeIBuf a x) s = .next t ∧
    Memory.read t.ibuf a = some (BitVec.ofNat 8 x) ∧ (∀ a', a' ≠ a → Memory.read t.ibuf a' = Memory.read s.ibuf a') ∧
    t = { s with ibuf := t.ibuf }) ∧
  (∀ (s : State) (a : Nat) (x : Byte), a < block.bufCap → Memory.read s.ibuf a = some x →
    serve (.readIBuf a) s = .next { s with response := .byte x }) ∧
  (∀ (s : State) (a : Nat), a < block.bufCap → Memory.read s.ibuf a = none →
    serve (.readIBuf a) s = .fault .uninitRead) ∧
  (∀ (s : State) (a : Nat) (x : Byte), a < block.bufCap → Memory.read s.obuf a = some x →
    serve (.readOBuf a) s = .next { s with response := .byte x }) ∧
  (∀ (s : State) (a : Nat), a < block.bufCap → Memory.read s.obuf a = none →
    serve (.readOBuf a) s = .fault .uninitRead)

/-- A host read changes nothing in the block, and the same read again returns the same (20_memory.md R59; in
particular reading MAIN_STATE_TC neither clears nor acknowledges it, 70_reset_and_hazards.md R188). -/
def Obligations.HostReadsHaveNoSideEffect : Prop :=
  ∀ (t : Transaction) (s u : State), ((∃ r, t = .readReg r) ∨ (∃ a, t = .readIBuf a) ∨ (∃ a, t = .readOBuf a)) →
    serve t s = .next u → u = { s with response := u.response } ∧ serve t u = .next u

/-- 70_reset_and_hazards.md R175: the Reset transaction gives every piece of state its reset value whatever it was, and
so does the state the model starts in. -/
def Obligations.ResetGivesEveryResetValue : Prop :=
  (∀ s : State, ∃ t, serve .reset s = .next t ∧ HasResetValues t) ∧ HasResetValues State.reset

/-! ## The whole machine -/

/-- The reset state meets the invariant. -/
def Obligations.InvariantAtReset : Prop := Inv State.reset

/-- Every step keeps the invariant: canonical buffers inside BUF_CAP, canonical counters, user data within UDF_CAP,
secondary header fields within their widths, and OBUF_LEN counting written bytes of OBUF (10_state.md R22, R23, R31, R35
to R37). -/
def Obligations.EveryStepKeepsTheInvariant : Prop := ∀ s t : State, Inv s → step s = .next t → Inv t

/-- The host can always read `OBUF[0..OBUF_LEN)`: no such read is the fault `UninitRead` (10_state.md R31, R38). -/
def Obligations.OutputBytesAreReadable : Prop :=
  ∀ (s : State) (a : Nat), Inv s → a < s.obufLen.toNat →
    ∃ x, Memory.read s.obuf a = some x ∧ serve (.readOBuf a) s = .next { s with response := .byte x }

/-- 60_exceptions.md R152: after a command that raises, the state equals the state before it except STATUS, which has
the error's code, one of 1 to 12. -/
def Obligations.ErrorsArePrecise : Prop :=
  ∀ (i : Instr) (s t : State), exec i s = .next t → t.statusErr ≠ 0 →
    t = { s with statusErr := t.statusErr } ∧ t.statusErr.toNat ≤ 12

/-- No command is refused and none halts the block: only the four commands that read IBUF can stop the model, only on
`UninitRead`, and no command stops when every byte of IBUF was written (60_exceptions.md R154, R159). -/
def Obligations.CommandsNeverHaltTheBlock : Prop :=
  ∀ (i : Instr) (s : State), (∀ r, exec i s ≠ .refused r) ∧
    (∀ f, exec i s = .fault f → f = .uninitRead ∧ HasUnwritten s.ibuf 0 block.bufCap ∧
      ∃ b, i = .phDecode b ∨ i = .shDecode b ∨ i = .interpret b ∨ i = .setUserData b) ∧
    ((∀ a, a < block.bufCap → Memory.read s.ibuf a ≠ none) → ∃ t, exec i s = .next t)

/-- The writes of the access matrix (10_state.md R40): no command writes state outside its row. Of the bank, PH_DECODE
writes the primary header only, SH_DECODE the secondary header only, SERIALIZE PDL only, SET_USER_DATA the user data and
PDL only, SET_FIELD one field only. ROUTE writes MAIN_STATE_TC on Local only, and OBUF and OBUF_LEN on Forward and
Broadcast only. No OBUF writer touches OBUF at the new OBUF_LEN or above; for the two that write user data this needs
user data within UDF_CAP. No command writes ARG0, ARG1 or IBUF, and only the WRAP commands write SEQ_CTR. -/
def Obligations.OnlyTheAccessMatrixIsWritten : Prop :=
  ∀ (i : Instr) (s t : State), exec i s = .next t →
    match i with
    | .new b | .interpret b => OnlyBank b s t
    | .clone b => OnlyBank (otherBank b) s t
    | .phDecode b => OnlyBank b s t ∧ (t.bank b).sec = (s.bank b).sec ∧ (t.bank b).udf = (s.bank b).udf
    | .shDecode b => OnlyBank b s t ∧ (t.bank b).pri = (s.bank b).pri ∧ (t.bank b).udf = (s.bank b).udf
    | .setUserData b =>
      OnlyBank b s t ∧ (t.bank b).sec = (s.bank b).sec ∧
      (t.bank b).pri = { (s.bank b).pri with pdl := (t.bank b).pri.pdl }
    | .setField b sel =>
      OnlyBank b s t ∧ (t.bank b).udf = (s.bank b).udf ∧
      ∀ k, k < 13 → k ≠ sel.toNat → fieldNat (t.bank b) k = fieldNat (s.bank b) k
    | .phEncode _ | .shEncode _ => OnlyOBuf s t ∧ KeepsOBufTail s t
    | .getUserData b => OnlyOBuf s t ∧ ((s.bank b).udf.length ≤ udfCap → KeepsOBufTail s t)
    | .serialize b =>
      t.bank (otherBank b) = s.bank (otherBank b) ∧
      t.bank b = { s.bank b with pri := { (s.bank b).pri with pdl := (t.bank b).pri.pdl } } ∧
      t = { s with pkt0 := t.pkt0, pkt1 := t.pkt1, obuf := t.obuf, obufLen := t.obufLen, statusErr := t.statusErr } ∧
      KeepsOBufTail s t
    | .getField _ _ => t = { s with res0 := t.res0, statusErr := t.statusErr }
    | .wrapStatus b | .wrapSensor b =>
      t.bank (otherBank b) = s.bank (otherBank b) ∧
      t = { s with pkt0 := t.pkt0, pkt1 := t.pkt1, seqCtr := t.seqCtr, statusErr := t.statusErr }
    | .route b =>
      t = { s with
        obuf := t.obuf, obufLen := t.obufLen, res0 := t.res0, res1 := t.res1, res2 := t.res2,
        mainStateTc := t.mainStateTc, statusErr := t.statusErr } ∧
      (match routeClassOf b s with
        | .loc => t.obuf = s.obuf ∧ t.obufLen = s.obufLen
        | .forward _ | .broadcast => t.mainStateTc = s.mainStateTc
        | .invalid => t = { s with statusErr := t.statusErr }) ∧
      ((s.bank b).udf.length ≤ udfCap → KeepsOBufTail s t)
    | .checkSize _ => t = { s with statusErr := t.statusErr }

/-- Which commands write the packet data length of a bank (10_state.md R24): a command that changes PDL of bank `b` is one
of the seven that set it, or the CLONE that copies the other bank over `b`. In particular SET_FIELD never does, whatever
field it writes. -/
def Obligations.OnlyTheseCommandsChangePdl : Prop :=
  ∀ (i : Instr) (b : Bank) (s t : State), exec i s = .next t → (t.bank b).pri.pdl ≠ (s.bank b).pri.pdl →
    i = .serialize b ∨ i = .setUserData b ∨ i = .phDecode b ∨ i = .interpret b ∨ i = .new b ∨ i = .wrapStatus b ∨
    i = .wrapSensor b ∨ i = .clone (otherBank b)

/-- Where the length invariant `PDL + 1 = dataLen` holds (10_state.md R25, 00_scope.md R18): after each command that sets
PDL from the data field it makes or reads, if it ends `ok`. -/
def Obligations.PdlAgreesWithTheData : Prop :=
  ∀ (i : Instr) (b : Bank) (s t : State), exec i s = .next t → t.statusErr = 0 →
    i = .serialize b ∨ i = .setUserData b ∨ i = .interpret b ∨ i = .wrapStatus b ∨ i = .wrapSensor b →
    (t.bank b).pri.pdl.toNat + 1 = (if (t.bank b).pri.shf = 1 then 8 else 0) + (t.bank b).udf.length

/-- 20_memory.md R59: a command word written twice in a row leaves the end state of one write, but for WRAP_STATUS and
WRAP_SENSOR, whose second execution builds the packet with the next sequence count. -/
def Obligations.RepeatedCommandsAreIdempotent : Prop :=
  (∀ (i : Instr) (s t : State), s.obuf.wf = true → (∀ b, i ≠ .wrapStatus b ∧ i ≠ .wrapSensor b) →
    exec i s = .next t → exec i t = .next t) ∧
  (∀ (i : Instr) (b : Bank) (s t : State), i = .wrapStatus b ∨ i = .wrapSensor b → exec i s = .next t →
    t.statusErr = 0 → ∃ u, exec i t = .next u ∧ u.statusErr = 0 ∧
      u.bank b = { t.bank b with pri := { (t.bank b).pri with seqc := (t.bank b).pri.seqc + 1 } })

/-- A command's effect depends on nothing but the block's registers, banks, counters and buffers: not on the STATUS an
earlier command left (60_exceptions.md R153), and not on the model's own fields (log entries 1 and 2). -/
def Obligations.CommandsIgnoreStatusAndStream : Prop :=
  ∀ (i : Instr) (s : State) (e : BitVec 8) (p : List Transaction) (r : Response),
    exec i { s with statusErr := e, pending := p, response := r } =
      mapNext (fun t => { t with pending := p, response := r }) (exec i s)

/-! ## The wire format -/

/-- 30_encoding.md R70: the primary header is six bytes, with every field at its place. -/
def Obligations.PrimaryHeaderLayout : Prop :=
  ∀ p : PriHdr, ∃ x0 x1 x2 x3 x4 x5 : Byte, encPH p = [x0, x1, x2, x3, x4, x5] ∧
    x0.extractLsb' 5 3 = p.ver ∧ x0.extractLsb' 4 1 = p.typ ∧ x0.extractLsb' 3 1 = p.shf ∧
    x0.extractLsb' 0 3 = p.apid.extractLsb' 8 3 ∧ x1 = p.apid.extractLsb' 0 8 ∧
    x2.extractLsb' 6 2 = p.seqf ∧ x2.extractLsb' 0 6 = p.seqc.extractLsb' 8 6 ∧ x3 = p.seqc.extractLsb' 0 8 ∧
    x4 = p.pdl.extractLsb' 8 8 ∧ x5 = p.pdl.extractLsb' 0 8

/-- 30_encoding.md R72: the field that decoding reads at each place, and both round trips: decoding inverts encoding on
every header, and encoding inverts decoding on every six bytes. -/
def Obligations.PrimaryHeaderRoundTrips : Prop :=
  (∀ x0 x1 x2 x3 x4 x5 : Byte, ∃ p, decPH [x0, x1, x2, x3, x4, x5] = p ∧
    p.ver = x0.extractLsb' 5 3 ∧ p.typ = x0.extractLsb' 4 1 ∧ p.shf = x0.extractLsb' 3 1 ∧
    p.apid.extractLsb' 8 3 = x0.extractLsb' 0 3 ∧ p.apid.extractLsb' 0 8 = x1 ∧
    p.seqf = x2.extractLsb' 6 2 ∧ p.seqc.extractLsb' 8 6 = x2.extractLsb' 0 6 ∧ p.seqc.extractLsb' 0 8 = x3 ∧
    p.pdl.extractLsb' 8 8 = x4 ∧ p.pdl.extractLsb' 0 8 = x5) ∧
  (∀ p : PriHdr, decPH (encPH p) = p) ∧ (∀ x : List Byte, x.length = 6 → encPH (decPH x) = x)

/-- 30_encoding.md R76: the default secondary header is eight bytes, with every field, at its width, at its place. -/
def Obligations.SecondaryHeaderLayout : Prop :=
  block.secLen = 8 ∧ block.shLayout.widths = ⟨8, 1, 7, 2, 14, 32⟩ ∧
  ∀ h : SecHdr, h.inRange block.shLayout.widths = true → ∃ x0 x1 x2 x3 x4 x5 x6 x7 : Byte,
    block.shLayout.enc h = [x0, x1, x2, x3, x4, x5, x6, x7] ∧
    x0.toNat = h.cat.toNat ∧ (x1.extractLsb' 7 1).toNat = h.aduUse.toNat ∧
    (x1.extractLsb' 0 7).toNat = h.aduCh.toNat ∧ (x2.extractLsb' 6 2).toNat = h.aduSegf.toNat ∧
    (x2.extractLsb' 0 6).toNat = h.aduCnt.toNat / 2 ^ 8 ∧ x3.toNat = h.aduCnt.toNat % 2 ^ 8 ∧
    x4 = h.time.extractLsb' 24 8 ∧ x5 = h.time.extractLsb' 16 8 ∧ x6 = h.time.extractLsb' 8 8 ∧
    x7 = h.time.extractLsb' 0 8

/-- 30_encoding.md R77: the default layout meets the requirements on every layout, and its encoding inverts decoding on
every eight bytes. Two of the requirements, no field above 32 bits and decoded fields in range, are deduced (log entry
4). -/
def Obligations.SecondaryHeaderRoundTrips : Prop :=
  block.shLayout.Lawful ∧ (∀ x : List Byte, x.length = 8 → encSH (decSH x) = x)

/-- 30_encoding.md R79: `minBE` takes one byte below 2^8, two below 2^16 and four otherwise, never three, big-endian. -/
def Obligations.SensorValueWidths : Prop :=
  ∀ v : Word,
    (v.toNat < 2 ^ 8 → minBE v = [BitVec.ofNat 8 v.toNat]) ∧
    (2 ^ 8 ≤ v.toNat → v.toNat < 2 ^ 16 → minBE v = [BitVec.ofNat 8 (v.toNat / 2 ^ 8), BitVec.ofNat 8 v.toNat]) ∧
    (2 ^ 16 ≤ v.toNat → minBE v = [BitVec.ofNat 8 (v.toNat / 2 ^ 24), BitVec.ofNat 8 (v.toNat / 2 ^ 16),
      BitVec.ofNat 8 (v.toNat / 2 ^ 8), BitVec.ofNat 8 v.toNat])

/-- The block's parameters have the values of 00_scope.md R9 and meet the constraints of R10, whatever the three OPEN
ones are. -/
def Obligations.BlockConfiguration : Prop :=
  block.wf = true ∧ block.bufCap = 65542 ∧ udfCap = 65536 ∧ block.versionConst = 0 ∧
  block.shLayout = defaultLayout ∧ block.secLen = 8 ∧ block.seqFlagUnseg = 3 ∧ block.seqMode = .perApid ∧
  block.seqConst = 0 ∧ block.overflowPolicy = .fault ∧ block.broadcastAppliesLocal = false ∧ block.canMax = 8 ∧
  block.canFdMax = 64 ∧ block.udpMax = 1024 ∧ block.mstReset = 0 ∧ (∀ b : Bank, b = .b0 ∨ b = .b1) ∧
  block.statusApid.toNat ≤ 0x7FE ∧ block.sensorApid.toNat ≤ 0x7FE

/-! ## Checks and counters, in every configuration -/

/-- 41_packet_model.md R118: a value that fits passes; one that does not raises `FieldOverflow` or is truncated, as
`OVERFLOW_POLICY` says. -/
def Obligations.FitChecksTheWidth : Prop :=
  ∀ (c : Config) (v : Word) (w : Nat),
    (v.toNat < 2 ^ w → fit c v w = .ok v) ∧
    (2 ^ w ≤ v.toNat → c.overflowPolicy = .fault → fit c v w = .raise .fieldOverflow) ∧
    (2 ^ w ≤ v.toNat → c.overflowPolicy = .truncate → ∃ x, fit c v w = .ok x ∧ x.toNat = v.toNat % 2 ^ w)

/-- 42_framing.md R134: the sequence count of the next packet, in both modes; a WRAP command that raises leaves the
counters unchanged. -/
def Obligations.NextSequenceCount : Prop :=
  (∀ (c : Config) (a : BitVec 11) (t : SeqTable), c.seqMode = .constant → nextSeq c a t = (c.seqConst, t)) ∧
  (∀ (c : Config) (a : BitVec 11) (t : SeqTable), c.seqMode = .perApid →
    (nextSeq c a t).1 = SeqTable.read t a ∧
    (SeqTable.read (nextSeq c a t).2 a).toNat = ((SeqTable.read t a).toNat + 1) % 2 ^ 14 ∧
    ∀ a', a' ≠ a → SeqTable.read (nextSeq c a t).2 a' = SeqTable.read t a') ∧
  (∀ (b : Bank) (s t : State), exec (.wrapStatus b) s = .next t ∨ exec (.wrapSensor b) s = .next t →
    t.statusErr ≠ 0 → t.seqCtr = s.seqCtr)

/-! ## Header codec commands -/

/-- 40_header_codec.md R100: PH_ENCODE, from every state. -/
def Obligations.PhEncodeWritesTheHeader : Prop :=
  ∀ (b : Bank) (s : State), decode (0x02 ||| bankBit b) = .ok (.phEncode b) ∧
    ∃ t, exec (.phEncode b) s = .next t ∧ t.statusErr = 0 ∧ t.obufLen = 6 ∧
    WroteOBuf s t (encPH (s.bank b).pri) ∧ OnlyOBuf s t

/-- 40_header_codec.md R101: PH_DECODE, on every operand and every buffer. -/
def Obligations.PhDecodeLoadsTheHeader : Prop :=
  ∀ (b : Bank) (s : State),
    decode (0x03 ||| bankBit b) = .ok (.phDecode b) ∧
    (block.bufCap < s.arg0.toNat → Raises (.phDecode b) s 11) ∧
    (s.arg0.toNat < 6 → Raises (.phDecode b) s 1) ∧
    (6 ≤ s.arg0.toNat → s.arg0.toNat ≤ block.bufCap → HasUnwritten s.ibuf 0 6 →
      exec (.phDecode b) s = .fault .uninitRead) ∧
    (∀ x : List Byte, 6 ≤ s.arg0.toNat → s.arg0.toNat ≤ block.bufCap → x.length = 6 → HasBytes s.ibuf 0 x →
      ∃ t, exec (.phDecode b) s = .next t ∧ t.statusErr = 0 ∧
        t.bank b = { s.bank b with pri := decPH x } ∧ OnlyBank b s t)

/-- 40_header_codec.md R102: SH_ENCODE, from every state, whatever SHF holds. -/
def Obligations.ShEncodeWritesTheHeader : Prop :=
  ∀ (b : Bank) (s : State), decode (0x04 ||| bankBit b) = .ok (.shEncode b) ∧
    ∃ t, exec (.shEncode b) s = .next t ∧ t.statusErr = 0 ∧ t.obufLen = 8 ∧
    WroteOBuf s t (encSH (s.bank b).sec) ∧ OnlyOBuf s t

/-- 40_header_codec.md R103: SH_DECODE, on every pair of operands and every buffer. -/
def Obligations.ShDecodeLoadsTheHeader : Prop :=
  ∀ (b : Bank) (s : State),
    decode (0x05 ||| bankBit b) = .ok (.shDecode b) ∧
    (block.bufCap < s.arg0.toNat + s.arg1.toNat → Raises (.shDecode b) s 11) ∧
    (s.arg0.toNat + s.arg1.toNat ≤ block.bufCap → s.arg1.toNat < 8 → Raises (.shDecode b) s 3) ∧
    (s.arg0.toNat + s.arg1.toNat ≤ block.bufCap → 8 ≤ s.arg1.toNat →
      HasUnwritten s.ibuf s.arg0.toNat (s.arg0.toNat + 8) → exec (.shDecode b) s = .fault .uninitRead) ∧
    (∀ x : List Byte, s.arg0.toNat + s.arg1.toNat ≤ block.bufCap → 8 ≤ s.arg1.toNat → x.length = 8 →
      HasBytes s.ibuf s.arg0.toNat x →
      ∃ t, exec (.shDecode b) s = .next t ∧ t.statusErr = 0 ∧
        t.bank b = { s.bank b with sec := decSH x } ∧ OnlyBank b s t)

/-! ## Packet model commands -/

/-- 41_packet_model.md R110: NEW, from every state. -/
def Obligations.NewEmptiesTheBank : Prop :=
  ∀ (b : Bank) (s : State), decode (0x01 ||| bankBit b) = .ok (.new b) ∧
    ∃ t, exec (.new b) s = .next t ∧ t.statusErr = 0 ∧
    t.bank b = ⟨⟨block.versionConst, 0, 0, 0, 0, 0, 0⟩, zeroSecHdr, []⟩ ∧ OnlyBank b s t

/-- 41_packet_model.md R111: SERIALIZE, from every state: the two length errors, and otherwise PDL recomputed from the
data field length `n`, 6 + n bytes written, and the same bytes again when repeated. -/
def Obligations.SerializeWritesThePacket : Prop :=
  ∀ (b : Bank) (s : State) (n : Nat),
    n = (if (s.bank b).pri.shf = 1 then 8 else 0) + (s.bank b).udf.length →
    decode (0x06 ||| bankBit b) = .ok (.serialize b) ∧
    (n = 0 → Raises (.serialize b) s 7) ∧
    (65536 < n → Raises (.serialize b) s 8) ∧
    (1 ≤ n → n ≤ 65536 → ∃ (t : State) (p : Packet), exec (.serialize b) s = .next t ∧ t.statusErr = 0 ∧
      p = { s.bank b with pri := { (s.bank b).pri with pdl := BitVec.ofNat 16 (n - 1) } } ∧
      t.bank b = p ∧ p.pri.pdl.toNat + 1 = n ∧ t.bank (otherBank b) = s.bank (otherBank b) ∧
      t.obufLen.toNat = 6 + n ∧
      WroteOBuf s t (encPH p.pri ++ (if p.pri.shf = 1 then encSH p.sec else []) ++ p.udf) ∧
      t = { s with pkt0 := t.pkt0, pkt1 := t.pkt1, obuf := t.obuf, obufLen := t.obufLen, statusErr := 0 } ∧
      ∃ u, exec (.serialize b) t = .next u ∧ u.obufLen = t.obufLen ∧
        ∀ a, Memory.read u.obuf a = Memory.read t.obuf a)

/-- 41_packet_model.md R112: INTERPRET, on every length and every buffer. -/
def Obligations.InterpretLoadsThePacket : Prop :=
  ∀ (b : Bank) (s : State),
    decode (0x07 ||| bankBit b) = .ok (.interpret b) ∧
    (block.bufCap < s.arg0.toNat → Raises (.interpret b) s 11) ∧
    (s.arg0.toNat < 6 → Raises (.interpret b) s 1) ∧
    (6 ≤ s.arg0.toNat → s.arg0.toNat ≤ block.bufCap → HasUnwritten s.ibuf 0 6 →
      exec (.interpret b) s = .fault .uninitRead) ∧
    (∀ (x : List Byte) (h : PriHdr), 6 ≤ s.arg0.toNat → s.arg0.toNat ≤ block.bufCap → x.length = 6 →
      HasBytes s.ibuf 0 x → h = decPH x →
      (s.arg0.toNat < h.pdl.toNat + 1 + 6 → Raises (.interpret b) s 2) ∧
      (h.pdl.toNat + 1 + 6 ≤ s.arg0.toNat → h.shf = 1 → h.pdl.toNat + 1 < 8 → Raises (.interpret b) s 2) ∧
      (h.pdl.toNat + 1 + 6 ≤ s.arg0.toNat → (h.shf = 1 → 8 ≤ h.pdl.toNat + 1) →
        HasUnwritten s.ibuf 6 (h.pdl.toNat + 1 + 6) → exec (.interpret b) s = .fault .uninitRead) ∧
      (∀ u : List Byte, h.pdl.toNat + 1 + 6 ≤ s.arg0.toNat → h.shf = 0 → u.length = h.pdl.toNat + 1 →
        HasBytes s.ibuf 6 u →
        ∃ t, exec (.interpret b) s = .next t ∧ t.statusErr = 0 ∧
          t.bank b = ⟨h, zeroSecHdr, u⟩ ∧ OnlyBank b s t) ∧
      (∀ y u : List Byte, h.pdl.toNat + 1 + 6 ≤ s.arg0.toNat → h.shf = 1 → y.length = 8 →
        u.length + 8 = h.pdl.toNat + 1 → HasBytes s.ibuf 6 y → HasBytes s.ibuf 14 u →
        ∃ t, exec (.interpret b) s = .next t ∧ t.statusErr = 0 ∧
          t.bank b = ⟨h, decSH y, u⟩ ∧ OnlyBank b s t))

/-- 41_packet_model.md R113: SET_USER_DATA, on every length and every buffer; `d` is the data field length it makes. -/
def Obligations.SetUserDataLoadsTheBytes : Prop :=
  ∀ (b : Bank) (s : State) (d : Nat), d = (if (s.bank b).pri.shf = 1 then 8 else 0) + s.arg0.toNat →
    decode (0x08 ||| bankBit b) = .ok (.setUserData b) ∧
    (block.bufCap < s.arg0.toNat → Raises (.setUserData b) s 11) ∧
    (d = 0 → Raises (.setUserData b) s 7) ∧
    (s.arg0.toNat ≤ block.bufCap → 65536 < d → Raises (.setUserData b) s 8) ∧
    (1 ≤ d → d ≤ 65536 → HasUnwritten s.ibuf 0 s.arg0.toNat → exec (.setUserData b) s = .fault .uninitRead) ∧
    (∀ u : List Byte, 1 ≤ d → d ≤ 65536 → u.length = s.arg0.toNat → HasBytes s.ibuf 0 u →
      ∃ t, exec (.setUserData b) s = .next t ∧ t.statusErr = 0 ∧
        t.bank b = ⟨{ (s.bank b).pri with pdl := BitVec.ofNat 16 (d - 1) }, (s.bank b).sec, u⟩ ∧
        (t.bank b).pri.pdl.toNat + 1 = d ∧ OnlyBank b s t)

/-- 41_packet_model.md R114: GET_USER_DATA, from every state whose user data is within UDF_CAP. -/
def Obligations.GetUserDataWritesTheBytes : Prop :=
  ∀ (b : Bank) (s : State), decode (0x09 ||| bankBit b) = .ok (.getUserData b) ∧
    ((s.bank b).udf.length ≤ udfCap →
      ∃ t, exec (.getUserData b) s = .next t ∧ t.statusErr = 0 ∧ t.obufLen.toNat = (s.bank b).udf.length ∧
        WroteOBuf s t (s.bank b).udf ∧ OnlyOBuf s t)

/-- 41_packet_model.md R115: GET_FIELD, for every selector, from every state whose user data is within UDF_CAP. -/
def Obligations.GetFieldReadsTheField : Prop :=
  ∀ (b : Bank) (sel : BitVec 4) (s : State),
    decode (0x0A ||| bankBit b ||| selBits sel) = .ok (.getField b sel) ∧
    (14 ≤ sel.toNat → Raises (.getField b sel) s 11) ∧
    (sel.toNat < 14 → (s.bank b).udf.length ≤ udfCap → ∃ t, exec (.getField b sel) s = .next t ∧
      t.res0.toNat = fieldNat (s.bank b) sel.toNat ∧ t = { s with res0 := t.res0, statusErr := 0 })

/-- 41_packet_model.md R116: SET_FIELD, for every selector and every value, under the block's `OVERFLOW_POLICY = Fault`:
the three errors in order, and otherwise the field has the value and every other field of the bank its own. -/
def Obligations.SetFieldWritesTheField : Prop :=
  ∀ (b : Bank) (sel : BitVec 4) (s : State),
    decode (0x0B ||| bankBit b ||| selBits sel) = .ok (.setField b sel) ∧
    (14 ≤ sel.toNat → Raises (.setField b sel) s 11) ∧
    (sel = 0 ∨ sel = 6 ∨ sel = 13 → Raises (.setField b sel) s 12) ∧
    (sel.toNat < 14 → sel ≠ 0 → sel ≠ 6 → sel ≠ 13 → 2 ^ fieldWidth block.shLayout.widths sel.toNat ≤ s.arg0.toNat →
      Raises (.setField b sel) s 6) ∧
    (sel.toNat < 14 → sel ≠ 0 → sel ≠ 6 → sel ≠ 13 → s.arg0.toNat < 2 ^ fieldWidth block.shLayout.widths sel.toNat →
      ∃ t, exec (.setField b sel) s = .next t ∧ t.statusErr = 0 ∧
        fieldNat (t.bank b) sel.toNat = s.arg0.toNat ∧
        (∀ k, k < 13 → k ≠ sel.toNat → fieldNat (t.bank b) k = fieldNat (s.bank b) k) ∧
        (t.bank b).udf = (s.bank b).udf ∧ OnlyBank b s t)

/-- 41_packet_model.md R116 for every configuration, with `OVERFLOW_POLICY` both ways and CAT to TIME at the widths that
the configuration's own `SH_LAYOUT` gives them (30_encoding.md R75, R85), whatever they are; the command of this block is
the one at its own configuration. -/
def Obligations.SetFieldInEveryConfiguration : Prop :=
  (∀ (b : Bank) (sel : BitVec 4) (s : State), decode (0x0B ||| bankBit b ||| selBits sel) = .ok (.setField b sel) ∧
    exec (.setField b sel) s = finish s (setFieldCmd block b sel s)) ∧
  (∀ (c : Config) (b : Bank) (sel : BitVec 4) (s : State),
    (14 ≤ sel.toNat → finish s (setFieldCmd c b sel s) = .next { s with statusErr := 11 }) ∧
    (sel = 0 ∨ sel = 6 ∨ sel = 13 → finish s (setFieldCmd c b sel s) = .next { s with statusErr := 12 }) ∧
    (sel.toNat < 14 → sel ≠ 0 → sel ≠ 6 → sel ≠ 13 → 2 ^ fieldWidth c.shLayout.widths sel.toNat ≤ s.arg0.toNat →
      c.overflowPolicy = .fault → finish s (setFieldCmd c b sel s) = .next { s with statusErr := 6 }) ∧
    (sel.toNat < 14 → sel ≠ 0 → sel ≠ 6 → sel ≠ 13 →
      s.arg0.toNat < 2 ^ fieldWidth c.shLayout.widths sel.toNat ∨ c.overflowPolicy = .truncate →
      ∃ t, finish s (setFieldCmd c b sel s) = .next t ∧ t.statusErr = 0 ∧
        fieldNat (t.bank b) sel.toNat = s.arg0.toNat % 2 ^ fieldWidth c.shLayout.widths sel.toNat ∧
        (∀ k, k < 13 → k ≠ sel.toNat → fieldNat (t.bank b) k = fieldNat (s.bank b) k) ∧
        (t.bank b).udf = (s.bank b).udf ∧ OnlyBank b s t))

/-- 41_packet_model.md R117: CLONE, from every state. -/
def Obligations.CloneCopiesTheBank : Prop :=
  ∀ (b : Bank) (s : State), decode (0x0C ||| bankBit b) = .ok (.clone b) ∧
    ∃ t, exec (.clone b) s = .next t ∧ t.statusErr = 0 ∧
    t.bank (otherBank b) = s.bank b ∧ t.bank b = s.bank b ∧
    t = { s with pkt0 := t.pkt0, pkt1 := t.pkt1, statusErr := 0 }

/-! ## Framing and routing commands -/

/-- 42_framing.md R130: WRAP_STATUS, on every operand, under the block's `OVERFLOW_POLICY = Fault` and
`SEQ_MODE = PerApid`. -/
def Obligations.WrapStatusBuildsThePacket : Prop :=
  ∀ (b : Bank) (s : State),
    decode (0x10 ||| bankBit b) = .ok (.wrapStatus b) ∧
    (2 ^ 16 ≤ s.arg0.toNat → Raises (.wrapStatus b) s 6) ∧
    (s.arg0.toNat < 2 ^ 16 → ∃ t, exec (.wrapStatus b) s = .next t ∧ t.statusErr = 0 ∧
      t.bank b = ⟨⟨0, 0, 0, block.statusApid, 3, SeqTable.read s.seqCtr block.statusApid, 1⟩, zeroSecHdr,
        [BitVec.ofNat 8 (s.arg0.toNat / 256), BitVec.ofNat 8 s.arg0.toNat]⟩ ∧
      t.bank (otherBank b) = s.bank (otherBank b) ∧
      SeqTable.read t.seqCtr block.statusApid = SeqTable.read s.seqCtr block.statusApid + 1 ∧
      (∀ a, a ≠ block.statusApid → SeqTable.read t.seqCtr a = SeqTable.read s.seqCtr a) ∧
      t = { s with pkt0 := t.pkt0, pkt1 := t.pkt1, seqCtr := t.seqCtr, statusErr := 0 })

/-- 42_framing.md R131: WRAP_SENSOR, on every pair of operands, under the block's `OVERFLOW_POLICY = Fault` and
`SEQ_MODE = PerApid`. -/
def Obligations.WrapSensorBuildsThePacket : Prop :=
  ∀ (b : Bank) (s : State),
    decode (0x11 ||| bankBit b) = .ok (.wrapSensor b) ∧
    (2 ^ 16 ≤ s.arg0.toNat → Raises (.wrapSensor b) s 6) ∧
    (s.arg0.toNat < 2 ^ 16 → ∃ (t : State) (u : List Byte), exec (.wrapSensor b) s = .next t ∧ t.statusErr = 0 ∧
      u = [BitVec.ofNat 8 (s.arg0.toNat / 256), BitVec.ofNat 8 s.arg0.toNat] ++ minBE s.arg1 ∧
      t.bank b = ⟨⟨0, 0, 0, block.sensorApid, 3, SeqTable.read s.seqCtr block.sensorApid,
        BitVec.ofNat 16 (u.length - 1)⟩, zeroSecHdr, u⟩ ∧
      (u.length = 3 ∨ u.length = 4 ∨ u.length = 6) ∧
      t.bank (otherBank b) = s.bank (otherBank b) ∧
      SeqTable.read t.seqCtr block.sensorApid = SeqTable.read s.seqCtr block.sensorApid + 1 ∧
      (∀ a, a ≠ block.sensorApid → SeqTable.read t.seqCtr a = SeqTable.read s.seqCtr a) ∧
      t = { s with pkt0 := t.pkt0, pkt1 := t.pkt1, seqCtr := t.seqCtr, statusErr := 0 })

/-- 42_framing.md R130 for every configuration, with `OVERFLOW_POLICY` and `SEQ_MODE` both ways; the command of this block
is the one at its own configuration. -/
def Obligations.WrapStatusInEveryConfiguration : Prop :=
  (∀ (b : Bank) (s : State), decode (0x10 ||| bankBit b) = .ok (.wrapStatus b) ∧
    exec (.wrapStatus b) s = finish s (wrapStatusCmd block b s)) ∧
  (∀ (c : Config) (b : Bank) (s : State),
    (2 ^ 16 ≤ s.arg0.toNat → c.overflowPolicy = .fault →
      finish s (wrapStatusCmd c b s) = .next { s with statusErr := 6 }) ∧
    (s.arg0.toNat < 2 ^ 16 ∨ c.overflowPolicy = .truncate →
      ∃ t, finish s (wrapStatusCmd c b s) = .next t ∧
        t.bank b = ⟨⟨c.versionConst, 0, 0, c.statusApid, c.seqFlagUnseg, (nextSeq c c.statusApid s.seqCtr).1, 1⟩,
          zeroSecHdr, [BitVec.ofNat 8 (s.arg0.toNat / 256), BitVec.ofNat 8 s.arg0.toNat]⟩ ∧
        t.bank (otherBank b) = s.bank (otherBank b) ∧
        t = { s with
          pkt0 := t.pkt0, pkt1 := t.pkt1, seqCtr := (nextSeq c c.statusApid s.seqCtr).2, statusErr := 0 }))

/-- 42_framing.md R131 for every configuration, with `OVERFLOW_POLICY` and `SEQ_MODE` both ways; the command of this block
is the one at its own configuration. -/
def Obligations.WrapSensorInEveryConfiguration : Prop :=
  (∀ (b : Bank) (s : State), decode (0x11 ||| bankBit b) = .ok (.wrapSensor b) ∧
    exec (.wrapSensor b) s = finish s (wrapSensorCmd block b s)) ∧
  (∀ (c : Config) (b : Bank) (s : State) (u : List Byte),
    u = [BitVec.ofNat 8 (s.arg0.toNat / 256), BitVec.ofNat 8 s.arg0.toNat] ++ minBE s.arg1 →
    (2 ^ 16 ≤ s.arg0.toNat → c.overflowPolicy = .fault →
      finish s (wrapSensorCmd c b s) = .next { s with statusErr := 6 }) ∧
    (s.arg0.toNat < 2 ^ 16 ∨ c.overflowPolicy = .truncate →
      ∃ t, finish s (wrapSensorCmd c b s) = .next t ∧
        t.bank b = ⟨⟨c.versionConst, 0, 0, c.sensorApid, c.seqFlagUnseg, (nextSeq c c.sensorApid s.seqCtr).1,
          BitVec.ofNat 16 (u.length - 1)⟩, zeroSecHdr, u⟩ ∧
        t.bank (otherBank b) = s.bank (otherBank b) ∧
        t = { s with
          pkt0 := t.pkt0, pkt1 := t.pkt1, seqCtr := (nextSeq c c.sensorApid s.seqCtr).2, statusErr := 0 }))

/-- 42_framing.md R132: ROUTE, from every state whose user data is within UDF_CAP, whatever class the OPEN `ROUTE_CLASS`
gives the code's top nibble. `x` and `y` are the first two user data bytes. -/
def Obligations.RouteActsByTheTopNibble : Prop :=
  ∀ (b : Bank) (s : State),
    decode (0x12 ||| bankBit b) = .ok (.route b) ∧
    ((s.bank b).udf.length < 2 → Raises (.route b) s 9) ∧
    (∀ (x y : Byte) (rest : List Byte), (s.bank b).udf = x :: y :: rest → (s.bank b).udf.length ≤ udfCap →
      ∃ t, exec (.route b) s = .next t ∧
        match block.routeClass (x.extractLsb' 4 4) with
        | .invalid => t = { s with statusErr := 4 }
        | .loc => t = { s with
            mainStateTc := unbe16 x y, res0 := 0, res1 := 0, res2 := (unbe16 x y).setWidth 32, statusErr := 0 }
        | .forward sid => WroteOBuf s t (x :: y :: rest) ∧ t = { s with
            obuf := t.obuf, obufLen := t.obufLen,
            res0 := 1, res1 := sid, res2 := (unbe16 x y).setWidth 32, statusErr := 0 }
        | .broadcast => WroteOBuf s t ((x &&& 0x0F) :: y :: rest) ∧ t = { s with
            obuf := t.obuf, obufLen := t.obufLen,
            res0 := 2, res1 := 0, res2 := (unbe16 (x &&& 0x0F) y).setWidth 32, statusErr := 0 })

/-- 42_framing.md R132 for every configuration, one clause a route class, with `BROADCAST_APPLIES_LOCAL` both ways; the
command of this block is the one at its own configuration. -/
def Obligations.RouteInEveryConfiguration : Prop :=
  (∀ (b : Bank) (s : State), decode (0x12 ||| bankBit b) = .ok (.route b) ∧
    exec (.route b) s = finish s (routeCmd block b s)) ∧
  (∀ (c : Config) (b : Bank) (s : State), (s.bank b).udf.length < 2 →
    finish s (routeCmd c b s) = .next { s with statusErr := 9 }) ∧
  (∀ (c : Config) (b : Bank) (s : State) (x y : Byte) (rest : List Byte),
    (s.bank b).udf = x :: y :: rest → (s.bank b).udf.length ≤ udfCap →
    (c.routeClass (x.extractLsb' 4 4) = .invalid → finish s (routeCmd c b s) = .next { s with statusErr := 4 }) ∧
    (c.routeClass (x.extractLsb' 4 4) = .loc → finish s (routeCmd c b s) = .next { s with
      mainStateTc := unbe16 x y, res0 := 0, res1 := 0, res2 := (unbe16 x y).setWidth 32, statusErr := 0 }) ∧
    (∀ sid, c.routeClass (x.extractLsb' 4 4) = .forward sid →
      ∃ t, finish s (routeCmd c b s) = .next t ∧ WroteOBuf s t (x :: y :: rest) ∧ t = { s with
        obuf := t.obuf, obufLen := t.obufLen,
        res0 := 1, res1 := sid, res2 := (unbe16 x y).setWidth 32, statusErr := 0 }) ∧
    (c.routeClass (x.extractLsb' 4 4) = .broadcast →
      ∃ t, finish s (routeCmd c b s) = .next t ∧ WroteOBuf s t ((x &&& 0x0F) :: y :: rest) ∧ t = { s with
        obuf := t.obuf, obufLen := t.obufLen,
        mainStateTc := if c.broadcastAppliesLocal then unbe16 (x &&& 0x0F) y else s.mainStateTc,
        res0 := 2, res1 := 0, res2 := (unbe16 (x &&& 0x0F) y).setWidth 32, statusErr := 0 }))

/-- 42_framing.md R133: CHECK_SIZE, for every selector and every OBUF_LEN: a length equal to the limit is accepted, and
nothing but STATUS changes. -/
def Obligations.CheckSizeGuardsTheTransport : Prop :=
  ∀ (sel : BitVec 4) (s : State),
    decode (0x13 ||| selBits sel) = .ok (.checkSize sel) ∧
    (3 ≤ sel.toNat → Raises (.checkSize sel) s 11) ∧
    (∀ lim : Nat, sel = 0 ∧ lim = 8 ∨ sel = 1 ∧ lim = 64 ∨ sel = 2 ∧ lim = 1024 →
      (lim < s.obufLen.toNat → Raises (.checkSize sel) s 5) ∧
      (s.obufLen.toNat ≤ lim → exec (.checkSize sel) s = .next { s with statusErr := 0 }))

/-! ## Laws over several commands -/

/-- Law (1) of 41_packet_model.md R119: serialize a bank whose fields are in range and whose data field length is from 1
to 65536, let IBUF hold the bytes of OBUF, interpret them into either bank: the packet comes back, with PDL recomputed
and, when SHF is 0, the secondary header fields 0. -/
def Obligations.SerializeInterpretRoundTrip : Prop :=
  ∀ (b b' : Bank) (s : State) (n : Nat),
    (s.bank b).sec.inRange block.shLayout.widths = true →
    n = (if (s.bank b).pri.shf = 1 then 8 else 0) + (s.bank b).udf.length → 1 ≤ n → n ≤ 65536 →
    ∃ t, exec (.serialize b) s = .next t ∧ t.statusErr = 0 ∧
      ∀ u : State, (∀ a, a < t.obufLen.toNat → Memory.read u.ibuf a = Memory.read t.obuf a) → u.arg0 = t.obufLen →
        ∃ v, exec (.interpret b') u = .next v ∧ v.statusErr = 0 ∧
          v.bank b' = ⟨{ (s.bank b).pri with pdl := BitVec.ofNat 16 (n - 1) },
            if (s.bank b).pri.shf = 1 then (s.bank b).sec else zeroSecHdr, (s.bank b).udf⟩

/-- Law (4) of 41_packet_model.md R119: once IBUF holds a header and the length covers the packet it declares, INTERPRET
does the same whatever the bytes beyond the packet are, written or not, and whatever length is given beyond it. -/
def Obligations.InterpretIgnoresSlack : Prop :=
  ∀ (b : Bank) (s : State) (m : Memory) (v : Word) (x : List Byte) (total : Nat),
    x.length = 6 → HasBytes s.ibuf 0 x → total = (decPH x).pdl.toNat + 1 + 6 →
    total ≤ s.arg0.toNat → s.arg0.toNat ≤ block.bufCap → total ≤ v.toNat → v.toNat ≤ block.bufCap →
    (∀ a, a < total → Memory.read m a = Memory.read s.ibuf a) →
    exec (.interpret b) { s with ibuf := m, arg0 := v } =
      mapNext (fun t => { t with ibuf := m, arg0 := v }) (exec (.interpret b) s)

/-- 42_framing.md R137: the width of a sensor value in the packet WRAP_SENSOR builds; a length of 9 refused for CAN and
accepted for CAN-FD; and status code 0x1040 wrapped, serialized and interpreted again. -/
def Obligations.FramingLaws : Prop :=
  (∀ (b : Bank) (s : State), s.arg0.toNat < 2 ^ 16 → ∃ t, exec (.wrapSensor b) s = .next t ∧
    (s.arg1 = 0x05 → (t.bank b).udf.drop 2 = [0x05]) ∧
    (s.arg1 = 0x0105 → (t.bank b).udf.drop 2 = [0x01, 0x05]) ∧
    (s.arg1 = 0x01020304 → (t.bank b).udf.drop 2 = [0x01, 0x02, 0x03, 0x04])) ∧
  (∀ s : State, s.obufLen = 9 →
    Raises (.checkSize 0) s 5 ∧ exec (.checkSize 1) s = .next { s with statusErr := 0 }) ∧
  (∀ (b b' : Bank) (s : State), s.arg0 = 0x1040 → ∃ t u, exec (.wrapStatus b) s = .next t ∧
    exec (.serialize b) t = .next u ∧ (u.bank b).pri.pdl = 1 ∧ (u.bank b).udf = [0x10, 0x40] ∧ u.obufLen = 8 ∧
    ∀ v : State, (∀ a, a < 8 → Memory.read v.ibuf a = Memory.read u.obuf a) → v.arg0 = 8 →
      ∃ w, exec (.interpret b') v = .next w ∧ (w.bank b').pri.typ = 0 ∧ (w.bank b').pri.shf = 0 ∧
        (w.bank b').udf = [0x10, 0x40])

/-! ## The host program syntax -/

/-- Every command word the assembler of 30_encoding.md R87 makes is legal and is the encoding of its command, and the
assembler refuses a bank other than 0 or 1 and a bank or selector on a command that does not use it. -/
def Obligations.AssembledCommandsAreLegal : Prop :=
  (∀ (m : Mnemonic) (b : Option Nat) (sel : SelArg) (w : Word), cmdWord m b sel = some w →
    ∃ i, decode w = .ok i ∧ encode i = w) ∧
  (∀ (m : Mnemonic) (n : Nat) (sel : SelArg), 2 ≤ n → cmdWord m (some n) sel = none) ∧
  (∀ (n : Nat) (sel : SelArg), cmdWord .checkSize (some n) sel = none) ∧
  (∀ (m : Mnemonic) (b : Option Nat) (sel : SelArg), sel ≠ .absent →
    m ≠ .getField → m ≠ .setField → m ≠ .checkSize → cmdWord m b sel = none)

/-- 30_encoding.md R88: the expansions of the pseudo-instructions, with the command words as the encoder gives them, and
the STATUS reads at which the host stops. An absent bank is bank 0. -/
def Obligations.PseudoInstructionsExpand : Prop :=
  ∀ (b : Bank) (k : Option Nat), (b = .b0 ∧ (k = none ∨ k = some 0)) ∨ (b = .b1 ∧ k = some 1) →
    (∀ (f : Field) (v : Word), (HostLine.setf f v k).assemble =
      some [⟨.writeReg 1 v, false⟩, ⟨.writeReg 0 (encode (.setField b f.sel)), false⟩]) ∧
    (∀ f : Field, (HostLine.getf f k).assemble =
      some [⟨.writeReg 0 (encode (.getField b f.sel)), false⟩, ⟨.readReg 3, false⟩]) ∧
    (∀ (code : Word) (t : Transport), (HostLine.txstatus code t k).assemble =
      some [⟨.writeReg 1 code, false⟩, ⟨.writeReg 0 (encode (.wrapStatus b)), false⟩, ⟨.readReg 6, true⟩,
        ⟨.writeReg 0 (encode (.serialize b)), false⟩, ⟨.readReg 6, true⟩,
        ⟨.writeReg 0 (encode (.checkSize t.sel)), false⟩, ⟨.readReg 6, true⟩]) ∧
    (∀ n : Word, (HostLine.rxroute n k).assemble =
      some [⟨.writeReg 1 n, false⟩, ⟨.writeReg 0 (encode (.interpret b)), false⟩, ⟨.readReg 6, true⟩,
        ⟨.writeReg 0 (encode (.route b)), false⟩, ⟨.readReg 6, false⟩, ⟨.readReg 3, false⟩, ⟨.readReg 4, false⟩,
        ⟨.readReg 5, false⟩])

/-! ## Over every secondary header layout -/

/-- 30_encoding.md R74, R75: over every `SH_LAYOUT` that meets R77 (with log entry 4), a serialized packet is
the primary header, the secondary header of SEC_LEN bytes if and only if SHF is 1, and the user data from offset 6 or
6 + SEC_LEN to the end. -/
def Obligations.PacketLayoutInEveryLayout : Prop :=
  ∀ (c : Config) (p : Packet), c.shLayout.Lawful →
    (p.bytes c).take 6 = encPH p.pri ∧
    (p.pri.shf = 0 → (p.bytes c).drop 6 = p.udf) ∧
    (p.pri.shf = 1 → ((p.bytes c).drop 6).take c.secLen = c.shLayout.enc p.sec ∧
      (p.bytes c).drop (6 + c.secLen) = p.udf ∧
      (p.sec.inRange c.shLayout.widths = true → c.shLayout.dec (((p.bytes c).drop 6).take c.secLen) = p.sec))

/-- Law (1) of 41_packet_model.md R119 in every valid configuration, so over every `SH_LAYOUT` that meets 30_encoding.md
R77 (with log entry 4): the same round trip, with SEC_LEN and the codec the layout's. The commands
of this block are those at its own configuration. -/
def Obligations.RoundTripInEveryConfiguration : Prop :=
  (∀ (b : Bank) (s : State), exec (.serialize b) s = finish s (serializeCmd block b s) ∧
    exec (.interpret b) s = finish s (interpretCmd block b s)) ∧
  ∀ (c : Config) (b b' : Bank) (s : State) (n : Nat), c.Valid →
    (s.bank b).sec.inRange c.shLayout.widths = true →
    n = (if (s.bank b).pri.shf = 1 then c.secLen else 0) + (s.bank b).udf.length → 1 ≤ n → n ≤ 65536 →
    ∃ t, finish s (serializeCmd c b s) = .next t ∧ t.statusErr = 0 ∧ t.obufLen.toNat = 6 + n ∧
      ∀ u : State, (∀ a, a < t.obufLen.toNat → Memory.read u.ibuf a = Memory.read t.obuf a) → u.arg0 = t.obufLen →
        ∃ v, finish u (interpretCmd c b' u) = .next v ∧ v.statusErr = 0 ∧
          v.bank b' = ⟨{ (s.bank b).pri with pdl := BitVec.ofNat 16 (n - 1) },
            if (s.bank b).pri.shf = 1 then (s.bank b).sec else zeroSecHdr, (s.bank b).udf⟩
end

