-- ==== Sys2Proof/Laws/State.lean ====
section
/-! SUPPORT. What each update of the state leaves in each field, so that no later proof unfolds a record update; and the
bank a bank update leaves. -/

namespace Sys2Proof.Machine

variable (s : State)

@[simp] theorem State.setErr_pkt0 (e : BitVec 8) : (s.setErr e).pkt0 = s.pkt0 := rfl
@[simp] theorem State.setErr_pkt1 (e : BitVec 8) : (s.setErr e).pkt1 = s.pkt1 := rfl
@[simp] theorem State.setErr_arg0 (e : BitVec 8) : (s.setErr e).arg0 = s.arg0 := rfl
@[simp] theorem State.setErr_arg1 (e : BitVec 8) : (s.setErr e).arg1 = s.arg1 := rfl
@[simp] theorem State.setErr_res0 (e : BitVec 8) : (s.setErr e).res0 = s.res0 := rfl
@[simp] theorem State.setErr_res1 (e : BitVec 8) : (s.setErr e).res1 = s.res1 := rfl
@[simp] theorem State.setErr_res2 (e : BitVec 8) : (s.setErr e).res2 = s.res2 := rfl
@[simp] theorem State.setErr_statusErr (e : BitVec 8) : (s.setErr e).statusErr = e := rfl
@[simp] theorem State.setErr_obufLen (e : BitVec 8) : (s.setErr e).obufLen = s.obufLen := rfl
@[simp] theorem State.setErr_mainStateTc (e : BitVec 8) : (s.setErr e).mainStateTc = s.mainStateTc := rfl
@[simp] theorem State.setErr_seqCtr (e : BitVec 8) : (s.setErr e).seqCtr = s.seqCtr := rfl
@[simp] theorem State.setErr_ibuf (e : BitVec 8) : (s.setErr e).ibuf = s.ibuf := rfl
@[simp] theorem State.setErr_obuf (e : BitVec 8) : (s.setErr e).obuf = s.obuf := rfl
@[simp] theorem State.setErr_pending (e : BitVec 8) : (s.setErr e).pending = s.pending := rfl
@[simp] theorem State.setErr_response (e : BitVec 8) : (s.setErr e).response = s.response := rfl

@[simp] theorem State.putOBuf_pkt0 (x : List Byte) : (s.putOBuf x).pkt0 = s.pkt0 := rfl
@[simp] theorem State.putOBuf_pkt1 (x : List Byte) : (s.putOBuf x).pkt1 = s.pkt1 := rfl
@[simp] theorem State.putOBuf_arg0 (x : List Byte) : (s.putOBuf x).arg0 = s.arg0 := rfl
@[simp] theorem State.putOBuf_arg1 (x : List Byte) : (s.putOBuf x).arg1 = s.arg1 := rfl
@[simp] theorem State.putOBuf_res0 (x : List Byte) : (s.putOBuf x).res0 = s.res0 := rfl
@[simp] theorem State.putOBuf_res1 (x : List Byte) : (s.putOBuf x).res1 = s.res1 := rfl
@[simp] theorem State.putOBuf_res2 (x : List Byte) : (s.putOBuf x).res2 = s.res2 := rfl
@[simp] theorem State.putOBuf_statusErr (x : List Byte) : (s.putOBuf x).statusErr = s.statusErr := rfl
@[simp] theorem State.putOBuf_obufLen (x : List Byte) : (s.putOBuf x).obufLen = BitVec.ofNat 32 x.length := rfl
@[simp] theorem State.putOBuf_mainStateTc (x : List Byte) : (s.putOBuf x).mainStateTc = s.mainStateTc := rfl
@[simp] theorem State.putOBuf_seqCtr (x : List Byte) : (s.putOBuf x).seqCtr = s.seqCtr := rfl
@[simp] theorem State.putOBuf_ibuf (x : List Byte) : (s.putOBuf x).ibuf = s.ibuf := rfl
@[simp] theorem State.putOBuf_obuf (x : List Byte) : (s.putOBuf x).obuf = Memory.writeBytes s.obuf 0 x := rfl
@[simp] theorem State.putOBuf_pending (x : List Byte) : (s.putOBuf x).pending = s.pending := rfl
@[simp] theorem State.putOBuf_response (x : List Byte) : (s.putOBuf x).response = s.response := rfl

@[simp] theorem State.setRes_pkt0 (r0 r1 r2 : Word) : (s.setRes r0 r1 r2).pkt0 = s.pkt0 := rfl
@[simp] theorem State.setRes_pkt1 (r0 r1 r2 : Word) : (s.setRes r0 r1 r2).pkt1 = s.pkt1 := rfl
@[simp] theorem State.setRes_arg0 (r0 r1 r2 : Word) : (s.setRes r0 r1 r2).arg0 = s.arg0 := rfl
@[simp] theorem State.setRes_arg1 (r0 r1 r2 : Word) : (s.setRes r0 r1 r2).arg1 = s.arg1 := rfl
@[simp] theorem State.setRes_res0 (r0 r1 r2 : Word) : (s.setRes r0 r1 r2).res0 = r0 := rfl
@[simp] theorem State.setRes_res1 (r0 r1 r2 : Word) : (s.setRes r0 r1 r2).res1 = r1 := rfl
@[simp] theorem State.setRes_res2 (r0 r1 r2 : Word) : (s.setRes r0 r1 r2).res2 = r2 := rfl
@[simp] theorem State.setRes_statusErr (r0 r1 r2 : Word) : (s.setRes r0 r1 r2).statusErr = s.statusErr := rfl
@[simp] theorem State.setRes_obufLen (r0 r1 r2 : Word) : (s.setRes r0 r1 r2).obufLen = s.obufLen := rfl
@[simp] theorem State.setRes_mainStateTc (r0 r1 r2 : Word) : (s.setRes r0 r1 r2).mainStateTc = s.mainStateTc := rfl
@[simp] theorem State.setRes_seqCtr (r0 r1 r2 : Word) : (s.setRes r0 r1 r2).seqCtr = s.seqCtr := rfl
@[simp] theorem State.setRes_ibuf (r0 r1 r2 : Word) : (s.setRes r0 r1 r2).ibuf = s.ibuf := rfl
@[simp] theorem State.setRes_obuf (r0 r1 r2 : Word) : (s.setRes r0 r1 r2).obuf = s.obuf := rfl
@[simp] theorem State.setRes_pending (r0 r1 r2 : Word) : (s.setRes r0 r1 r2).pending = s.pending := rfl
@[simp] theorem State.setRes_response (r0 r1 r2 : Word) : (s.setRes r0 r1 r2).response = s.response := rfl

@[simp] theorem State.setRes0_pkt0 (r0 : Word) : (s.setRes0 r0).pkt0 = s.pkt0 := rfl
@[simp] theorem State.setRes0_pkt1 (r0 : Word) : (s.setRes0 r0).pkt1 = s.pkt1 := rfl
@[simp] theorem State.setRes0_arg0 (r0 : Word) : (s.setRes0 r0).arg0 = s.arg0 := rfl
@[simp] theorem State.setRes0_arg1 (r0 : Word) : (s.setRes0 r0).arg1 = s.arg1 := rfl
@[simp] theorem State.setRes0_res0 (r0 : Word) : (s.setRes0 r0).res0 = r0 := rfl
@[simp] theorem State.setRes0_res1 (r0 : Word) : (s.setRes0 r0).res1 = s.res1 := rfl
@[simp] theorem State.setRes0_res2 (r0 : Word) : (s.setRes0 r0).res2 = s.res2 := rfl
@[simp] theorem State.setRes0_statusErr (r0 : Word) : (s.setRes0 r0).statusErr = s.statusErr := rfl
@[simp] theorem State.setRes0_obufLen (r0 : Word) : (s.setRes0 r0).obufLen = s.obufLen := rfl
@[simp] theorem State.setRes0_mainStateTc (r0 : Word) : (s.setRes0 r0).mainStateTc = s.mainStateTc := rfl
@[simp] theorem State.setRes0_seqCtr (r0 : Word) : (s.setRes0 r0).seqCtr = s.seqCtr := rfl
@[simp] theorem State.setRes0_ibuf (r0 : Word) : (s.setRes0 r0).ibuf = s.ibuf := rfl
@[simp] theorem State.setRes0_obuf (r0 : Word) : (s.setRes0 r0).obuf = s.obuf := rfl
@[simp] theorem State.setRes0_pending (r0 : Word) : (s.setRes0 r0).pending = s.pending := rfl
@[simp] theorem State.setRes0_response (r0 : Word) : (s.setRes0 r0).response = s.response := rfl

@[simp] theorem State.setMainStateTc_pkt0 (v : BitVec 16) : (s.setMainStateTc v).pkt0 = s.pkt0 := rfl
@[simp] theorem State.setMainStateTc_pkt1 (v : BitVec 16) : (s.setMainStateTc v).pkt1 = s.pkt1 := rfl
@[simp] theorem State.setMainStateTc_arg0 (v : BitVec 16) : (s.setMainStateTc v).arg0 = s.arg0 := rfl
@[simp] theorem State.setMainStateTc_arg1 (v : BitVec 16) : (s.setMainStateTc v).arg1 = s.arg1 := rfl
@[simp] theorem State.setMainStateTc_res0 (v : BitVec 16) : (s.setMainStateTc v).res0 = s.res0 := rfl
@[simp] theorem State.setMainStateTc_res1 (v : BitVec 16) : (s.setMainStateTc v).res1 = s.res1 := rfl
@[simp] theorem State.setMainStateTc_res2 (v : BitVec 16) : (s.setMainStateTc v).res2 = s.res2 := rfl
@[simp] theorem State.setMainStateTc_statusErr (v : BitVec 16) : (s.setMainStateTc v).statusErr = s.statusErr := rfl
@[simp] theorem State.setMainStateTc_obufLen (v : BitVec 16) : (s.setMainStateTc v).obufLen = s.obufLen := rfl
@[simp] theorem State.setMainStateTc_mainStateTc (v : BitVec 16) : (s.setMainStateTc v).mainStateTc = v := rfl
@[simp] theorem State.setMainStateTc_seqCtr (v : BitVec 16) : (s.setMainStateTc v).seqCtr = s.seqCtr := rfl
@[simp] theorem State.setMainStateTc_ibuf (v : BitVec 16) : (s.setMainStateTc v).ibuf = s.ibuf := rfl
@[simp] theorem State.setMainStateTc_obuf (v : BitVec 16) : (s.setMainStateTc v).obuf = s.obuf := rfl
@[simp] theorem State.setMainStateTc_pending (v : BitVec 16) : (s.setMainStateTc v).pending = s.pending := rfl
@[simp] theorem State.setMainStateTc_response (v : BitVec 16) : (s.setMainStateTc v).response = s.response := rfl

@[simp] theorem State.setSeqCtr_pkt0 (t : SeqTable) : (s.setSeqCtr t).pkt0 = s.pkt0 := rfl
@[simp] theorem State.setSeqCtr_pkt1 (t : SeqTable) : (s.setSeqCtr t).pkt1 = s.pkt1 := rfl
@[simp] theorem State.setSeqCtr_arg0 (t : SeqTable) : (s.setSeqCtr t).arg0 = s.arg0 := rfl
@[simp] theorem State.setSeqCtr_arg1 (t : SeqTable) : (s.setSeqCtr t).arg1 = s.arg1 := rfl
@[simp] theorem State.setSeqCtr_res0 (t : SeqTable) : (s.setSeqCtr t).res0 = s.res0 := rfl
@[simp] theorem State.setSeqCtr_res1 (t : SeqTable) : (s.setSeqCtr t).res1 = s.res1 := rfl
@[simp] theorem State.setSeqCtr_res2 (t : SeqTable) : (s.setSeqCtr t).res2 = s.res2 := rfl
@[simp] theorem State.setSeqCtr_statusErr (t : SeqTable) : (s.setSeqCtr t).statusErr = s.statusErr := rfl
@[simp] theorem State.setSeqCtr_obufLen (t : SeqTable) : (s.setSeqCtr t).obufLen = s.obufLen := rfl
@[simp] theorem State.setSeqCtr_mainStateTc (t : SeqTable) : (s.setSeqCtr t).mainStateTc = s.mainStateTc := rfl
@[simp] theorem State.setSeqCtr_seqCtr (t : SeqTable) : (s.setSeqCtr t).seqCtr = t := rfl
@[simp] theorem State.setSeqCtr_ibuf (t : SeqTable) : (s.setSeqCtr t).ibuf = s.ibuf := rfl
@[simp] theorem State.setSeqCtr_obuf (t : SeqTable) : (s.setSeqCtr t).obuf = s.obuf := rfl
@[simp] theorem State.setSeqCtr_pending (t : SeqTable) : (s.setSeqCtr t).pending = s.pending := rfl
@[simp] theorem State.setSeqCtr_response (t : SeqTable) : (s.setSeqCtr t).response = s.response := rfl

@[simp] theorem State.setBank_pkt0 (b : Bank) (p : Packet) : (s.setBank b p).pkt0 = if b = .b0 then p else s.pkt0 := rfl
@[simp] theorem State.setBank_pkt1 (b : Bank) (p : Packet) : (s.setBank b p).pkt1 = if b = .b1 then p else s.pkt1 := rfl
@[simp] theorem State.setBank_arg0 (b : Bank) (p : Packet) : (s.setBank b p).arg0 = s.arg0 := rfl
@[simp] theorem State.setBank_arg1 (b : Bank) (p : Packet) : (s.setBank b p).arg1 = s.arg1 := rfl
@[simp] theorem State.setBank_res0 (b : Bank) (p : Packet) : (s.setBank b p).res0 = s.res0 := rfl
@[simp] theorem State.setBank_res1 (b : Bank) (p : Packet) : (s.setBank b p).res1 = s.res1 := rfl
@[simp] theorem State.setBank_res2 (b : Bank) (p : Packet) : (s.setBank b p).res2 = s.res2 := rfl
@[simp] theorem State.setBank_statusErr (b : Bank) (p : Packet) : (s.setBank b p).statusErr = s.statusErr := rfl
@[simp] theorem State.setBank_obufLen (b : Bank) (p : Packet) : (s.setBank b p).obufLen = s.obufLen := rfl
@[simp] theorem State.setBank_mainStateTc (b : Bank) (p : Packet) : (s.setBank b p).mainStateTc = s.mainStateTc := rfl
@[simp] theorem State.setBank_seqCtr (b : Bank) (p : Packet) : (s.setBank b p).seqCtr = s.seqCtr := rfl
@[simp] theorem State.setBank_ibuf (b : Bank) (p : Packet) : (s.setBank b p).ibuf = s.ibuf := rfl
@[simp] theorem State.setBank_obuf (b : Bank) (p : Packet) : (s.setBank b p).obuf = s.obuf := rfl
@[simp] theorem State.setBank_pending (b : Bank) (p : Packet) : (s.setBank b p).pending = s.pending := rfl
@[simp] theorem State.setBank_response (b : Bank) (p : Packet) : (s.setBank b p).response = s.response := rfl

@[simp] theorem State.respond_pkt0 (r : Response) : (s.respond r).pkt0 = s.pkt0 := rfl
@[simp] theorem State.respond_pkt1 (r : Response) : (s.respond r).pkt1 = s.pkt1 := rfl
@[simp] theorem State.respond_arg0 (r : Response) : (s.respond r).arg0 = s.arg0 := rfl
@[simp] theorem State.respond_arg1 (r : Response) : (s.respond r).arg1 = s.arg1 := rfl
@[simp] theorem State.respond_res0 (r : Response) : (s.respond r).res0 = s.res0 := rfl
@[simp] theorem State.respond_res1 (r : Response) : (s.respond r).res1 = s.res1 := rfl
@[simp] theorem State.respond_res2 (r : Response) : (s.respond r).res2 = s.res2 := rfl
@[simp] theorem State.respond_statusErr (r : Response) : (s.respond r).statusErr = s.statusErr := rfl
@[simp] theorem State.respond_obufLen (r : Response) : (s.respond r).obufLen = s.obufLen := rfl
@[simp] theorem State.respond_mainStateTc (r : Response) : (s.respond r).mainStateTc = s.mainStateTc := rfl
@[simp] theorem State.respond_seqCtr (r : Response) : (s.respond r).seqCtr = s.seqCtr := rfl
@[simp] theorem State.respond_ibuf (r : Response) : (s.respond r).ibuf = s.ibuf := rfl
@[simp] theorem State.respond_obuf (r : Response) : (s.respond r).obuf = s.obuf := rfl
@[simp] theorem State.respond_pending (r : Response) : (s.respond r).pending = s.pending := rfl
@[simp] theorem State.respond_response (r : Response) : (s.respond r).response = r := rfl

@[simp] theorem State.accept_pkt0 (ts : List Transaction) : (s.accept ts).pkt0 = s.pkt0 := rfl
@[simp] theorem State.accept_pkt1 (ts : List Transaction) : (s.accept ts).pkt1 = s.pkt1 := rfl
@[simp] theorem State.accept_arg0 (ts : List Transaction) : (s.accept ts).arg0 = s.arg0 := rfl
@[simp] theorem State.accept_arg1 (ts : List Transaction) : (s.accept ts).arg1 = s.arg1 := rfl
@[simp] theorem State.accept_res0 (ts : List Transaction) : (s.accept ts).res0 = s.res0 := rfl
@[simp] theorem State.accept_res1 (ts : List Transaction) : (s.accept ts).res1 = s.res1 := rfl
@[simp] theorem State.accept_res2 (ts : List Transaction) : (s.accept ts).res2 = s.res2 := rfl
@[simp] theorem State.accept_statusErr (ts : List Transaction) : (s.accept ts).statusErr = s.statusErr := rfl
@[simp] theorem State.accept_obufLen (ts : List Transaction) : (s.accept ts).obufLen = s.obufLen := rfl
@[simp] theorem State.accept_mainStateTc (ts : List Transaction) : (s.accept ts).mainStateTc = s.mainStateTc := rfl
@[simp] theorem State.accept_seqCtr (ts : List Transaction) : (s.accept ts).seqCtr = s.seqCtr := rfl
@[simp] theorem State.accept_ibuf (ts : List Transaction) : (s.accept ts).ibuf = s.ibuf := rfl
@[simp] theorem State.accept_obuf (ts : List Transaction) : (s.accept ts).obuf = s.obuf := rfl
@[simp] theorem State.accept_pending (ts : List Transaction) : (s.accept ts).pending = ts := rfl
@[simp] theorem State.accept_response (ts : List Transaction) : (s.accept ts).response = .nothing := rfl

@[simp] theorem State.withCommand_pkt0 (w : Word) : (s.withCommand w).pkt0 = s.pkt0 := rfl
@[simp] theorem State.withCommand_pkt1 (w : Word) : (s.withCommand w).pkt1 = s.pkt1 := rfl
@[simp] theorem State.withCommand_arg0 (w : Word) : (s.withCommand w).arg0 = s.arg0 := rfl
@[simp] theorem State.withCommand_arg1 (w : Word) : (s.withCommand w).arg1 = s.arg1 := rfl
@[simp] theorem State.withCommand_res0 (w : Word) : (s.withCommand w).res0 = s.res0 := rfl
@[simp] theorem State.withCommand_res1 (w : Word) : (s.withCommand w).res1 = s.res1 := rfl
@[simp] theorem State.withCommand_res2 (w : Word) : (s.withCommand w).res2 = s.res2 := rfl
@[simp] theorem State.withCommand_statusErr (w : Word) : (s.withCommand w).statusErr = s.statusErr := rfl
@[simp] theorem State.withCommand_obufLen (w : Word) : (s.withCommand w).obufLen = s.obufLen := rfl
@[simp] theorem State.withCommand_mainStateTc (w : Word) : (s.withCommand w).mainStateTc = s.mainStateTc := rfl
@[simp] theorem State.withCommand_seqCtr (w : Word) : (s.withCommand w).seqCtr = s.seqCtr := rfl
@[simp] theorem State.withCommand_ibuf (w : Word) : (s.withCommand w).ibuf = s.ibuf := rfl
@[simp] theorem State.withCommand_obuf (w : Word) : (s.withCommand w).obuf = s.obuf := rfl
@[simp] theorem State.withCommand_pending (w : Word) : (s.withCommand w).pending = .writeReg 0 w :: s.pending := rfl
@[simp] theorem State.withCommand_response (w : Word) : (s.withCommand w).response = s.response := rfl

/-! Banks. -/

@[simp] theorem otherBank_ne (b : Bank) : otherBank b ≠ b := by cases b <;> decide

@[simp] theorem ne_otherBank (b : Bank) : b ≠ otherBank b := by cases b <;> decide

@[simp] theorem otherBank_otherBank (b : Bank) : otherBank (otherBank b) = b := by cases b <;> rfl

@[simp] theorem State.bank_b0 : s.bank .b0 = s.pkt0 := rfl

@[simp] theorem State.bank_b1 : s.bank .b1 = s.pkt1 := rfl

@[simp] theorem State.setBank_bank_same (b : Bank) (p : Packet) : (s.setBank b p).bank b = p := by cases b <;> rfl

theorem State.setBank_bank_of_ne {b b' : Bank} (p : Packet) (h : b' ≠ b) : (s.setBank b p).bank b' = s.bank b' := by
  cases b <;> cases b' <;> first | rfl | exact absurd rfl h

@[simp] theorem State.setBank_bank_other (b : Bank) (p : Packet) :
    (s.setBank b p).bank (otherBank b) = s.bank (otherBank b) := s.setBank_bank_of_ne p (otherBank_ne b)

@[simp] theorem State.setBank_otherBank_bank (b : Bank) (p : Packet) : (s.setBank (otherBank b) p).bank b = s.bank b :=
  s.setBank_bank_of_ne p (ne_otherBank b)

@[simp] theorem State.setErr_bank (e : BitVec 8) (b : Bank) : (s.setErr e).bank b = s.bank b := by cases b <;> rfl

@[simp] theorem State.putOBuf_bank (x : List Byte) (b : Bank) : (s.putOBuf x).bank b = s.bank b := by cases b <;> rfl

@[simp] theorem State.setRes_bank (r0 r1 r2 : Word) (b : Bank) : (s.setRes r0 r1 r2).bank b = s.bank b := by cases b <;> rfl

@[simp] theorem State.setRes0_bank (r0 : Word) (b : Bank) : (s.setRes0 r0).bank b = s.bank b := by cases b <;> rfl

@[simp] theorem State.setMainStateTc_bank (v : BitVec 16) (b : Bank) : (s.setMainStateTc v).bank b = s.bank b := by cases b <;> rfl

@[simp] theorem State.setSeqCtr_bank (t : SeqTable) (b : Bank) : (s.setSeqCtr t).bank b = s.bank b := by cases b <;> rfl

@[simp] theorem State.respond_bank (r : Response) (b : Bank) : (s.respond r).bank b = s.bank b := by cases b <;> rfl

@[simp] theorem State.accept_bank (ts : List Transaction) (b : Bank) : (s.accept ts).bank b = s.bank b := by cases b <;> rfl

@[simp] theorem State.withCommand_bank (w : Word) (b : Bank) : (s.withCommand w).bank b = s.bank b := by cases b <;> rfl

/-- A bank update frames every field but the two banks. -/
theorem State.setBank_frame (b : Bank) (p : Packet) :
    s.setBank b p = { s with pkt0 := (s.setBank b p).pkt0, pkt1 := (s.setBank b p).pkt1 } := rfl

end Sys2Proof.Machine
end

