-- ==== Sys2Proof/Laws/Ops.lean ====
section
/-! SUPPORT. What the shared operations do, once each: sparse tables, byte buffers, sequence counters, the end of a
command, and the parts a command is made of. -/

namespace Sys2Proof.Machine

/-! Sparse tables. -/

section Sparse
variable {α : Type}

@[simp] theorem Sparse.get_nil (a : Nat) : Sparse.get ([] : List (Nat × α)) a = none := rfl

/-- Listing a value changes what is read at its index only. -/
theorem Sparse.get_put (m : List (Nat × α)) (a : Nat) (x : α) (b : Nat) :
    Sparse.get (Sparse.put m a x) b = if b = a then some x else Sparse.get m b := by
  induction m with
  | nil => simp [Sparse.put, Sparse.get, eq_comm]
  | cons e m ih =>
    obtain ⟨k, y⟩ := e
    simp only [Sparse.put]
    split
    · simp only [Sparse.get, eq_comm (a := a)]
    · split
      · subst a
        simp only [Sparse.get, eq_comm (a := k)]
        split <;> rfl
      · simp only [Sparse.get, ih]
        split
        · rw [if_neg (by omega)]
        · rfl

/-- Unlisting an index changes what is read there only. -/
theorem Sparse.get_del (m : List (Nat × α)) (a b : Nat) :
    Sparse.get (Sparse.del m a) b = if b = a then none else Sparse.get m b := by
  induction m with
  | nil => simp [Sparse.del]
  | cons e m ih =>
    obtain ⟨k, y⟩ := e
    simp only [Sparse.del, List.filter_cons] at ih ⊢
    by_cases hk : k = a
    · subst k
      simp only [bne_self_eq_false, Bool.false_eq_true, if_false, ih, Sparse.get, eq_comm (a := a)]
      split <;> rfl
    · simp only [bne_iff_ne, ne_eq, hk, not_false_eq_true, if_true, Sparse.get, ih]
      split
      · rw [if_neg (by omega)]
      · rfl

theorem Sparse.sortedFrom_mono {m : List (Nat × α)} {lo lo' : Nat} (h : lo' ≤ lo) (hm : Sparse.sortedFrom lo m = true) :
    Sparse.sortedFrom lo' m = true := by
  cases m with
  | nil => rfl
  | cons e m =>
    simp only [Sparse.sortedFrom, Bool.and_eq_true, decide_eq_true_eq] at hm ⊢
    exact ⟨by omega, hm.2⟩

/-- Listing a value keeps the canonical form. -/
theorem Sparse.sortedFrom_put {m : List (Nat × α)} {lo a : Nat} (x : α) (ha : lo ≤ a)
    (hm : Sparse.sortedFrom lo m = true) : Sparse.sortedFrom lo (Sparse.put m a x) = true := by
  induction m generalizing lo with
  | nil => simpa [Sparse.put, Sparse.sortedFrom] using ha
  | cons e m ih =>
    obtain ⟨k, y⟩ := e
    simp only [Sparse.sortedFrom, Bool.and_eq_true, decide_eq_true_eq] at hm
    simp only [Sparse.put]
    split
    · simp only [Sparse.sortedFrom, Bool.and_eq_true, decide_eq_true_eq]
      exact ⟨ha, by omega, hm.2⟩
    · split
      · subst a
        simp only [Sparse.sortedFrom, Bool.and_eq_true, decide_eq_true_eq]
        exact ⟨ha, hm.2⟩
      · simp only [Sparse.sortedFrom, Bool.and_eq_true, decide_eq_true_eq]
        exact ⟨hm.1, ih (by omega) hm.2⟩

/-- Unlisting an index keeps the canonical form. -/
theorem Sparse.sortedFrom_del {m : List (Nat × α)} {lo : Nat} (a : Nat) (hm : Sparse.sortedFrom lo m = true) :
    Sparse.sortedFrom lo (Sparse.del m a) = true := by
  induction m generalizing lo with
  | nil => rfl
  | cons e m ih =>
    obtain ⟨k, y⟩ := e
    simp only [Sparse.sortedFrom, Bool.and_eq_true, decide_eq_true_eq] at hm
    simp only [Sparse.del, List.filter_cons] at ih ⊢
    split
    · simp only [Sparse.sortedFrom, Bool.and_eq_true, decide_eq_true_eq]
      exact ⟨hm.1, ih hm.2⟩
    · exact Sparse.sortedFrom_mono (by omega) (ih hm.2)

/-- What is listed after listing a value: it, or what was listed before. -/
theorem Sparse.mem_put {m : List (Nat × α)} {a : Nat} {x : α} {e : Nat × α} (h : e ∈ Sparse.put m a x) :
    e = (a, x) ∨ e ∈ m := by
  induction m with
  | nil => simpa [Sparse.put] using h
  | cons f m ih =>
    obtain ⟨k, y⟩ := f
    simp only [Sparse.put] at h
    split at h
    · simpa using h
    · split at h
      · rcases List.mem_cons.mp h with h | h
        · exact .inl h
        · exact .inr (List.mem_cons_of_mem _ h)
      · rcases List.mem_cons.mp h with h | h
        · exact .inr (h ▸ List.mem_cons_self)
        · exact (ih h).imp_right (List.mem_cons_of_mem _)

theorem Sparse.mem_del {m : List (Nat × α)} {a : Nat} {e : Nat × α} (h : e ∈ Sparse.del m a) : e ∈ m :=
  (List.mem_filter.mp h).1

theorem Sparse.get_of_lt {m : List (Nat × α)} {lo a : Nat} (hm : Sparse.sortedFrom lo m = true) (h : a < lo) :
    Sparse.get m a = none := by
  induction m generalizing lo with
  | nil => rfl
  | cons e m ih =>
    obtain ⟨k, y⟩ := e
    simp only [Sparse.sortedFrom, Bool.and_eq_true, decide_eq_true_eq] at hm
    rw [Sparse.get, if_neg (by omega)]
    exact ih hm.2 (by omega)

/-- Canonical tables that read alike are equal. -/
theorem Sparse.ext_of_sorted {m m' : List (Nat × α)} {lo lo' : Nat} (hm : Sparse.sortedFrom lo m = true)
    (hm' : Sparse.sortedFrom lo' m' = true) (h : ∀ a, Sparse.get m a = Sparse.get m' a) : m = m' := by
  induction m generalizing m' lo lo' with
  | nil =>
    cases m' with
    | nil => rfl
    | cons e' m' => simpa [Sparse.get] using h e'.1
  | cons e m ih =>
    obtain ⟨k, y⟩ := e
    cases m' with
    | nil => simpa [Sparse.get] using h k
    | cons e' m' =>
      obtain ⟨k', y'⟩ := e'
      simp only [Sparse.sortedFrom, Bool.and_eq_true, decide_eq_true_eq] at hm hm'
      have hk : k = k' := by
        rcases Nat.lt_trichotomy k k' with hlt | heq | hgt
        · have := h k
          rw [Sparse.get, if_pos rfl, Sparse.get, if_neg (by omega), Sparse.get_of_lt hm'.2 (by omega)] at this
          cases this
        · exact heq
        · have := h k'
          rw [Sparse.get, if_neg (by omega), Sparse.get, if_pos rfl, Sparse.get_of_lt hm.2 (by omega)] at this
          cases this
      subst k'
      have hy : y = y' := by simpa [Sparse.get] using h k
      subst y'
      congr 1
      refine ih hm.2 hm'.2 fun a => ?_
      have := h a
      by_cases ha : k = a
      · subst a
        rw [Sparse.get_of_lt hm.2 (by omega), Sparse.get_of_lt hm'.2 (by omega)]
      · simpa [Sparse.get, ha] using this

end Sparse

/-! Byte buffers. -/

@[simp] theorem Memory.read_nil (a : Nat) : Memory.read [] a = none := rfl

/-- A write changes the byte at its address only, and sets its mark. -/
theorem Memory.read_write (m : Memory) (a : Nat) (x : Byte) (b : Nat) :
    Memory.read (Memory.write m a x) b = if b = a then some x else Memory.read m b := Sparse.get_put m a x b

/-- A write of a sequence changes the bytes of its range only. -/
theorem Memory.read_writeBytes (m : Memory) (a : Nat) (x : List Byte) (b : Nat) :
    Memory.read (Memory.writeBytes m a x) b = if a ≤ b ∧ b < a + x.length then x[b - a]? else Memory.read m b := by
  induction x generalizing m a with
  | nil => rw [Memory.writeBytes, if_neg (by simp)]
  | cons y x ih =>
    rw [Memory.writeBytes, ih, Memory.read_write]
    by_cases h : b = a
    · subst b
      simp
    · by_cases h' : a + 1 ≤ b ∧ b < a + 1 + x.length
      · rw [if_pos h', if_pos (by simp only [List.length_cons]; omega)]
        obtain ⟨k, rfl⟩ : ∃ k, b = a + 1 + k := ⟨b - (a + 1), by omega⟩
        rw [show a + 1 + k - (a + 1) = k by omega, show a + 1 + k - a = k + 1 by omega, List.getElem?_cons_succ]
      · rw [if_neg h', if_neg h, if_neg (by simp only [List.length_cons]; omega)]

/-- What was written is there. -/
theorem HasBytes.writeBytes (m : Memory) (a : Nat) (x : List Byte) : HasBytes (Memory.writeBytes m a x) a x := by
  intro k hk
  rw [Memory.read_writeBytes, if_pos (by omega), Nat.add_sub_cancel_left]

theorem Memory.wf_write {m : Memory} (a : Nat) (x : Byte) (h : m.wf = true) : (Memory.write m a x).wf = true :=
  Sparse.sortedFrom_put x (Nat.zero_le a) h

/-- Every write keeps the canonical form. -/
theorem Memory.wf_writeBytes {m : Memory} (a : Nat) (x : List Byte) (h : m.wf = true) :
    (Memory.writeBytes m a x).wf = true := by
  induction x generalizing m a with
  | nil => exact h
  | cons y x ih => exact ih (a + 1) (Memory.wf_write a y h)

theorem Memory.mem_writeBytes {m : Memory} {a : Nat} {x : List Byte} {e : Host.Cell}
    (h : e ∈ Memory.writeBytes m a x) : e.1 < a + x.length ∨ e ∈ m := by
  induction x generalizing m a with
  | nil => exact .inr h
  | cons y x ih =>
    rcases ih h with h | h
    · exact .inl (by simp only [List.length_cons]; omega)
    · rcases Sparse.mem_put h with h | h
      · exact .inl (by subst e; simp)
      · exact .inr h

/-- Canonical buffers that read alike are equal. -/
theorem Memory.ext_of_wf {m m' : Memory} (h : m.wf = true) (h' : m'.wf = true)
    (hr : ∀ a, Memory.read m a = Memory.read m' a) : m = m' := Sparse.ext_of_sorted h h' hr

/-- A write inside the buffer keeps the buffer canonical and inside. -/
theorem CanonicalBelow.writeBytes {m : Memory} {n a : Nat} (x : List Byte) (h : CanonicalBelow n m)
    (hx : a + x.length ≤ n) : CanonicalBelow n (Memory.writeBytes m a x) where
  sorted := Memory.wf_writeBytes a x h.sorted
  below _ he := (Memory.mem_writeBytes he).elim (fun h => by omega) (h.below _)

/-- The same of a write of one byte. -/
theorem CanonicalBelow.write {m : Memory} {n a : Nat} (x : Byte) (h : CanonicalBelow n m) (hx : a < n) :
    CanonicalBelow n (Memory.write m a x) := by
  simpa [Memory.writeBytes] using h.writeBytes [x] (a := a) (by simpa using hx)

/-- A sequence is read exactly where each of its bytes is. -/
theorem Memory.readBytes_eq_some {m : Memory} {a n : Nat} {x : List Byte} :
    Memory.readBytes m a n = some x ↔ x.length = n ∧ HasBytes m a x := by
  induction n generalizing a x with
  | zero =>
    simp only [Memory.readBytes, Option.some.injEq, List.length_eq_zero_iff]
    constructor
    · rintro rfl
      exact ⟨rfl, fun k hk => absurd hk (by simp)⟩
    · rintro ⟨rfl, -⟩
      rfl
  | succ n ih =>
    rw [Memory.readBytes]
    constructor
    · intro h
      split at h
      · rename_i y z hy hz
        obtain ⟨hl, hb⟩ := ih.mp hz
        cases h
        refine ⟨by simpa using hl, fun k hk => ?_⟩
        cases k with
        | zero => simpa using hy
        | succ k =>
          rw [List.getElem?_cons_succ, show a + (k + 1) = a + 1 + k by omega]
          exact hb k (by simpa using hk)
      · cases h
    · rintro ⟨hl, hb⟩
      cases x with
      | nil => cases hl
      | cons y z =>
        have hy : Memory.read m a = some y := by simpa using hb 0 (by simp)
        have hz : Memory.readBytes m (a + 1) n = some z := by
          refine ih.mpr ⟨by simpa using hl, fun k hk => ?_⟩
          have := hb (k + 1) (by simpa using hk)
          rwa [List.getElem?_cons_succ, show a + (k + 1) = a + 1 + k by omega] at this
        rw [hy, hz]

/-- A sequence is not read exactly where one of its bytes has a clear mark. -/
theorem Memory.readBytes_eq_none {m : Memory} {a n : Nat} :
    Memory.readBytes m a n = none ↔ HasUnwritten m a (a + n) := by
  induction n generalizing a with
  | zero =>
    simp only [Memory.readBytes, reduceCtorEq, false_iff]
    rintro ⟨k, h1, h2, -⟩
    omega
  | succ n ih =>
    rw [Memory.readBytes]
    constructor
    · intro h
      split at h
      · cases h
      · rename_i hno
        cases hy : Memory.read m a with
        | none => exact ⟨a, Nat.le_refl a, by omega, hy⟩
        | some y =>
          cases hz : Memory.readBytes m (a + 1) n with
          | none =>
            obtain ⟨k, h1, h2, h3⟩ := ih.mp hz
            exact ⟨k, by omega, by omega, h3⟩
          | some z => exact absurd hz (hno y z hy)
    · rintro ⟨k, h1, h2, h3⟩
      split
      · rename_i y z hy hz
        rcases Nat.eq_or_lt_of_le h1 with rfl | h1
        · rw [h3] at hy
          cases hy
        · rw [ih.mpr ⟨k, h1, by omega, h3⟩] at hz
          cases hz
      · rfl

/-! Sequence counters. -/

@[simp] theorem SeqTable.read_nil (a : BitVec 11) : SeqTable.read [] a = 0 := rfl

@[simp] theorem SeqTable.read_write_same (t : SeqTable) (a : BitVec 11) (v : BitVec 14) :
    SeqTable.read (SeqTable.write t a v) a = v := by
  unfold SeqTable.read SeqTable.write
  split
  · rw [Sparse.get_del, if_pos rfl]
    exact (by assumption : v = 0).symm
  · rw [Sparse.get_put, if_pos rfl]
    rfl

theorem SeqTable.read_write_of_ne (t : SeqTable) {a a' : BitVec 11} (v : BitVec 14) (h : a' ≠ a) :
    SeqTable.read (SeqTable.write t a v) a' = SeqTable.read t a' := by
  have hn : a'.toNat ≠ a.toNat := fun e => h (BitVec.eq_of_toNat_eq e)
  unfold SeqTable.read SeqTable.write
  split
  · rw [Sparse.get_del, if_neg hn]
  · rw [Sparse.get_put, if_neg hn]

/-- Setting a counter keeps the table canonical, one counter an APID. -/
theorem CanonicalBelow.writeSeq {t : SeqTable} (a : BitVec 11) (v : BitVec 14) (h : CanonicalBelow 2048 t) :
    CanonicalBelow 2048 (SeqTable.write t a v) := by
  unfold SeqTable.write
  split
  · exact ⟨Sparse.sortedFrom_del _ h.sorted, fun e he => h.below e (Sparse.mem_del he)⟩
  · refine ⟨Sparse.sortedFrom_put v (Nat.zero_le _) h.sorted, fun e he => ?_⟩
    rcases Sparse.mem_put he with rfl | he
    · exact a.isLt
    · exact h.below e he

theorem SeqTable.write_nonzero {t : SeqTable} (a : BitVec 11) (v : BitVec 14) (h : ∀ e ∈ t, e.2 ≠ 0) :
    ∀ e ∈ SeqTable.write t a v, e.2 ≠ 0 := by
  intro e he
  unfold SeqTable.write at he
  split at he
  · exact h e (Sparse.mem_del he)
  · rcases Sparse.mem_put he with rfl | he
    · assumption
    · exact h e he

/-! The end of a command. -/

/-- Everything a command can leave as a next state: its writes with STATUS.ERR 0, or the state it started in with the
code of an error. -/
theorem finish_eq_next {s t : State} {r : Cmd State} :
    finish s r = .next t ↔ (∃ s', r = .ok s' ∧ t = s'.setErr 0) ∨ (∃ e, r = .raise e ∧ t = raiseError e s) := by
  cases r with
  | ok s' => simp [finish, eq_comm]
  | raise e => simp [finish, eq_comm]
  | uninit => simp [finish]

/-- A command faults only on an unwritten byte. -/
theorem finish_eq_fault {s : State} {r : Cmd State} {f : Fault} :
    finish s r = .fault f ↔ r = .uninit ∧ f = .uninitRead := by
  cases r <;> simp [finish, eq_comm]

/-- No command is refused. -/
theorem finish_ne_refused (s : State) (r : Cmd State) (f : Refusal) : finish s r ≠ .refused f := by
  cases r <;> simp [finish]

@[simp] theorem finish_ok (s s' : State) : finish s (.ok s') = .next (s'.setErr 0) := rfl

@[simp] theorem finish_raise (s : State) (e : Err) : finish s (.raise e) = .next (raiseError e s) := rfl

@[simp] theorem finish_uninit (s : State) : finish s .uninit = .fault .uninitRead := rfl

/-- Every error has a nonzero code of at most 12. -/
theorem Err.code_range (e : Err) : 1 ≤ e.code.toNat ∧ e.code.toNat ≤ 12 := by cases e <;> decide

theorem Err.code_ne_zero (e : Err) : e.code ≠ 0 := by cases e <;> decide

/-- Different errors have different codes. -/
theorem Err.code_injective {e e' : Err} (h : e.code = e'.code) : e = e' := by
  cases e <;> cases e' <;> first | rfl | exact absurd h (by decide)

/-! The parts of a command. -/

@[simp] theorem Cmd.bind_ok {α β : Type} (x : α) (f : α → Cmd β) : (Cmd.ok x).bind f = f x := rfl

@[simp] theorem Cmd.bind_raise {α β : Type} (e : Err) (f : α → Cmd β) : (Cmd.raise e).bind f = .raise e := rfl

@[simp] theorem Cmd.bind_uninit {α β : Type} (f : α → Cmd β) : Cmd.uninit.bind f = .uninit := rfl

theorem Cmd.bind_eq_ok {α β : Type} {x : Cmd α} {f : α → Cmd β} {y : β} :
    x.bind f = .ok y ↔ ∃ a, x = .ok a ∧ f a = .ok y := by cases x <;> simp

theorem Cmd.bind_eq_raise {α β : Type} {x : Cmd α} {f : α → Cmd β} {e : Err} :
    x.bind f = .raise e ↔ x = .raise e ∨ ∃ a, x = .ok a ∧ f a = .raise e := by cases x <;> simp

theorem Cmd.bind_eq_uninit {α β : Type} {x : Cmd α} {f : α → Cmd β} :
    x.bind f = .uninit ↔ x = .uninit ∨ ∃ a, x = .ok a ∧ f a = .uninit := by cases x <;> simp

/-- A command reads the bytes of IBUF it asks for, if each was written. -/
theorem State.memRead_eq_ok {s : State} {a n : Nat} {x : List Byte} :
    s.memRead a n = .ok x ↔ x.length = n ∧ HasBytes s.ibuf a x := by
  rw [← Memory.readBytes_eq_some, State.memRead]
  split <;> simp_all

/-- A command stops where one of the bytes it asks for was not written. -/
theorem State.memRead_eq_uninit {s : State} {a n : Nat} :
    s.memRead a n = .uninit ↔ HasUnwritten s.ibuf a (a + n) := by
  rw [← Memory.readBytes_eq_none, State.memRead]
  split <;> simp_all

theorem State.memRead_ne_raise (s : State) (a n : Nat) (e : Err) : s.memRead a n ≠ .raise e := by
  rw [State.memRead]
  split <;> simp

/-- The same of a state that differs outside IBUF. -/
theorem State.memRead_congr {s t : State} (h : s.ibuf = t.ibuf) (a n : Nat) : s.memRead a n = t.memRead a n := by
  rw [State.memRead, State.memRead, h]

/-- What the output of a command leaves in OBUF and OBUF_LEN. -/
theorem State.wroteOBuf_putOBuf (s : State) (x : List Byte) (h : x.length < 2 ^ 32) : WroteOBuf s (s.putOBuf x) x where
  len := by simpa using h
  bytes k hk := by rw [State.putOBuf_obuf, Memory.read_writeBytes, if_pos (by omega)]; simp
  rest a ha := by rw [State.putOBuf_obuf, Memory.read_writeBytes, if_neg (by omega)]

/-- `fit` passes a value that fits. -/
theorem fit_of_lt (c : Config) {v : Word} {w : Nat} (h : v.toNat < 2 ^ w) : fit c v w = .ok v := if_pos h

/-- `fit` stops no command on an unwritten byte. -/
theorem fit_ne_uninit (c : Config) (v : Word) (w : Nat) : fit c v w ≠ .uninit := by
  unfold fit
  split
  · simp
  · split <;> simp

/-- The only error of `fit` is FieldOverflow. -/
theorem fit_eq_raise {c : Config} {v : Word} {w : Nat} {e : Err} (h : fit c v w = .raise e) : e = .fieldOverflow := by
  unfold fit at h
  split at h
  · cases h
  · split at h <;> cases h
    rfl

/-- What `fit` passes has the width it was checked for. -/
theorem fit_lt {c : Config} {v x : Word} {w : Nat} (h : fit c v w = .ok x) : x.toNat < 2 ^ w := by
  unfold fit at h
  split at h
  · cases h
    assumption
  · split at h <;> cases h
    rw [BitVec.toNat_ofNat]
    exact Nat.lt_of_le_of_lt (Nat.mod_le _ _) (Nat.mod_lt _ (Nat.two_pow_pos w))

/-- The count `nextSeq` gives leaves the counters canonical. -/
theorem CanonicalBelow.nextSeq {c : Config} {a : BitVec 11} {t : SeqTable} (h : CanonicalBelow 2048 t) :
    CanonicalBelow 2048 (Machine.nextSeq c a t).2 := by
  unfold Machine.nextSeq
  split
  · exact h
  · exact h.writeSeq a _

theorem nextSeq_nonzero {c : Config} {a : BitVec 11} {t : SeqTable} (h : ∀ e ∈ t, e.2 ≠ 0) :
    ∀ e ∈ (nextSeq c a t).2, e.2 ≠ 0 := by
  unfold nextSeq
  split
  · exact h
  · exact SeqTable.write_nonzero a _ h

/-! The block's parameters (00_scope.md R9). -/

@[simp] theorem block_bufCap : block.bufCap = 65542 := (rfl)
@[simp] theorem block_versionConst : block.versionConst = 0 := (rfl)
@[simp] theorem block_secLen : block.secLen = 8 := (rfl)
@[simp] theorem block_shLayout : block.shLayout = defaultLayout := (rfl)
@[simp] theorem defaultLayout_widths : defaultLayout.widths = ⟨8, 1, 7, 2, 14, 32⟩ := rfl
@[simp] theorem defaultLayout_enc (h : SecHdr) : defaultLayout.enc h = encSH h := rfl
@[simp] theorem defaultLayout_dec (x : List Byte) : defaultLayout.dec x = decSH x := rfl
@[simp] theorem block_seqFlagUnseg : block.seqFlagUnseg = 3 := (rfl)
@[simp] theorem block_seqMode : block.seqMode = .perApid := (rfl)
@[simp] theorem block_overflowPolicy : block.overflowPolicy = .fault := (rfl)
@[simp] theorem block_broadcastAppliesLocal : block.broadcastAppliesLocal = false := (rfl)
@[simp] theorem block_canMax : block.canMax = 8 := (rfl)
@[simp] theorem block_canFdMax : block.canFdMax = 64 := (rfl)
@[simp] theorem block_udpMax : block.udpMax = 1024 := (rfl)
@[simp] theorem block_mstReset : block.mstReset = 0 := (rfl)
@[simp] theorem udfCap_eq : udfCap = 65536 := (rfl)

/-! Lengths on the wire. -/

@[simp] theorem be16_length (v : BitVec 16) : (be16 v).length = 2 := rfl

@[simp] theorem be32_length (v : Word) : (be32 v).length = 4 := rfl

@[simp] theorem encPH_length (p : PriHdr) : (encPH p).length = 6 := rfl

@[simp] theorem encSH_length (h : SecHdr) : (encSH h).length = 8 := rfl

/-- The range check of a secondary header, field by field. -/
theorem SecHdr.inRange_iff {w : ShWidths} {h : SecHdr} :
    h.inRange w = true ↔
      h.cat.toNat < 2 ^ w.cat ∧ h.aduUse.toNat < 2 ^ w.aduUse ∧ h.aduCh.toNat < 2 ^ w.aduCh ∧
        h.aduSegf.toNat < 2 ^ w.aduSegf ∧ h.aduCnt.toNat < 2 ^ w.aduCnt ∧ h.time.toNat < 2 ^ w.time := by
  simp [SecHdr.inRange, and_assoc]

/-- A header of zeros is in range whatever the widths are. -/
@[simp] theorem zeroSecHdr_inRange (w : ShWidths) : zeroSecHdr.inRange w = true := by
  simp [SecHdr.inRange, zeroSecHdr]

/-- Whatever the default layout decodes has the default widths. -/
theorem decSH_inRange (x : List Byte) : (decSH x).inRange defaultWidths = true := by
  have h (n m : Nat) (v : BitVec n) (hn : n ≤ m) : (v.setWidth 32).toNat < 2 ^ m :=
    Nat.lt_of_le_of_lt (by rw [BitVec.toNat_setWidth]; exact Nat.mod_le _ _)
      (Nat.lt_of_lt_of_le v.isLt (Nat.pow_le_pow_right (by decide) hn))
  refine SecHdr.inRange_iff.mpr ⟨h 8 8 _ (by decide), h 1 1 _ (by decide), h 7 7 _ (by decide), h 2 2 _ (by decide), ?_,
    BitVec.isLt _⟩
  rw [decSH, BitVec.toNat_or]
  refine Nat.or_lt_two_pow ?_ (h 8 14 _ (by decide))
  have := h 6 6 ((byteAt x 2).extractLsb' 0 6) (by decide)
  rw [BitVec.toNat_shiftLeft, Nat.shiftLeft_eq]
  simp only [defaultWidths]
  omega

/-- A sensor value takes at most four bytes. -/
theorem minBE_length_le (v : Word) : (minBE v).length ≤ 4 := by
  unfold minBE
  split
  · simp
  · split <;> simp

/-- A serialized packet has six bytes more than its data field (30_encoding.md R73, R74). -/
theorem Packet.bytes_length {c : Config} (hc : c.shLayout.Lawful) (p : Packet) :
    (p.bytes c).length = 6 + p.dataLen c := by
  unfold Packet.bytes Packet.dataLen Packet.secLen Config.secLen
  split <;> simp [hc.enc_length]

/-! The port. -/

/-- The step takes the next transaction and serves it; with none it changes nothing. -/
theorem step_cons {s : State} {t : Transaction} {rest : List Transaction} (h : s.pending = t :: rest) :
    step s = serve t (s.accept rest) := by
  rw [step, portStep, h]

theorem step_nil {s : State} (h : s.pending = []) : step s = .next s := by
  rw [step, portStep, h]

theorem serve_writeCmd (w : Word) (s : State) : serve (.writeReg 0 w) s = writeCmd w s := rfl

theorem writeCmd_of_ok {w : Word} {i : Instr} (h : decode w = .ok i) (s : State) : writeCmd w s = exec i s := by
  rw [writeCmd, h]

theorem writeCmd_of_error {w : Word} {e : Illegal} (h : decode w = .error e) (s : State) :
    writeCmd w s = .next (raiseError .illegalCommand s) := by
  rw [writeCmd, h]

end Sys2Proof.Machine
end

