-- ==== Sys2Proof/Laws/Commands.lean ====
section
/-! SUPPORT. What each command can end with, once each: the state it makes where it ends `ok`, under the conditions its
rule gives. Later proofs cite these and unfold no command. -/

namespace Sys2Proof.Machine

/-! Each command ends as its pseudocode ends; exec adds the commit or the error entry. -/

section Exec
variable (b : Bank) (sel : BitVec 4) (s : State)

theorem exec_new : exec (.new b) s = finish s (newCmd block b s) := rfl
theorem exec_phEncode : exec (.phEncode b) s = finish s (phEncodeCmd b s) := rfl
theorem exec_phDecode : exec (.phDecode b) s = finish s (phDecodeCmd block b s) := rfl
theorem exec_shEncode : exec (.shEncode b) s = finish s (shEncodeCmd block b s) := rfl
theorem exec_shDecode : exec (.shDecode b) s = finish s (shDecodeCmd block b s) := rfl
theorem exec_serialize : exec (.serialize b) s = finish s (serializeCmd block b s) := rfl
theorem exec_interpret : exec (.interpret b) s = finish s (interpretCmd block b s) := rfl
theorem exec_setUserData : exec (.setUserData b) s = finish s (setUserDataCmd block b s) := rfl
theorem exec_getUserData : exec (.getUserData b) s = finish s (getUserDataCmd b s) := rfl
theorem exec_getField : exec (.getField b sel) s = finish s (getFieldCmd b sel s) := rfl
theorem exec_setField : exec (.setField b sel) s = finish s (setFieldCmd block b sel s) := rfl
theorem exec_clone : exec (.clone b) s = finish s (cloneCmd b s) := rfl
theorem exec_wrapStatus : exec (.wrapStatus b) s = finish s (wrapStatusCmd block b s) := rfl
theorem exec_wrapSensor : exec (.wrapSensor b) s = finish s (wrapSensorCmd block b s) := rfl
theorem exec_route : exec (.route b) s = finish s (routeCmd block b s) := rfl
theorem exec_checkSize : exec (.checkSize sel) s = finish s (checkSizeCmd block sel s) := rfl

end Exec

/-- The same of any command. -/
theorem exec_eq_finish (i : Instr) (s : State) : ∃ r, exec i s = finish s r := by
  cases i with
  | new b => exact ⟨_, exec_new b s⟩
  | phEncode b => exact ⟨_, exec_phEncode b s⟩
  | phDecode b => exact ⟨_, exec_phDecode b s⟩
  | shEncode b => exact ⟨_, exec_shEncode b s⟩
  | shDecode b => exact ⟨_, exec_shDecode b s⟩
  | serialize b => exact ⟨_, exec_serialize b s⟩
  | interpret b => exact ⟨_, exec_interpret b s⟩
  | setUserData b => exact ⟨_, exec_setUserData b s⟩
  | getUserData b => exact ⟨_, exec_getUserData b s⟩
  | getField b sel => exact ⟨_, exec_getField b sel s⟩
  | setField b sel => exact ⟨_, exec_setField b sel s⟩
  | clone b => exact ⟨_, exec_clone b s⟩
  | wrapStatus b => exact ⟨_, exec_wrapStatus b s⟩
  | wrapSensor b => exact ⟨_, exec_wrapSensor b s⟩
  | route b => exact ⟨_, exec_route b s⟩
  | checkSize sel => exact ⟨_, exec_checkSize sel s⟩

theorem exec_ne_refused (i : Instr) (s : State) (r : Refusal) : exec i s ≠ .refused r := by
  obtain ⟨x, h⟩ := exec_eq_finish i s
  rw [h]
  exact finish_ne_refused s x r

theorem phDecodeCmd_eq_ok {c : Config} {b : Bank} {s t : State} :
    phDecodeCmd c b s = .ok t ↔
      s.arg0.toNat ≤ c.bufCap ∧ 6 ≤ s.arg0.toNat ∧
        ∃ x, s.memRead 0 6 = .ok x ∧ t = s.setBank b { s.bank b with pri := decPH x } := by
  unfold phDecodeCmd State.availOperand
  split
  · simp only [reduceCtorEq, false_iff]; omega
  · split
    · simp only [reduceCtorEq, false_iff]; omega
    · rw [Cmd.bind_eq_ok]
      constructor
      · rintro ⟨x, hx, h⟩; cases h
        exact ⟨by omega, by omega, x, hx, rfl⟩
      · rintro ⟨-, -, x, hx, rfl⟩
        exact ⟨x, hx, rfl⟩

theorem shDecodeCmd_eq_ok {c : Config} {b : Bank} {s t : State} :
    shDecodeCmd c b s = .ok t ↔
      s.arg0.toNat + s.arg1.toNat ≤ c.bufCap ∧ c.secLen ≤ s.arg1.toNat ∧
        ∃ x, s.memRead s.arg0.toNat c.secLen = .ok x ∧ t = s.setBank b { s.bank b with sec := c.shLayout.dec x } := by
  unfold shDecodeCmd State.offsetOperand State.remainingOperand
  split
  · simp only [reduceCtorEq, false_iff]; omega
  · split
    · simp only [reduceCtorEq, false_iff]; omega
    · rw [Cmd.bind_eq_ok]
      constructor
      · rintro ⟨x, hx, h⟩; cases h
        exact ⟨by omega, by omega, x, hx, rfl⟩
      · rintro ⟨-, -, x, hx, rfl⟩
        exact ⟨x, hx, rfl⟩

theorem serializeCmd_eq_ok {c : Config} {b : Bank} {s t : State} :
    serializeCmd c b s = .ok t ↔
      1 ≤ (s.bank b).dataLen c ∧ (s.bank b).dataLen c ≤ 65536 ∧
        t = (s.setBank b ((s.bank b).withDataLen ((s.bank b).dataLen c))).putOBuf
          (((s.bank b).withDataLen ((s.bank b).dataLen c)).bytes c) := by
  unfold serializeCmd
  split
  · simp only [reduceCtorEq, false_iff]; omega
  · split
    · simp only [reduceCtorEq, false_iff]; omega
    · simp only [Cmd.ok.injEq]
      constructor
      · rintro rfl
        exact ⟨by omega, by omega, rfl⟩
      · rintro ⟨-, -, rfl⟩
        rfl

/-- The packet INTERPRET makes has the header it was given, user data that fits its declared length, and a secondary
header of zeros or as decoded. -/
theorem interpretBody_eq_ok {c : Config} {h : PriHdr} {s : State} {p : Packet} (hp : interpretBody c h s = .ok p) :
    p.pri = h ∧ p.udf.length ≤ 65536 ∧
      (p.sec = zeroSecHdr ∨ ∃ y, y.length = c.secLen ∧ p.sec = c.shLayout.dec y) := by
  unfold interpretBody at hp
  split at hp
  · obtain ⟨u, hu, hp⟩ := Cmd.bind_eq_ok.mp hp
    cases hp
    have := (State.memRead_eq_ok.mp hu).1
    exact ⟨rfl, by dsimp only; omega, .inl rfl⟩
  · split at hp
    · cases hp
    · obtain ⟨y, hy, hp⟩ := Cmd.bind_eq_ok.mp hp
      obtain ⟨u, hu, hp⟩ := Cmd.bind_eq_ok.mp hp
      cases hp
      have := (State.memRead_eq_ok.mp hu).1
      exact ⟨rfl, by dsimp only; omega, .inr ⟨y, (State.memRead_eq_ok.mp hy).1, rfl⟩⟩

theorem interpretCmd_eq_ok {c : Config} {b : Bank} {s t : State} :
    interpretCmd c b s = .ok t ↔
      s.arg0.toNat ≤ c.bufCap ∧ 6 ≤ s.arg0.toNat ∧
        ∃ x p, s.memRead 0 6 = .ok x ∧ (decPH x).pdl.toNat + 1 + 6 ≤ s.arg0.toNat ∧
          interpretBody c (decPH x) s = .ok p ∧ t = s.setBank b p := by
  unfold interpretCmd State.lengthOperand
  split
  · simp only [reduceCtorEq, false_iff]; omega
  · split
    · simp only [reduceCtorEq, false_iff]; omega
    · rw [Cmd.bind_eq_ok]
      constructor
      · rintro ⟨x, hx, h⟩
        split at h
        · cases h
        · obtain ⟨p, hp, h⟩ := Cmd.bind_eq_ok.mp h
          cases h
          exact ⟨by omega, by omega, x, p, hx, by omega, hp, rfl⟩
      · rintro ⟨-, -, x, p, hx, hl, hp, rfl⟩
        refine ⟨x, hx, ?_⟩
        rw [if_neg (by omega), hp]
        rfl

theorem setUserDataCmd_eq_ok {c : Config} {b : Bank} {s t : State} :
    setUserDataCmd c b s = .ok t ↔
      s.arg0.toNat ≤ c.bufCap ∧ 1 ≤ (s.bank b).secLen c + s.arg0.toNat ∧
        (s.bank b).secLen c + s.arg0.toNat ≤ 65536 ∧
        ∃ u, s.memRead 0 s.arg0.toNat = .ok u ∧
          t = s.setBank b (Packet.withDataLen { s.bank b with udf := u } ((s.bank b).secLen c + s.arg0.toNat)) := by
  unfold setUserDataCmd State.countOperand
  split
  · simp only [reduceCtorEq, false_iff]; omega
  · split
    · simp only [reduceCtorEq, false_iff]; omega
    · split
      · simp only [reduceCtorEq, false_iff]; omega
      · rw [Cmd.bind_eq_ok]
        constructor
        · rintro ⟨x, hx, h⟩; cases h
          exact ⟨by omega, by omega, by omega, x, hx, rfl⟩
        · rintro ⟨-, -, -, x, hx, rfl⟩
          exact ⟨x, hx, rfl⟩

theorem getFieldCmd_eq_ok {b : Bank} {sel : BitVec 4} {s t : State} :
    getFieldCmd b sel s = .ok t ↔ ∃ f, Field.ofSel sel = some f ∧ t = s.setRes0 ((s.bank b).get f) := by
  unfold getFieldCmd
  cases Field.ofSel sel with
  | none => simp
  | some f => simp [eq_comm]

theorem setFieldCmd_eq_ok {c : Config} {b : Bank} {sel : BitVec 4} {s t : State} :
    setFieldCmd c b sel s = .ok t ↔
      ∃ f v, Field.ofSel sel = some f ∧ f.readOnly = false ∧ fit c s.arg0 (f.width c) = .ok v ∧
        t = s.setBank b ((s.bank b).set f v) := by
  unfold setFieldCmd
  cases Field.ofSel sel with
  | none => simp
  | some f =>
    cases hr : f.readOnly with
    | true =>
      simp only [hr, if_true, reduceCtorEq, Option.some.injEq, false_iff, not_exists, not_and]
      rintro _ v rfl h
      rw [hr] at h
      cases h
    | false =>
      simp only [hr, Bool.false_eq_true, if_false, Cmd.bind_eq_ok, Cmd.ok.injEq, Option.some.injEq]
      constructor
      · rintro ⟨v, hv, rfl⟩
        exact ⟨f, v, rfl, hr, hv, rfl⟩
      · rintro ⟨_, v, rfl, -, hv, rfl⟩
        exact ⟨v, hv, rfl⟩

/-- A field set to a value of its width leaves the secondary header in range. -/
theorem Packet.set_inRange {c : Config} {p : Packet} {f : Field} {v : Word} (hv : v.toNat < 2 ^ f.width c)
    (h : p.sec.inRange c.shLayout.widths = true) : (p.set f v).sec.inRange c.shLayout.widths = true := by
  rw [SecHdr.inRange_iff] at h ⊢
  obtain ⟨h1, h2, h3, h4, h5, h6⟩ := h
  cases f <;> exact ⟨by assumption, by assumption, by assumption, by assumption, by assumption, by assumption⟩

theorem wrapStatusCmd_eq_ok {c : Config} {b : Bank} {s t : State} :
    wrapStatusCmd c b s = .ok t ↔
      ∃ v, fit c s.arg0 16 = .ok v ∧ t = s.wrap c b c.statusApid (be16 (v.setWidth 16)) := by
  simp only [wrapStatusCmd, State.codeOperand, Cmd.bind_eq_ok, Cmd.ok.injEq]
  constructor
  · rintro ⟨_, ⟨v, hv, rfl⟩, rfl⟩
    exact ⟨v, hv, rfl⟩
  · rintro ⟨v, hv, rfl⟩
    exact ⟨_, ⟨v, hv, rfl⟩, rfl⟩

theorem wrapSensorCmd_eq_ok {c : Config} {b : Bank} {s t : State} :
    wrapSensorCmd c b s = .ok t ↔
      ∃ v, fit c s.arg0 16 = .ok v ∧ t = s.wrap c b c.sensorApid (be16 (v.setWidth 16) ++ minBE s.arg1) := by
  simp only [wrapSensorCmd, State.sensorIdOperand, Cmd.bind_eq_ok, Cmd.ok.injEq]
  constructor
  · rintro ⟨_, ⟨v, hv, rfl⟩, rfl⟩
    exact ⟨v, hv, rfl⟩
  · rintro ⟨v, hv, rfl⟩
    exact ⟨_, ⟨v, hv, rfl⟩, rfl⟩

/-- A user data field of two bytes or more is its first two bytes and the rest. -/
theorem udf_split {u : List Byte} (h : 2 ≤ u.length) : ∃ x y rest, u = x :: y :: rest := by
  match u, h with
  | x :: y :: rest, _ => exact ⟨x, y, rest, rfl⟩

theorem routeCmd_eq_ok {c : Config} {b : Bank} {s t : State} :
    routeCmd c b s = .ok t ↔
      2 ≤ (s.bank b).udf.length ∧
        routeByClass c (s.bank b).udf s (c.routeClass ((routeCode (s.bank b).udf).extractLsb' 12 4)) = .ok t := by
  unfold routeCmd
  split
  · simp only [reduceCtorEq, false_iff]; omega
  · exact ⟨fun h => ⟨by omega, h⟩, fun h => h.2⟩

theorem checkSizeCmd_eq_ok {c : Config} {sel : BitVec 4} {s t : State} :
    checkSizeCmd c sel s = .ok t ↔
      ∃ k, Transport.ofSel sel = some k ∧ s.obufLen.toNat ≤ k.limit c ∧ t = s := by
  unfold checkSizeCmd
  cases Transport.ofSel sel with
  | none => simp
  | some k =>
    dsimp only
    split
    · simp only [reduceCtorEq, Option.some.injEq, false_iff, not_exists, not_and]
      rintro _ rfl h
      omega
    · simp only [Cmd.ok.injEq, Option.some.injEq]
      constructor
      · rintro rfl
        exact ⟨k, rfl, by omega, rfl⟩
      · rintro ⟨_, rfl, -, rfl⟩
        rfl

end Sys2Proof.Machine
end

