-- ==== Sys2Proof/Laws/Inv.lean ====
section
/-! SUPPORT. Each shared operation over the state keeps the invariant of the block. -/

namespace Sys2Proof.Machine

/-- The invariant rests on the banks, OBUF_LEN, the counters and the buffers only. -/
theorem Inv.congr {s t : State} (h : Inv s) (h0 : t.pkt0 = s.pkt0) (h1 : t.pkt1 = s.pkt1) (hl : t.obufLen = s.obufLen)
    (hc : t.seqCtr = s.seqCtr) (hi : t.ibuf = s.ibuf) (ho : t.obuf = s.obuf) : Inv t where
  ibuf := hi ▸ h.ibuf
  obuf := ho ▸ h.obuf
  seqCtr := hc ▸ h.seqCtr
  seqCtr_nonzero := hc ▸ h.seqCtr_nonzero
  udf b := by
    cases b with
    | b0 => exact (congrArg (fun p => p.udf.length) h0).trans_le (h.udf .b0)
    | b1 => exact (congrArg (fun p => p.udf.length) h1).trans_le (h.udf .b1)
  sec b := by
    cases b with
    | b0 => exact (congrArg (fun p => p.sec.inRange block.shLayout.widths) h0).trans (h.sec .b0)
    | b1 => exact (congrArg (fun p => p.sec.inRange block.shLayout.widths) h1).trans (h.sec .b1)
  obufLen := hl ▸ h.obufLen
  obufWritten a ha := by
    rw [ho]
    exact h.obufWritten a (hl ▸ ha)

variable {s : State} (h : Inv s)
include h

theorem Inv.setErr (e : BitVec 8) : Inv (s.setErr e) := h.congr rfl rfl rfl rfl rfl rfl

theorem Inv.respond (r : Response) : Inv (s.respond r) := h.congr rfl rfl rfl rfl rfl rfl

theorem Inv.accept (rest : List Transaction) : Inv (s.accept rest) := h.congr rfl rfl rfl rfl rfl rfl

theorem Inv.setRes (r0 r1 r2 : Word) : Inv (s.setRes r0 r1 r2) := h.congr rfl rfl rfl rfl rfl rfl

theorem Inv.setRes0 (r0 : Word) : Inv (s.setRes0 r0) := h.congr rfl rfl rfl rfl rfl rfl

theorem Inv.setMainStateTc (v : BitVec 16) : Inv (s.setMainStateTc v) := h.congr rfl rfl rfl rfl rfl rfl

theorem Inv.setBank (b : Bank) {p : Packet} (hp : p.udf.length ≤ udfCap)
    (hs : p.sec.inRange block.shLayout.widths = true) : Inv (s.setBank b p) where
  ibuf := h.ibuf
  obuf := h.obuf
  seqCtr := h.seqCtr
  seqCtr_nonzero := h.seqCtr_nonzero
  udf b' := by
    have := h.udf b'
    cases b <;> cases b' <;> assumption
  sec b' := by
    have := h.sec b'
    cases b <;> cases b' <;> assumption
  obufLen := h.obufLen
  obufWritten := h.obufWritten

theorem Inv.putOBuf {x : List Byte} (hx : x.length ≤ block.bufCap) : Inv (s.putOBuf x) where
  ibuf := h.ibuf
  obuf := h.obuf.writeBytes x (by omega)
  seqCtr := h.seqCtr
  seqCtr_nonzero := h.seqCtr_nonzero
  udf b := by
    cases b with
    | b0 => exact h.udf .b0
    | b1 => exact h.udf .b1
  sec b := by
    cases b with
    | b0 => exact h.sec .b0
    | b1 => exact h.sec .b1
  obufLen := by
    rw [State.putOBuf_obufLen, BitVec.toNat_ofNat]
    exact Nat.le_trans (Nat.mod_le _ _) hx
  obufWritten a ha := by
    rw [State.putOBuf_obufLen, BitVec.toNat_ofNat] at ha
    have := Nat.lt_of_lt_of_le ha (Nat.mod_le _ _)
    rw [State.putOBuf_obuf, Memory.read_writeBytes, if_pos (by omega)]
    simpa using this

theorem Inv.setSeqCtr {t : SeqTable} (ht : CanonicalBelow 2048 t) (hz : ∀ e ∈ t, e.2 ≠ 0) : Inv (s.setSeqCtr t) where
  ibuf := h.ibuf
  obuf := h.obuf
  seqCtr := ht
  seqCtr_nonzero := hz
  udf b := by
    cases b with
    | b0 => exact h.udf .b0
    | b1 => exact h.udf .b1
  sec b := by
    cases b with
    | b0 => exact h.sec .b0
    | b1 => exact h.sec .b1
  obufLen := h.obufLen
  obufWritten := h.obufWritten

theorem Inv.wrap (b : Bank) (apid : BitVec 11) {u : List Byte} (hu : u.length ≤ udfCap) :
    Inv (s.wrap block b apid u) :=
  (h.setSeqCtr h.seqCtr.nextSeq (nextSeq_nonzero h.seqCtr_nonzero)).setBank b hu rfl

end Sys2Proof.Machine
end

