-- ==== Sys2Proof/Laws/PerInstr.lean ====
section
/-! SUPPORT. A law of every instruction as syntax, one lemma a constructor: the reserved fields of its command word are
zero, and its opcode byte is an opcode of the map (30_encoding.md R82, R83). -/

namespace Sys2Proof.Laws.EncodedFields

/-- The command word of an instruction has RSV0 and RSV1 zero, and some row of the opcode map has its opcode. -/
abbrev Statement (i : Instr) : Prop :=
  rsv0Of (encode i) = 0 ∧ rsv1Of (encode i) = 0 ∧
    opcodeTable.any (fun r => r.pattern.extractLsb' 0 8 == opcOf (encode i)) = true

theorem new (b : Bank) : Statement (.new b) := by cases b <;> decide
theorem phEncode (b : Bank) : Statement (.phEncode b) := by cases b <;> decide
theorem phDecode (b : Bank) : Statement (.phDecode b) := by cases b <;> decide
theorem shEncode (b : Bank) : Statement (.shEncode b) := by cases b <;> decide
theorem shDecode (b : Bank) : Statement (.shDecode b) := by cases b <;> decide
theorem serialize (b : Bank) : Statement (.serialize b) := by cases b <;> decide
theorem interpret (b : Bank) : Statement (.interpret b) := by cases b <;> decide
theorem setUserData (b : Bank) : Statement (.setUserData b) := by cases b <;> decide
theorem getUserData (b : Bank) : Statement (.getUserData b) := by cases b <;> decide
theorem getField (b : Bank) (sel : BitVec 4) : Statement (.getField b sel) := by
  cases b <;> revert sel <;> decide
theorem setField (b : Bank) (sel : BitVec 4) : Statement (.setField b sel) := by
  cases b <;> revert sel <;> decide
theorem clone (b : Bank) : Statement (.clone b) := by cases b <;> decide
theorem wrapStatus (b : Bank) : Statement (.wrapStatus b) := by cases b <;> decide
theorem wrapSensor (b : Bank) : Statement (.wrapSensor b) := by cases b <;> decide
theorem route (b : Bank) : Statement (.route b) := by cases b <;> decide
theorem checkSize (sel : BitVec 4) : Statement (.checkSize sel) := by revert sel; decide

end Sys2Proof.Laws.EncodedFields
end

