-- ==== Sys2Proof/Tests/Slice0.lean ====
section
/-! SUPPORT. Tests with results from the spec (the vectors of 95_test_vectors.md and the examples of the rules), the
well-formedness smoke tests, and a witness for the hypotheses of every obligation that has some. -/

namespace Sys2Proof.Tests

open Sys2Proof.Machine

/-! ## Helpers -/

/-- The `ROUTE_CLASS` of the example configuration EX (95_test_vectors.md section 1). -/
def exRoute (n : BitVec 4) : RouteClass :=
  if n = 1 then .loc
  else if 2 ≤ n.toNat ∧ n.toNat ≤ 6 then .forward (n.setWidth 32)
  else if n = 15 then .broadcast
  else .invalid

/-- The example configuration EX (95_test_vectors.md section 1). -/
def ex : Config := { block with statusApid := 0x100, sensorApid := 0x101, routeClass := exRoute }

/-- The reset state. -/
def rst : State := State.resetWith ex

/-- A packet with the given primary header fields and user data, PDL `pdl`, every secondary header field 0. -/
def pkt (typ shf : BitVec 1) (apid : BitVec 11) (seqf : BitVec 2) (seqc : BitVec 14) (pdl : BitVec 16)
    (udf : List Byte) : Packet := ⟨⟨0, typ, shf, apid, seqf, seqc, pdl⟩, ⟨0, 0, 0, 0, 0, 0⟩, udf⟩

/-- The state with bytes written to IBUF from an address on. -/
def load (a : Nat) (x : List Byte) (s : State) : State := { s with ibuf := Memory.writeBytes s.ibuf a x }

/-- What a function of the state gives after a command. -/
def after {α : Type} (o : Host.Outcome State Fault Refusal) (f : State → α) : Option α :=
  match o with
  | .next t => some (f t)
  | .fault _ => none
  | .refused _ => none

/-- STATUS.ERR after a command. -/
def err (o : Host.Outcome State Fault Refusal) : Option Nat := after o fun t => t.statusErr.toNat

/-- The first `n` bytes of OBUF after a command, with OBUF_LEN. -/
def out (n : Nat) (o : Host.Outcome State Fault Refusal) : Option (Option (List Byte) × Nat) :=
  after o fun t => (Memory.readBytes t.obuf 0 n, t.obufLen.toNat)

/-- The outcome is the fault `UninitRead`. -/
def stopsUninit : Host.Outcome State Fault Refusal → Bool
  | .fault .uninitRead => true
  | .next _ => false
  | .refused _ => false

/-! ## Well-formedness: an ill-formed term for each check -/

theorem test_selector_wf : (Instr.getField .b0 13).selectorDefined = true ∧ (Instr.getField .b0 14).selectorDefined = false ∧
    (Instr.setField .b1 15).selectorDefined = false ∧ (Instr.checkSize 2).selectorDefined = true ∧
    (Instr.checkSize 3).selectorDefined = false := by decide

theorem test_transaction_wf : (Transaction.writeReg 2 0).wf ex = true ∧ (Transaction.writeReg 3 0).wf ex = false ∧
    (Transaction.readReg 0).wf ex = false ∧ (Transaction.readReg 8).wf ex = true ∧
    (Transaction.readReg 9).wf ex = false ∧ (Transaction.writeIBuf 65541 255).wf ex = true ∧
    (Transaction.writeIBuf 65542 0).wf ex = false ∧ (Transaction.writeIBuf 0 256).wf ex = false ∧
    (Transaction.readIBuf 65542).wf ex = false ∧ (Transaction.readOBuf 65542).wf ex = false ∧
    Transaction.reset.wf ex = true := by decide

theorem test_packet_wf : (Packet.wf ex { emptyPacket ex with udf := List.replicate 65536 0 }) = true ∧
    (Packet.wf ex { emptyPacket ex with udf := List.replicate 65537 0 }) = false ∧
    (Packet.wf ex { emptyPacket ex with sec := ⟨0xFF, 1, 0x7F, 3, 0x3FFF, 0xFFFFFFFF⟩ }) = true ∧
    (Packet.wf ex { emptyPacket ex with sec := ⟨0x100, 0, 0, 0, 0, 0⟩ }) = false ∧
    (Packet.wf ex { emptyPacket ex with sec := ⟨0, 2, 0, 0, 0, 0⟩ }) = false ∧
    (Packet.wf ex { emptyPacket ex with sec := ⟨0, 0, 0x80, 0, 0, 0⟩ }) = false ∧
    (Packet.wf ex { emptyPacket ex with sec := ⟨0, 0, 0, 4, 0, 0⟩ }) = false ∧
    (Packet.wf ex { emptyPacket ex with sec := ⟨0, 0, 0, 0, 0x4000, 0⟩ }) = false := by
  refine ⟨?_, ?_, by decide, by decide, by decide, by decide, by decide, by decide⟩ <;>
    (unfold Packet.wf; rw [List.length_replicate]; decide)

/-- A layout of its own: a one-byte secondary header that is CAT alone, the other five fields of width 0. -/
def catLayout : ShLayout where
  widths := ⟨8, 0, 0, 0, 0, 0⟩
  secLen := 1
  enc h := [h.cat.setWidth 8]
  dec x := ⟨(byteAt x 0).setWidth 32, 0, 0, 0, 0, 0⟩

theorem catLayout_lawful : catLayout.Lawful where
  widths := rfl
  enc_length _ := rfl
  dec_enc h hr := by
    obtain ⟨cat, use, ch, segf, cnt, time⟩ := h
    obtain ⟨h1, h2, h3, h4, h5, h6⟩ := SecHdr.inRange_iff.mp hr
    have z (v : Word) (hv : v.toNat < 2 ^ 0) : v = 0 := BitVec.eq_of_toNat_eq (by simpa using hv)
    obtain rfl := z use h2
    obtain rfl := z ch h3
    obtain rfl := z segf h4
    obtain rfl := z cnt h5
    obtain rfl := z time h6
    have hc : (cat.setWidth 8).setWidth 32 = cat := BitVec.eq_of_toNat_eq (by
      simp only [catLayout] at h1
      simp only [BitVec.toNat_setWidth]
      omega)
    exact congrArg (fun v => SecHdr.mk v 0 0 0 0 0) hc
  dec_inRange x _ := SecHdr.inRange_iff.mpr ⟨by
    simp only [catLayout, BitVec.toNat_setWidth]
    omega, Nat.one_pos, Nat.one_pos, Nat.one_pos, Nat.one_pos, Nat.one_pos⟩

/-- EX with that layout. -/
def catEx : Config := { ex with shLayout := catLayout }

theorem catEx_valid : catEx.Valid := ⟨by decide, catLayout_lawful⟩

/-- SET_FIELD checks the layout's width of a field, and SERIALIZE writes SEC_LEN bytes of the layout's encoding
(30_encoding.md R75, R85, 41_packet_model.md R111, R116). -/
theorem test_layout_widths :
    (let s := { rst with arg0 := 1 }
     err (finish s (setFieldCmd catEx .b0 9 s))) = some 6 ∧
    (let s := { rst with arg0 := 0xFF }
     after (finish s (setFieldCmd catEx .b0 7 s)) (fun t => t.pkt0.sec.cat)) = some 0xFF ∧
    (let s := { rst with pkt0 := ⟨⟨0, 0, 1, 0, 0, 0, 0⟩, ⟨0x5A, 0, 0, 0, 0, 0⟩, [0xAA]⟩ }
     out 8 (finish s (serializeCmd catEx .b0 s))) = some (some [0x08, 0, 0, 0, 0, 0x01, 0x5A, 0xAA], 8) := by decide

/-- A layout may give a field any width up to 32 (30_encoding.md R75). -/
theorem test_widths_fit32 : defaultWidths.fit32 = true ∧ (ShWidths.mk 33 1 7 2 14 32).fit32 = false := by decide

theorem test_config_wf : ex.wf = true ∧ ({ ex with bufCap := 65541 } : Config).wf = false ∧
    ({ ex with statusApid := 0x7FF } : Config).wf = false ∧ ({ ex with sensorApid := 0x7FF } : Config).wf = false ∧
    ({ ex with shLayout := ⟨defaultWidths, 0, fun _ => [], fun _ => ⟨0, 0, 0, 0, 0, 0⟩⟩ } : Config).wf = false ∧
    ({ ex with canFdMax := 1025 } : Config).wf = false ∧ ({ ex with canMax := 65 } : Config).wf = false := by decide

/-! ## Decoding: words written out from 30_encoding.md R82, as RSV0, SEL, RSV1, B, OPC -/

theorem test_decode_new : decodeTableWord 32 0b0000000000000000_0000_000_1_00000001 = some (.new .b1) := by decide
theorem test_decode_phEncode : decodeTableWord 32 0b0000000000000000_0000_000_0_00000010 = some (.phEncode .b0) := by
  decide
theorem test_decode_phDecode : decodeTableWord 32 0b0000000000000000_0000_000_1_00000011 = some (.phDecode .b1) := by
  decide
theorem test_decode_shEncode : decodeTableWord 32 0b0000000000000000_0000_000_0_00000100 = some (.shEncode .b0) := by
  decide
theorem test_decode_shDecode : decodeTableWord 32 0b0000000000000000_0000_000_1_00000101 = some (.shDecode .b1) := by
  decide
theorem test_decode_serialize : decodeTableWord 32 0b0000000000000000_0000_000_0_00000110 = some (.serialize .b0) := by
  decide
theorem test_decode_interpret : decodeTableWord 32 0b0000000000000000_0000_000_1_00000111 = some (.interpret .b1) := by
  decide
theorem test_decode_setUserData :
    decodeTableWord 32 0b0000000000000000_0000_000_0_00001000 = some (.setUserData .b0) := by decide
theorem test_decode_getUserData :
    decodeTableWord 32 0b0000000000000000_0000_000_1_00001001 = some (.getUserData .b1) := by decide
/-- `cmd GET_FIELD b=1 sel=TIME` (95_test_vectors.md section 3). -/
theorem test_decode_getField :
    decodeTableWord 32 0b0000000000000000_1100_000_1_00001010 = some (.getField .b1 12) := by decide
theorem test_decode_setField :
    decodeTableWord 32 0b0000000000000000_0011_000_0_00001011 = some (.setField .b0 3) := by decide
theorem test_decode_clone : decodeTableWord 32 0b0000000000000000_0000_000_1_00001100 = some (.clone .b1) := by decide
theorem test_decode_wrapStatus :
    decodeTableWord 32 0b0000000000000000_0000_000_1_00010000 = some (.wrapStatus .b1) := by decide
theorem test_decode_wrapSensor :
    decodeTableWord 32 0b0000000000000000_0000_000_0_00010001 = some (.wrapSensor .b0) := by decide
theorem test_decode_route : decodeTableWord 32 0b0000000000000000_0000_000_1_00010010 = some (.route .b1) := by decide
/-- `cmd CHECK_SIZE sel=CANFD` (95_test_vectors.md section 3). -/
theorem test_decode_checkSize : decodeTableWord 32 0b0000000000000000_0001_000_0_00010011 = some (.checkSize 1) := by
  decide

/-- Vectors E1 to E11: illegal words. -/
theorem test_decode_illegal :
    [0x00000000, 0x0000000D, 0x0000000F, 0x00000014, 0x000000FF, 0x00010001, 0x80000006, 0x00000201, 0x00000801,
      0x00001001, 0x00000113].all (fun w => (decodeTableWord 32 w).isNone) = true := by decide

/-- Vector E10 through the port: STATUS 10. -/
theorem test_illegal_command : err (serve (.writeReg 0 0x00001001) rst) = some 10 := by decide

/-! ## Header codec -/

/-- Vector HC-E4. -/
theorem test_phEncode_idle :
    out 6 (exec (.phEncode .b0) { rst with pkt0 := pkt 1 0 0x7FF 3 0x2A 0x0102 [] })
      = some (some [0x17, 0xFF, 0xC0, 0x2A, 0x01, 0x02], 6) := by decide

/-- Vector HC-E5. -/
theorem test_phEncode_fields :
    out 6 (exec (.phEncode .b0) { rst with pkt0 := pkt 0 1 0x001 1 0x1234 9 [] })
      = some (some [0x08, 0x01, 0x52, 0x34, 0x00, 0x09], 6) := by decide

/-- Vector HC-D1: the header loaded, UDF kept. -/
theorem test_phDecode_fields :
    after (exec (.phDecode .b0) (load 0 [0x18, 0x05, 0xC0, 0x07, 0x00, 0x03]
      { rst with arg0 := 6, pkt0 := pkt 0 0 0 0 0 0 [0x99] })) (fun t => t.pkt0)
      = some (pkt 1 1 0x005 3 7 3 [0x99]) := by decide

/-- Vectors HC-D5 and HC-D6. -/
theorem test_phDecode_errors : err (exec (.phDecode .b0) { rst with arg0 := 5 }) = some 1 ∧
    err (exec (.phDecode .b0) { rst with arg0 := 65543 }) = some 11 := by decide

/-- Vector HC-S1. -/
theorem test_shEncode_fields :
    out 8 (exec (.shEncode .b1) { rst with pkt1 := { emptyPacket ex with sec := ⟨0x5A, 1, 0x12, 3, 1, 0x01020304⟩ } })
      = some (some [0x5A, 0x92, 0xC0, 0x01, 0x01, 0x02, 0x03, 0x04], 8) := by decide

/-- Vector HC-S4. -/
theorem test_shEncode_count :
    out 8 (exec (.shEncode .b0) { rst with pkt0 := { emptyPacket ex with sec := ⟨0, 0, 0, 0, 0x1234, 0x80000000⟩ } })
      = some (some [0x00, 0x00, 0x12, 0x34, 0x80, 0x00, 0x00, 0x00], 8) := by decide

/-- Vector HC-H4: the window ends at BUF_CAP. -/
theorem test_shDecode_top :
    after (exec (.shDecode .b0) (load 65534 [0xAB, 0xAB, 0xAB, 0xAB, 0xAB, 0xAB, 0xAB, 0xAB]
      { rst with arg0 := 65534, arg1 := 8 })) (fun t => t.pkt0.sec)
      = some ⟨0xAB, 1, 0x2B, 2, 0x2BAB, 0xABABABAB⟩ := by decide

/-- Vectors HC-H2 and HC-H5. -/
theorem test_shDecode_errors : err (exec (.shDecode .b0) { rst with arg0 := 6, arg1 := 7 }) = some 3 ∧
    err (exec (.shDecode .b0) { rst with arg0 := 65535, arg1 := 8 }) = some 11 := by decide

/-! ## Packet model -/

/-- The example of 41_packet_model.md R110, and the other bank unchanged. -/
theorem test_new_empties :
    after (exec (.new .b1) { rst with pkt0 := pkt 1 0 5 3 0 0 [1], pkt1 := pkt 1 1 5 3 7 9 [1, 2] })
      (fun t => (t.pkt0, t.pkt1)) = some (pkt 1 0 5 3 0 0 [1], pkt 0 0 0 0 0 0 []) := by decide

/-- Vector PM-S8: a stale PDL recomputed, with a secondary header. -/
theorem test_serialize_secondary :
    out 15 (exec (.serialize .b0) { rst with pkt0 := ⟨⟨0, 0, 1, 0, 0, 0, 77⟩, ⟨1, 0, 0, 0, 0, 2⟩, [0xAA]⟩ })
      = some (some [0x08, 0, 0, 0, 0, 0x08, 0x01, 0, 0, 0, 0, 0, 0, 0x02, 0xAA], 15) := by decide

/-- Vector PM-S1. -/
theorem test_serialize_empty : err (exec (.serialize .b0) rst) = some 7 := by decide

/-- Vector PM-I8. -/
theorem test_interpret_secondary :
    after (exec (.interpret .b0) (load 0 [0x08, 0x05, 0xC0, 0, 0, 0x08, 1, 2, 3, 4, 5, 6, 7, 8, 9] { rst with arg0 := 15 }))
      (fun t => t.pkt0) = some ⟨⟨0, 0, 1, 5, 3, 0, 8⟩, ⟨1, 0, 2, 0, 0x304, 0x05060708⟩, [9]⟩ := by decide

/-- Vectors PM-I11 (slack never written) and PM-I12 (a byte of the packet never written). -/
theorem test_interpret_unwritten :
    after (exec (.interpret .b0) (load 0 [0x10, 0x10, 0xC0, 0, 0, 1, 0x11, 0x23, 0, 0] { rst with arg0 := 64 }))
      (fun t => t.pkt0) = some (pkt 1 0 0x010 3 0 1 [0x11, 0x23]) ∧
    stopsUninit (exec (.interpret .b0) (load 0 [0x10, 0x10, 0xC0, 0, 0, 5, 0x11, 0x23] { rst with arg0 := 12 })) = true :=
  by decide

/-- Vector PM-U1. -/
theorem test_setUserData_loads :
    after (exec (.setUserData .b0) (load 0 [0xAA, 0xBB, 0xCC] { rst with arg0 := 3 })) (fun t => (t.pkt0.udf, t.pkt0.pri.pdl))
      = some ([0xAA, 0xBB, 0xCC], 2) := by decide

/-- Vectors PM-U3, PM-U2, PM-U5 and PM-U8. -/
theorem test_setUserData_lengths :
    after (exec (.setUserData .b0) { rst with pkt0 := pkt 0 1 0 0 0 0 [1] }) (fun t => (t.pkt0.udf, t.pkt0.pri.pdl))
      = some ([], 7) ∧
    err (exec (.setUserData .b0) rst) = some 7 ∧ err (exec (.setUserData .b0) { rst with arg0 := 65537 }) = some 8 ∧
    err (exec (.setUserData .b0) { rst with arg0 := 65543 }) = some 11 := by decide

/-- Vectors PM-G1 and PM-G2. -/
theorem test_getUserData_writes :
    out 2 (exec (.getUserData .b0) { rst with pkt0 := pkt 0 0 0 0 0 0 [0x11, 0x23] }) = some (some [0x11, 0x23], 2) ∧
    out 0 (exec (.getUserData .b0) { rst with obufLen := 5 }) = some (some [], 0) := by decide

/-- The example of 41_packet_model.md R115, and vector PM-F14: RES0 unchanged. -/
theorem test_getField_reads :
    after (exec (.getField .b0 3) { rst with pkt0 := pkt 1 0 0x010 3 0 1 [0x11, 0x23] }) (fun t => t.res0) = some 0x10 ∧
    after (exec (.getField .b0 14) { rst with res0 := 0xEE }) (fun t => (t.res0, t.statusErr)) = some (0xEE, 11) := by
  decide

/-- Vectors PM-F1 and PM-F7. -/
theorem test_setField_writes :
    after (exec (.setField .b0 3) { rst with arg0 := 0x7FF }) (fun t => t.pkt0.pri.apid) = some 0x7FF ∧
    after (exec (.setField .b0 12) { rst with arg0 := 0xFFFFFFFF }) (fun t => t.pkt0.sec.time) = some 0xFFFFFFFF := by
  decide

/-- Vectors PM-F2, PM-F3, PM-F4, PM-F5, PM-F6, PM-F10 and PM-F11. -/
theorem test_setField_errors :
    err (exec (.setField .b0 3) { rst with arg0 := 0x800 }) = some 6 ∧ err (exec (.setField .b0 0) rst) = some 12 ∧
    err (exec (.setField .b0 6) { rst with arg0 := 5 }) = some 12 ∧
    err (exec (.setField .b0 13) { rst with arg0 := 1 }) = some 12 ∧ err (exec (.setField .b0 14) rst) = some 11 ∧
    err (exec (.setField .b0 1) { rst with arg0 := 2 }) = some 6 ∧
    err (exec (.setField .b0 9) { rst with arg0 := 0x80 }) = some 6 := by decide

/-- The example of 41_packet_model.md R117: the copy goes to the other bank. -/
theorem test_clone_copies :
    after (exec (.clone .b0) { rst with pkt0 := pkt 1 0 0x010 3 0 1 [0x11, 0x23], pkt1 := pkt 0 1 2 3 4 5 [6] })
      (fun t => (t.pkt0.pri.apid, t.pkt1)) = some (0x010, pkt 1 0 0x010 3 0 1 [0x11, 0x23]) := by decide

/-! ## Framing and routing: EX, and configurations that differ from it -/

/-- Vectors FR-W1 and FR-W5 (the count wraps at 2^14). -/
theorem test_wrapStatus_builds :
    (let s := { rst with arg0 := 0x1040 }
     after (finish s (wrapStatusCmd ex .b0 s)) (fun t => (t.pkt0, t.seqCtr)))
      = some (pkt 0 0 0x100 3 0 1 [0x10, 0x40], [(0x100, 1)]) ∧
    (let s := { rst with arg0 := 1, seqCtr := [(0x100, 0x3FFF)] }
     after (finish s (wrapStatusCmd ex .b0 s)) (fun t => (t.pkt0.pri.seqc, t.seqCtr))) = some (0x3FFF, []) := by decide

/-- Vectors FR-W4, FR-W6 (`SEQ_MODE = Constant`) and FR-W7 (`OVERFLOW_POLICY = Truncate`). -/
theorem test_wrapStatus_configurations :
    (let s := { rst with arg0 := 0x10000 }
     after (finish s (wrapStatusCmd ex .b0 s)) (fun t => (t.statusErr, t.seqCtr))) = some (6, []) ∧
    (let s := { rst with arg0 := 1 }
     after (finish s (wrapStatusCmd { ex with seqMode := .constant, seqConst := 0x15 } .b0 s))
       (fun t => (t.pkt0.pri.seqc, t.seqCtr))) = some (0x15, []) ∧
    (let s := { rst with arg0 := 0x12345 }
     after (finish s (wrapStatusCmd { ex with overflowPolicy := .truncate } .b0 s)) (fun t => t.pkt0.udf))
      = some [0x23, 0x45] := by decide

/-- Vector FR-N2. -/
theorem test_wrapSensor_two_bytes :
    (let s := { rst with arg0 := 0x0102, arg1 := 0x0105 }
     after (finish s (wrapSensorCmd ex .b0 s)) (fun t => t.pkt0)) = some (pkt 0 0 0x101 3 0 3 [0x01, 0x02, 0x01, 0x05]) :=
  by decide

/-- Vectors FR-N4, FR-N7, FR-N8 and FR-N9: the widths 1, 2 and 4, never 3. -/
theorem test_wrapSensor_widths :
    minBE 0 = [0x00] ∧ minBE 0xFFFF = [0xFF, 0xFF] ∧ minBE 0x00010000 = [0x00, 0x01, 0x00, 0x00] ∧
    minBE 0x00FFFFFF = [0x00, 0xFF, 0xFF, 0xFF] := by decide

/-- What ROUTE leaves: STATUS.ERR, the results, MAIN_STATE_TC and OBUF_LEN, from RES0 to RES2 of 0xEE. -/
def routed (c : Config) (u : List Byte) : Option (List Nat) :=
  let s := { rst with pkt0 := pkt 0 0 0 0 0 0 u, res0 := 0xEE, res1 := 0xEE, res2 := 0xEE }
  after (finish s (routeCmd c .b0 s)) fun t =>
    [t.statusErr.toNat, t.res0.toNat, t.res1.toNat, t.res2.toNat, t.mainStateTc.toNat, t.obufLen.toNat]

/-- Vectors FR-R1, FR-R2, FR-R7, FR-R9 and FR-R11. -/
theorem test_route_classes :
    routed ex [0x11, 0x23] = some [0, 0, 0, 0x1123, 0x1123, 0] ∧
    routed ex [0x34, 0x56, 0xAA, 0xBB] = some [0, 1, 3, 0x3456, 0, 4] ∧
    routed ex [0x00, 0x42] = some [4, 0xEE, 0xEE, 0xEE, 0, 0] ∧ routed ex [0x11] = some [9, 0xEE, 0xEE, 0xEE, 0, 0] ∧
    routed { ex with broadcastAppliesLocal := true } [0xF0, 0x12] = some [0, 2, 0, 0x012, 0x012, 2] := by decide

/-- Vector FR-R4. -/
theorem test_route_broadcast :
    (let s := { rst with pkt0 := pkt 0 0 0 0 0 0 [0xFA, 0xBC, 0x01, 0x02] }
     out 4 (finish s (routeCmd ex .b0 s))) = some (some [0x0A, 0xBC, 0x01, 0x02], 4) ∧
    routed ex [0xFA, 0xBC, 0x01, 0x02] = some [0, 2, 0, 0xABC, 0, 4] := by decide

/-- Vectors FR-C1, FR-C2 and FR-C3. -/
theorem test_checkSize_can :
    err (exec (.checkSize 0) { rst with obufLen := 9 }) = some 5 ∧
    err (exec (.checkSize 1) { rst with obufLen := 9 }) = some 0 ∧
    err (exec (.checkSize 0) { rst with obufLen := 8 }) = some 0 := by decide

/-- Vectors FR-C6, FR-C7 and FR-C9. -/
theorem test_checkSize_udp :
    err (exec (.checkSize 2) { rst with obufLen := 1024 }) = some 0 ∧
    err (exec (.checkSize 2) { rst with obufLen := 1025 }) = some 5 ∧
    err (exec (.checkSize 3) { rst with obufLen := 7 }) = some 11 := by decide

/-! ## The step, the port and the host program syntax -/

/-- A command placed at reset is the first that runs: NEW of bank 1 ends with STATUS 0 (vector E14). -/
theorem test_step_runs_command :
    after (step (State.reset.withFetchWord 32 0x00000101)) (fun t => (t.statusErr, t.pending)) = some (0, []) := by decide

/-- A host write and read back of ARG1, one transaction a step (10_state.md R28). -/
theorem test_step_registers :
    after (step { rst with pending := [.writeReg 2 0xCAFE0001, .readReg 2] }) (fun t => (t.arg1, t.pending))
      = some (0xCAFE0001, [.readReg 2]) ∧
    after (step { rst with arg1 := 0xCAFE0001, pending := [.readReg 2] }) (fun t => t.response)
      = some (.word 0xCAFE0001) := by decide

/-- The expansion of `txstatus 0x1040, CAN` (30_encoding.md R88), and lines the assembler refuses (R87). -/
theorem test_assemble :
    (HostLine.txstatus 0x1040 .can none).assemble.map (List.map fun h => (h.txn, h.stopUnlessZero))
      = some [(.writeReg 1 0x1040, false), (.writeReg 0 0x10, false), (.readReg 6, true), (.writeReg 0 0x06, false),
        (.readReg 6, true), (.writeReg 0 0x13, false), (.readReg 6, true)] ∧
    (HostLine.cmd .getField (some 1) (.field .time)).assemble.map (List.map fun h => h.txn)
      = some [.writeReg 0 0x0000C10A] ∧
    (HostLine.cmd .new (some 2) .absent).assemble = none ∧ (HostLine.cmd .checkSize (some 0) .absent).assemble = none ∧
    (HostLine.cmd .new none (.number 0)).assemble = none := by decide

/-! ## Witnesses: states and operands that meet the hypotheses of each obligation, clause by clause

A conclusion that stands in one of these beside the hypotheses is there only to name the values they share. -/

/-- A memory whose first `n` bytes are 0. -/
def zeros (n : Nat) : Memory := Memory.writeBytes [] 0 (List.replicate n 0)

theorem zeros_hasBytes (n : Nat) : HasBytes (zeros n) 0 (List.replicate n 0) := HasBytes.writeBytes _ _ _

theorem zeros_read (n a : Nat) : Memory.read (zeros n) a = if a < n then some 0 else none := by
  rw [zeros, Memory.read_writeBytes, List.length_replicate]
  by_cases h : a < n
  · rw [if_pos (by omega), if_pos h, List.getElem?_replicate, if_pos (by omega)]
  · rw [if_neg (by omega), if_neg h]
    rfl

/-- A byte at the end of a buffer that holds `n` bytes of 0 is unwritten. -/
theorem zeros_unwritten {n a b : Nat} (h1 : a ≤ n) (h2 : n < b) : HasUnwritten (zeros n) a b :=
  ⟨n, h1, h2, by rw [zeros_read, if_neg (Nat.lt_irrefl n)]⟩

/-- The bytes of a short list, read one by one. -/
theorem hasBytes_load (a : Nat) (x : List Byte) : HasBytes (load a x rst).ibuf a x := HasBytes.writeBytes _ _ _

theorem witness_DecodedWordIsItsEncoding : decode 0x0000C10A = .ok (.getField .b1 12) := rfl

theorem witness_IllegalWordsRaiseIllegalCommand :
    decode 0x00000113 = .error .unusedOperandNonzero ∧ decode 0x00000D00 = .error .unassignedOpcode ∧
    (14 ≤ (14 : BitVec 4).toNat ∧ 14 ≤ (15 : BitVec 4).toNat) ∧ 3 ≤ (3 : BitVec 4).toNat := ⟨rfl, rfl, by decide, by decide⟩

theorem witness_StepServesTheNextTransaction :
    State.pending { rst with pending := [.reset] } = .reset :: [] ∧ rst.pending = [] := ⟨rfl, rfl⟩

theorem witness_StepRunsTheDecodedCommand :
    State.pending { rst with pending := [.writeReg 0 0x00000107] } = .writeReg 0 0x00000107 :: [] ∧
    decode 0x00000107 = .ok (.interpret .b1) := ⟨rfl, rfl⟩

/-- No hypothesis, but a clause a transaction: both sides of each boundary. -/
theorem witness_PortRefusesExactlyOffTheMap :
    serve (.writeReg 3 0) rst = .refused .readOnlyRegister ∧ serve (.writeReg 9 0) rst = .refused .noSuchRegister ∧
    serve (.readReg 0) rst = .refused .writeOnlyRegister ∧ serve (.readReg 9) rst = .refused .noSuchRegister ∧
    serve (.writeIBuf 65542 0) rst = .refused .addressOutsideBuffer ∧ serve (.writeIBuf 0 256) rst = .refused .notAByte ∧
    serve (.readIBuf 65542) rst = .refused .addressOutsideBuffer ∧
    serve (.readOBuf 65542) rst = .refused .addressOutsideBuffer ∧
    after (serve (.writeReg 2 7) rst) (fun t => t.arg1) = some 7 ∧
    after (serve (.readReg 8) rst) (fun t => t.response) = some (.word 0) ∧
    after (serve (.writeIBuf 65541 255) rst) (fun t => t.ibuf) = some [(65541, 255)] :=
  ⟨rfl, rfl, rfl, rfl, rfl, rfl, rfl, rfl, by decide, by decide, by decide⟩

theorem witness_BufferTransactions :
    (65541 < block.bufCap ∧ 255 < 256) ∧ Memory.read (load 65541 [7] rst).ibuf 65541 = some 7 ∧
    Memory.read rst.ibuf 0 = none ∧ Memory.read (State.obuf { rst with obuf := [(0, 7)] }) 0 = some 7 ∧
    Memory.read rst.obuf 65541 = none := by decide

theorem witness_HostReadsHaveNoSideEffect :
    serve (.readReg 8) rst = .next { rst with response := .word 0 } ∧
    serve (.readOBuf 0) { rst with obuf := [(0, 7)] } = .next { rst with obuf := [(0, 7)], response := .byte 7 } ∧
    serve (.readIBuf 5) (load 5 [9] rst) = .next { load 5 [9] rst with response := .byte 9 } := ⟨rfl, rfl, rfl⟩

/-- A state with two bytes of output. -/
def twoOut : State := { State.reset with obuf := [(0, 1), (1, 2)], obufLen := 2 }

theorem twoOut_inv : Inv twoOut where
  ibuf := ⟨rfl, fun _ h => absurd h List.not_mem_nil⟩
  obuf := ⟨rfl, by simp [twoOut]⟩
  seqCtr := ⟨rfl, fun _ h => absurd h List.not_mem_nil⟩
  seqCtr_nonzero := fun _ h => absurd h List.not_mem_nil
  udf b := by cases b <;> exact Nat.zero_le _
  sec b := by cases b <;> rfl
  obufLen := by decide
  obufWritten a h := by
    have : a = 0 ∨ a = 1 := by simp [twoOut] at h; omega
    rcases this with rfl | rfl <;> decide

theorem witness_EveryStepKeepsTheInvariant : Inv (twoOut.withCommand 0x00000001) ∧
    ∃ t, step (twoOut.withCommand 0x00000001) = .next t := ⟨twoOut_inv.congr rfl rfl rfl rfl rfl rfl, _, rfl⟩

theorem witness_OutputBytesAreReadable : Inv twoOut ∧ 1 < twoOut.obufLen.toNat := ⟨twoOut_inv, by decide⟩

theorem witness_ErrorsArePrecise :
    exec (.serialize .b0) rst = .next { rst with statusErr := 7 } ∧ (7 : BitVec 8) ≠ 0 := ⟨rfl, by decide⟩

theorem witness_CommandsNeverHaltTheBlock :
    exec (.phDecode .b0) { rst with arg0 := 6 } = .fault .uninitRead ∧
    ∀ a, a < block.bufCap → Memory.read (State.ibuf { rst with ibuf := zeros 65542 }) a ≠ none := by
  refine ⟨rfl, fun a ha => ?_⟩
  rw [block_bufCap] at ha
  rw [zeros_read, if_pos ha]
  exact Option.some_ne_none 0

/-- A state in which every command but ROUTE ends `ok` whatever the OPEN parameters are. -/
def busy : State :=
  { State.reset with
    arg0 := 7, arg1 := 8, ibuf := zeros 15, obufLen := 8,
    pkt0 := pkt 0 0 1 3 0 0 [1, 2], pkt1 := pkt 0 0 1 3 0 0 [3] }

theorem witness_OnlyTheAccessMatrixIsWritten :
    (busy.bank .b0).udf.length ≤ udfCap ∧ (4 < 13 ∧ 4 ≠ (5 : BitVec 4).toNat) ∧
    [Instr.new .b0, .phEncode .b1, .phDecode .b0, .shEncode .b1, .shDecode .b0, .serialize .b1, .interpret .b0,
      .setUserData .b1, .getUserData .b0, .getField .b1 13, .setField .b0 5, .clone .b1, .wrapStatus .b0,
      .wrapSensor .b1, .checkSize 0].all (fun i => err (exec i busy) == some 0) = true ∧
    exec (.route .b0) rst = .next { rst with statusErr := 9 } := ⟨by decide, by decide, by decide, rfl⟩

theorem witness_RepeatedCommandsAreIdempotent :
    busy.obuf.wf = true ∧ (∀ b, Instr.serialize .b0 ≠ .wrapStatus b ∧ Instr.serialize .b0 ≠ .wrapSensor b) ∧
    err (exec (.serialize .b0) busy) = some 0 ∧ err (exec (.wrapStatus .b1) busy) = some 0 ∧
    err (exec (.wrapSensor .b1) busy) = some 0 :=
  ⟨by decide, fun b => by cases b <;> decide, by decide, by decide, by decide⟩

theorem witness_OnlyTheseCommandsChangePdl :
    after (exec (.clone .b1) { rst with pkt1 := pkt 0 0 1 3 0 9 [3] }) (fun t => t.pkt0.pri.pdl) = some 9 ∧
    rst.pkt0.pri.pdl ≠ 9 := by decide

theorem witness_PdlAgreesWithTheData :
    [Instr.serialize .b0, .setUserData .b1, .interpret .b0, .wrapStatus .b0, .wrapSensor .b1].all
      (fun i => err (exec i busy) == some 0) = true := by decide

theorem witness_PrimaryHeaderRoundTrips : ([0x18, 0x05, 0xC0, 0x07, 0x00, 0x03] : List Byte).length = 6 := rfl

/-- Every field at its largest value. -/
theorem witness_SecondaryHeaderLayout :
    SecHdr.inRange block.shLayout.widths ⟨0xFF, 1, 0x7F, 3, 0x3FFF, 0xFFFFFFFF⟩ = true := by decide

theorem witness_PacketLayoutInEveryLayout : catEx.shLayout.Lawful ∧ (pkt 0 0 0 0 0 0 [1]).pri.shf = 0 ∧
    (pkt 0 1 0 0 0 0 [1]).pri.shf = 1 ∧ SecHdr.inRange catEx.shLayout.widths ⟨0xFF, 0, 0, 0, 0, 0⟩ = true :=
  ⟨catLayout_lawful, by decide⟩

theorem witness_SecondaryHeaderRoundTrips :
    ([0x5A, 0x92, 0xC0, 0x01, 0x01, 0x02, 0x03, 0x04] : List Byte).length = 8 := rfl

theorem witness_SensorValueWidths :
    (0xFF : Word).toNat < 2 ^ 8 ∧ (2 ^ 8 ≤ (0x100 : Word).toNat ∧ (0xFFFF : Word).toNat < 2 ^ 16) ∧
    2 ^ 16 ≤ (0x00010000 : Word).toNat := by decide

theorem witness_FitChecksTheWidth :
    (0x7FF : Word).toNat < 2 ^ 11 ∧ 2 ^ 11 ≤ (0x800 : Word).toNat ∧ ex.overflowPolicy = .fault ∧
    Config.overflowPolicy { ex with overflowPolicy := .truncate } = .truncate := by decide

theorem witness_NextSequenceCount :
    Config.seqMode { ex with seqMode := .constant } = .constant ∧ ex.seqMode = .perApid ∧
    (0x101 : BitVec 11) ≠ 0x100 ∧
    exec (.wrapStatus .b0) { rst with arg0 := 0x10000 } = .next { rst with arg0 := 0x10000, statusErr := 6 } ∧
    exec (.wrapSensor .b0) { rst with arg0 := 0x10000 } = .next { rst with arg0 := 0x10000, statusErr := 6 } ∧
    (6 : BitVec 8) ≠ 0 := ⟨rfl, rfl, by decide, rfl, rfl, by decide⟩

theorem witness_PhDecodeLoadsTheHeader :
    block.bufCap < (65543 : Word).toNat ∧ (5 : Word).toNat < 6 ∧
    (6 ≤ (65542 : Word).toNat ∧ (65542 : Word).toNat ≤ block.bufCap) ∧ HasUnwritten (zeros 5) 0 6 ∧
    (List.replicate 6 (0 : Byte)).length = 6 ∧ HasBytes (zeros 6) 0 (List.replicate 6 0) :=
  ⟨by decide, by decide, by decide, zeros_unwritten (by decide) (by decide), rfl, zeros_hasBytes 6⟩

theorem witness_ShDecodeLoadsTheHeader :
    block.bufCap < (65535 : Word).toNat + (8 : Word).toNat ∧
    ((65535 : Word).toNat + (7 : Word).toNat ≤ block.bufCap ∧ (7 : Word).toNat < 8) ∧
    ((65534 : Word).toNat + (8 : Word).toNat ≤ block.bufCap ∧ 8 ≤ (8 : Word).toNat) ∧
    HasUnwritten rst.ibuf 65534 (65534 + 8) ∧
    HasBytes (load 65534 (List.replicate 8 0xAB) rst).ibuf 65534 (List.replicate 8 0xAB) :=
  ⟨by decide, by decide, by decide, ⟨65534, by decide, by decide, rfl⟩, hasBytes_load _ _⟩

/-- The data field lengths 0, 65537, 1 and 65536, as `n` counts them. -/
theorem witness_SerializeWritesThePacket :
    0 = (if (pkt 0 0 0 0 0 0 []).pri.shf = 1 then 8 else 0) + (pkt 0 0 0 0 0 0 []).udf.length ∧
    (let p := pkt 0 1 0 0 0 0 (List.replicate 65529 0)
     65537 = (if p.pri.shf = 1 then 8 else 0) + p.udf.length) ∧
    1 = (if (pkt 0 0 0 0 0 0 [7]).pri.shf = 1 then 8 else 0) + (pkt 0 0 0 0 0 0 [7]).udf.length ∧
    (let p := pkt 0 0 0 0 0 0 (List.replicate 65536 0)
     65536 = (if p.pri.shf = 1 then 8 else 0) + p.udf.length) := by
  refine ⟨rfl, ?_, rfl, ?_⟩ <;>
    (dsimp only [pkt]; rw [List.length_replicate]; rfl)

/-- The header of six zeros declares one byte; the header of `08 00 00 00 00 07` a secondary header alone, and that of
`08 00 00 00 00 06` one byte less. -/
theorem witness_InterpretLoadsThePacket :
    block.bufCap < (65543 : Word).toNat ∧ (5 : Word).toNat < 6 ∧ HasUnwritten (zeros 5) 0 6 ∧
    HasBytes (zeros 7) 0 (List.replicate 6 0) ∧
    (6 : Word).toNat < (decPH (List.replicate 6 0)).pdl.toNat + 1 + 6 ∧
    (decPH (List.replicate 6 0)).pdl.toNat + 1 + 6 ≤ (7 : Word).toNat ∧
    (decPH (List.replicate 6 0)).shf = 0 ∧ HasUnwritten (zeros 6) 6 7 ∧ HasBytes (zeros 7) 6 [0] ∧
    ((decPH [0x08, 0, 0, 0, 0, 6]).shf = 1 ∧ (decPH [0x08, 0, 0, 0, 0, 6]).pdl.toNat + 1 < 8) ∧
    ((decPH [0x08, 0, 0, 0, 0, 7]).shf = 1 ∧ (decPH [0x08, 0, 0, 0, 0, 7]).pdl.toNat + 1 = ([] : List Byte).length + 8) ∧
    (let m := (load 0 [0x08, 0, 0, 0, 0, 7, 1, 2, 3, 4, 5, 6, 7, 8] rst).ibuf
     HasBytes m 0 [0x08, 0, 0, 0, 0, 7] ∧ HasBytes m 6 [1, 2, 3, 4, 5, 6, 7, 8] ∧ HasBytes m 14 []) := by
  refine ⟨by decide, by decide, zeros_unwritten (by decide) (by decide), ?_, by decide, by decide, by decide,
    zeros_unwritten (by decide) (by decide), ?_, by decide, by decide, ?_, ?_, ?_⟩ <;>
    (unfold HasBytes; decide)

theorem witness_SetUserDataLoadsTheBytes :
    block.bufCap < (65543 : Word).toNat ∧ 0 = 0 + (0 : Word).toNat ∧
    ((65537 : Word).toNat ≤ block.bufCap ∧ 65536 < 0 + (65537 : Word).toNat) ∧
    (1 ≤ 0 + (1 : Word).toNat ∧ HasUnwritten rst.ibuf 0 1) ∧
    (8 + (0 : Word).toNat = 8 ∧ HasBytes rst.ibuf 0 []) ∧
    (0 + (65536 : Word).toNat = 65536 ∧ (List.replicate 65536 (0 : Byte)).length = (65536 : Word).toNat ∧
      HasBytes (zeros 65536) 0 (List.replicate 65536 0)) :=
  ⟨by decide, rfl, by decide, ⟨by decide, 0, by decide, by decide, rfl⟩,
    ⟨rfl, fun _ h => absurd h (Nat.not_lt_zero _)⟩, rfl, List.length_replicate, zeros_hasBytes _⟩

theorem witness_GetUserDataWritesTheBytes :
    (rst.bank .b0).udf.length ≤ udfCap ∧ (pkt 0 0 0 0 0 0 (List.replicate 65536 1)).udf.length ≤ udfCap :=
  ⟨Nat.zero_le _, by rw [pkt, List.length_replicate]; exact Nat.le_refl _⟩

theorem witness_GetFieldReadsTheField :
    (busy.bank .b0).udf.length ≤ udfCap ∧ 14 ≤ (14 : BitVec 4).toNat ∧ (13 : BitVec 4).toNat < 14 := by decide

theorem witness_SetFieldWritesTheField :
    14 ≤ (14 : BitVec 4).toNat ∧
    ((3 : BitVec 4).toNat < 14 ∧ (3 : BitVec 4) ≠ 0 ∧ (3 : BitVec 4) ≠ 6 ∧ (3 : BitVec 4) ≠ 13) ∧
    2 ^ fieldWidth block.shLayout.widths 3 ≤ (0x800 : Word).toNat ∧ (0x7FF : Word).toNat < 2 ^ fieldWidth block.shLayout.widths 3 ∧
    ((12 : BitVec 4).toNat < 14 ∧ (0xFFFFFFFF : Word).toNat < 2 ^ fieldWidth block.shLayout.widths 12) ∧ (4 < 13 ∧ 4 ≠ (3 : BitVec 4).toNat) :=
  by decide

theorem witness_SetFieldInEveryConfiguration :
    14 ≤ (14 : BitVec 4).toNat ∧ ((1 : BitVec 4).toNat < 14 ∧ (1 : BitVec 4) ≠ 0 ∧ (1 : BitVec 4) ≠ 6 ∧ (1 : BitVec 4) ≠ 13) ∧
    2 ^ fieldWidth catEx.shLayout.widths 9 ≤ (1 : Word).toNat ∧
    (2 ^ fieldWidth ex.shLayout.widths 1 ≤ (2 : Word).toNat ∧ ex.overflowPolicy = .fault) ∧ (1 : Word).toNat < 2 ^ fieldWidth ex.shLayout.widths 1 ∧
    Config.overflowPolicy { ex with overflowPolicy := .truncate } = .truncate := by decide

theorem witness_WrapStatusInEveryConfiguration :
    (2 ^ 16 ≤ (0x10000 : Word).toNat ∧ ex.overflowPolicy = .fault) ∧ (0xFFFF : Word).toNat < 2 ^ 16 ∧
    Config.overflowPolicy { ex with overflowPolicy := .truncate } = .truncate := by decide

theorem witness_WrapSensorInEveryConfiguration :
    ([0xFF, 0xFF, 0x01, 0x05] : List Byte)
      = [BitVec.ofNat 8 ((0xFFFF : Word).toNat / 256), BitVec.ofNat 8 (0xFFFF : Word).toNat] ++ minBE 0x0105 ∧
    (2 ^ 16 ≤ (0x10000 : Word).toNat ∧ ex.overflowPolicy = .fault) ∧ (0xFFFF : Word).toNat < 2 ^ 16 ∧
    Config.overflowPolicy { ex with overflowPolicy := .truncate } = .truncate := by decide

theorem witness_WrapStatusBuildsThePacket :
    2 ^ 16 ≤ (0x10000 : Word).toNat ∧ (0xFFFF : Word).toNat < 2 ^ 16 ∧ (0x7FF : BitVec 11) ≠ block.statusApid := by
  refine ⟨by decide, by decide, fun h => ?_⟩
  have h' : 0x7FF = Config.openStatusApid.val % 2 ^ 11 := congrArg BitVec.toNat h
  have := Config.openStatusApid.isLt
  omega

theorem witness_WrapSensorBuildsThePacket :
    2 ^ 16 ≤ (0x10000 : Word).toNat ∧ (0xFFFF : Word).toNat < 2 ^ 16 ∧ (0x7FF : BitVec 11) ≠ block.sensorApid := by
  refine ⟨by decide, by decide, fun h => ?_⟩
  have h' : 0x7FF = Config.openSensorApid.val % 2 ^ 11 := congrArg BitVec.toNat h
  have := Config.openSensorApid.isLt
  omega

theorem witness_RouteActsByTheTopNibble :
    (pkt 0 0 0 0 0 0 [0x11]).udf.length < 2 ∧ (pkt 0 0 0 0 0 0 [0x11, 0x23]).udf = 0x11 :: 0x23 :: [] ∧
    (pkt 0 0 0 0 0 0 [0x11, 0x23]).udf.length ≤ udfCap := by decide

theorem witness_RouteInEveryConfiguration :
    (rst.bank .b0).udf.length < 2 ∧ (busy.bank .b0).udf = 1 :: 2 :: [] ∧ (busy.bank .b0).udf.length ≤ udfCap ∧
    ex.routeClass ((0x01 : Byte).extractLsb' 4 4) = .invalid ∧ ex.routeClass ((0x11 : Byte).extractLsb' 4 4) = .loc ∧
    ex.routeClass ((0x60 : Byte).extractLsb' 4 4) = .forward 6 ∧
    ex.routeClass ((0xF0 : Byte).extractLsb' 4 4) = .broadcast := by decide

theorem witness_CheckSizeGuardsTheTransport :
    3 ≤ (3 : BitVec 4).toNat ∧ (8 < (9 : Word).toNat ∧ (8 : Word).toNat ≤ 8) ∧
    (64 < (65 : Word).toNat ∧ (64 : Word).toNat ≤ 64) ∧ (1024 < (1025 : Word).toNat ∧ (1024 : Word).toNat ≤ 1024) := by
  decide

/-- A data field of two bytes, and the longest; any state serves for IBUF once its IBUF is that state's OBUF. -/
theorem witness_SerializeInterpretRoundTrip :
    (busy.bank .b0).sec.inRange block.shLayout.widths = true ∧
    (2 = (if (busy.bank .b0).pri.shf = 1 then 8 else 0) + (busy.bank .b0).udf.length ∧ 1 ≤ 2 ∧ 2 ≤ 65536) ∧
    (let p := pkt 0 1 0 0 0 0 (List.replicate 65528 0)
     65536 = (if p.pri.shf = 1 then 8 else 0) + p.udf.length) ∧
    (let t := busy
     let u : State := { t with ibuf := t.obuf, arg0 := t.obufLen }
     (∀ a, a < t.obufLen.toNat → Memory.read u.ibuf a = Memory.read t.obuf a) ∧ u.arg0 = t.obufLen) := by
  refine ⟨by decide, by decide, ?_, fun _ _ => rfl, rfl⟩
  dsimp only [pkt]
  rw [List.length_replicate]
  rfl

theorem witness_RoundTripInEveryConfiguration :
    catEx.Valid ∧
    (let p : Packet := ⟨⟨0, 0, 1, 0, 0, 0, 0⟩, ⟨0xFF, 0, 0, 0, 0, 0⟩, []⟩
     p.sec.inRange catEx.shLayout.widths = true ∧ 1 = (if p.pri.shf = 1 then catEx.secLen else 0) + p.udf.length) ∧
    (let t := busy
     let u : State := { t with ibuf := t.obuf, arg0 := t.obufLen }
     (∀ a, a < t.obufLen.toNat → Memory.read u.ibuf a = Memory.read t.obuf a) ∧ u.arg0 = t.obufLen) :=
  ⟨catEx_valid, by decide, fun _ _ => rfl, rfl⟩

/-- The packet of seven zeros, with a length given to the end of IBUF, and the same with every byte after it written. -/
theorem witness_InterpretIgnoresSlack :
    (List.replicate 6 (0 : Byte)).length = 6 ∧ HasBytes (zeros 7) 0 (List.replicate 6 0) ∧
    7 = (decPH (List.replicate 6 0)).pdl.toNat + 1 + 6 ∧ (7 ≤ (65542 : Word).toNat ∧ (65542 : Word).toNat ≤ block.bufCap) ∧
    (7 ≤ (7 : Word).toNat ∧ (7 : Word).toNat ≤ block.bufCap) ∧
    ∀ a, a < 7 → Memory.read (zeros 65542) a = Memory.read (zeros 7) a := by
  refine ⟨rfl, ?_, by decide, by decide, by decide, fun a ha => ?_⟩
  · unfold HasBytes
    decide
  · rw [zeros_read, zeros_read, if_pos (by omega), if_pos ha]

theorem witness_FramingLaws :
    ((0x0102 : Word).toNat < 2 ^ 16 ∧ State.arg1 { rst with arg1 := 0x05 } = 0x05 ∧
      State.arg1 { rst with arg1 := 0x0105 } = 0x0105 ∧ State.arg1 { rst with arg1 := 0x01020304 } = 0x01020304) ∧
    State.obufLen { rst with obufLen := 9 } = 9 ∧ State.arg0 { rst with arg0 := 0x1040 } = 0x1040 ∧
    (let v : State := { busy with ibuf := busy.obuf, arg0 := 8 }
     (∀ a, a < 8 → Memory.read v.ibuf a = Memory.read busy.obuf a) ∧ v.arg0 = 8) :=
  ⟨⟨by decide, rfl, rfl, rfl⟩, rfl, rfl, fun _ _ => rfl, rfl⟩

theorem witness_AssembledCommandsAreLegal :
    cmdWord .getField (some 1) (.field .time) = some 0x0000C10A ∧ cmdWord .checkSize none (.transport .canFd) = some 0x00001013 ∧
    2 ≤ 2 ∧ SelArg.number 0 ≠ .absent ∧ Mnemonic.new ≠ .getField ∧ Mnemonic.new ≠ .setField ∧ Mnemonic.new ≠ .checkSize :=
  by decide

theorem witness_PseudoInstructionsExpand :
    (Bank.b0 = .b0 ∧ ((none : Option Nat) = none ∨ (none : Option Nat) = some 0)) ∧
    (Bank.b0 = .b0 ∧ (some 0 = none ∨ some 0 = some 0)) ∧ (Bank.b1 = .b1 ∧ some 1 = some 1) := by decide

end Sys2Proof.Tests
end

section
/-! The block's configuration: the constraints of 00_scope.md R10, and the bound of R9 on the two OPEN APIDs. -/

namespace Sys2Proof.Machine

/-- The idle value 0x7FF is the only 11-bit value above 0x7FE. -/
theorem apid_ne_idle_iff {a : BitVec 11} : a ≠ 0x7FF ↔ a.toNat ≤ 0x7FE := by
  bv_omega

/-- The constraints of 00_scope.md R10 one by one, with the two APIDs bounded as R9 has it. -/
theorem config_wf_iff {c : Config} :
    c.wf = true ↔
      6 + udfCap ≤ c.bufCap ∧ c.statusApid.toNat ≤ 0x7FE ∧ c.sensorApid.toNat ≤ 0x7FE ∧ 1 ≤ c.secLen ∧
      c.canFdMax ≤ c.udpMax ∧ c.canMax ≤ c.canFdMax := by
  simp only [Config.wf, Bool.and_eq_true, decide_eq_true_eq, bne_iff_ne, apid_ne_idle_iff, and_assoc]

/-- A value of the OPEN parameters' type keeps its bound as an 11-bit APID. -/
theorem apid_ofNat_toNat_le (a : Fin 2047) : (BitVec.ofNat 11 a.val).toNat ≤ 0x7FE := by
  rw [BitVec.toNat_ofNat]
  exact (Nat.mod_le _ _).trans (Nat.le_of_lt_succ a.isLt)

theorem block_statusApid_le : block.statusApid.toNat ≤ 0x7FE := apid_ofNat_toNat_le Config.openStatusApid

theorem block_sensorApid_le : block.sensorApid.toNat ≤ 0x7FE := apid_ofNat_toNat_le Config.openSensorApid

@[simp] theorem block_seqConst : block.seqConst = 0 := (rfl)

theorem block_wf : block.wf = true :=
  config_wf_iff.mpr ⟨by simp, block_statusApid_le, block_sensorApid_le, by simp, by simp, by simp⟩

theorem bank_eq_or (b : Bank) : b = .b0 ∨ b = .b1 := by
  cases b with
  | b0 => exact .inl rfl
  | b1 => exact .inr rfl

/-- Settles O28: the values are R9's, and what is bounded of the OPEN parameters comes from their type. -/
theorem blockConfiguration : Obligations.BlockConfiguration :=
  ⟨block_wf, block_bufCap, udfCap_eq, block_versionConst, block_shLayout, block_secLen, block_seqFlagUnseg,
    block_seqMode, block_seqConst, block_overflowPolicy, block_broadcastAppliesLocal, block_canMax, block_canFdMax,
    block_udpMax, block_mstReset, bank_eq_or, block_statusApid_le, block_sensorApid_le⟩

end Sys2Proof.Machine
end

section
/-! What the host port answers to each transaction that is no command. -/

namespace Sys2Proof.Machine

theorem hostReadReg_eq_next {r : Nat} {s t : State} :
    hostReadReg r s = .next t ↔ ∃ v, s.readReg r = some v ∧ t = s.respond (.word v) := by
  unfold hostReadReg
  cases s.readReg r <;> simp [eq_comm]

theorem hostWriteIBuf_eq_next {c : Config} {a x : Nat} {s t : State} :
    hostWriteIBuf c a x s = .next t ↔
      a < c.bufCap ∧ x < 256 ∧ t = { s with ibuf := Memory.write s.ibuf a (BitVec.ofNat 8 x) } := by
  unfold hostWriteIBuf
  split
  · simp only [reduceCtorEq, false_iff]; omega
  · split
    · simp only [reduceCtorEq, false_iff]; omega
    · simp only [Host.Outcome.next.injEq, eq_comm (b := t), iff_and_self, ← and_assoc]
      exact fun _ => ⟨by omega, by omega⟩

theorem hostReadBuf_eq_next {c : Config} {m : Memory} {a : Nat} {s t : State} :
    hostReadBuf c m a s = .next t ↔
      a < c.bufCap ∧ ∃ x, Memory.read m a = some x ∧ t = s.respond (.byte x) := by
  unfold hostReadBuf
  split
  · simp only [reduceCtorEq, false_iff]; omega
  · cases Memory.read m a <;> simp_all [eq_comm]

/-- A read of an unwritten byte inside the buffer faults. -/
theorem hostReadBuf_of_none {c : Config} {m : Memory} {a : Nat} (s : State) (ha : a < c.bufCap)
    (hm : Memory.read m a = none) : hostReadBuf c m a s = .fault .uninitRead := by
  rw [hostReadBuf, if_neg (by omega), hm]

/-- A zero-extended register reads as its value in the low bits and 0 in the others. -/
theorem extractLsb'_setWidth_low_high {n : Nat} (x : BitVec n) (m : Nat) (h : n ≤ m) :
    (x.setWidth m).extractLsb' 0 n = x ∧ (x.setWidth m).extractLsb' n (m - n) = 0 := by
  constructor
  · ext i hi
    simp [BitVec.getLsbD_eq_getElem hi, Nat.lt_of_lt_of_le hi h]
  · ext i hi
    simp

/-- Settles O9: a transaction reads or writes one field, and the two narrow registers read zero-extended. -/
theorem registerTransactions : Obligations.RegisterTransactions := by
  intro s v
  exact ⟨rfl, rfl, rfl, rfl, rfl, rfl, rfl, rfl,
    ⟨s.status, rfl, extractLsb'_setWidth_low_high s.statusErr 32 (by decide)⟩,
    ⟨s.mainStateTcReg, rfl, extractLsb'_setWidth_low_high s.mainStateTc 32 (by decide)⟩⟩

/-- Settles O10: a write is one byte of IBUF, and a read looks one byte up. -/
theorem bufferTransactions : Obligations.BufferTransactions := by
  refine ⟨fun s a x ha hx => ?_, fun s a x ha hr => ?_, fun s a ha hr => ?_, fun s a x ha hr => ?_, fun s a ha hr => ?_⟩
  · refine ⟨_, hostWriteIBuf_eq_next.mpr ⟨ha, hx, rfl⟩, ?_, fun a' hne => ?_, rfl⟩
    · rw [Memory.read_write, if_pos rfl]
    · rw [Memory.read_write, if_neg hne]
  · exact hostReadBuf_eq_next.mpr ⟨ha, x, hr, rfl⟩
  · exact hostReadBuf_of_none s ha hr
  · exact hostReadBuf_eq_next.mpr ⟨ha, x, hr, rfl⟩
  · exact hostReadBuf_of_none s ha hr

/-- Settles O15: a position below OBUF_LEN is written and inside the buffer. -/
theorem outputBytesAreReadable : Obligations.OutputBytesAreReadable := by
  intro s a h ha
  obtain ⟨x, hx⟩ := Option.ne_none_iff_exists'.mp (h.obufWritten a ha)
  exact ⟨x, hx, hostReadBuf_eq_next.mpr ⟨Nat.lt_of_lt_of_le ha h.obufLen, x, hx, rfl⟩⟩

end Sys2Proof.Machine
end

section
/-! How the next state of a command comes about, and the lengths of what this block writes to OBUF. -/

namespace Sys2Proof.Machine

/-- Up to STATUS.ERR, a command leaves what it made where it ends `ok`, or the state it started in. -/
theorem exists_setErr_of_finish {s t : State} {r : Cmd State} (h : finish s r = .next t) :
    ∃ u e, t = u.setErr e ∧ (r = .ok u ∨ u = s) := by
  rcases finish_eq_next.mp h with ⟨u, hu, rfl⟩ | ⟨e, -, rfl⟩
  · exact ⟨u, 0, rfl, .inl hu⟩
  · exact ⟨s, e.code, rfl, .inr rfl⟩

/-- A command that leaves STATUS.ERR 0 ended `ok`. -/
theorem ok_of_finish_statusErr_eq_zero {s t : State} {r : Cmd State} (h : finish s r = .next t)
    (h0 : t.statusErr = 0) : ∃ u, r = .ok u ∧ t = u.setErr 0 := by
  rcases finish_eq_next.mp h with hok | ⟨e, -, rfl⟩
  · exact hok
  · exact absurd h0 e.code_ne_zero

/-! The five commands with no condition end `ok` from every state. -/

section Unconditional
variable {b : Bank} {s t : State}

theorem exec_new_eq_next :
    exec (.new b) s = .next t ↔ t = (s.setBank b (emptyPacket block)).setErr 0 := by
  simp only [exec_new, newCmd, finish_ok, Host.Outcome.next.injEq, eq_comm]

theorem exec_phEncode_eq_next :
    exec (.phEncode b) s = .next t ↔ t = (s.putOBuf (encPH (s.bank b).pri)).setErr 0 := by
  simp only [exec_phEncode, phEncodeCmd, finish_ok, Host.Outcome.next.injEq, eq_comm]

theorem exec_shEncode_eq_next :
    exec (.shEncode b) s = .next t ↔ t = (s.putOBuf (encSH (s.bank b).sec)).setErr 0 := by
  simp only [exec_shEncode, shEncodeCmd, block_shLayout, defaultLayout_enc, finish_ok, Host.Outcome.next.injEq, eq_comm]

theorem exec_getUserData_eq_next :
    exec (.getUserData b) s = .next t ↔ t = (s.putOBuf (s.bank b).udf).setErr 0 := by
  simp only [exec_getUserData, getUserDataCmd, finish_ok, Host.Outcome.next.injEq, eq_comm]

theorem exec_clone_eq_next :
    exec (.clone b) s = .next t ↔ t = (s.setBank (otherBank b) (s.bank b)).setErr 0 := by
  simp only [exec_clone, cloneCmd, finish_ok, Host.Outcome.next.injEq, eq_comm]

end Unconditional

/-! Setting the data length of a packet. -/

section WithDataLen
variable (p : Packet)

@[simp] theorem Packet.withDataLen_dataLen (n : Nat) (c : Config) : (p.withDataLen n).dataLen c = p.dataLen c := rfl

/-- PDL is one less than the length it was set from. -/
theorem Packet.withDataLen_pdl_add_one {n : Nat} (h1 : 1 ≤ n) (h2 : n ≤ 65536) :
    (p.withDataLen n).pri.pdl.toNat + 1 = n := by
  simp only [Packet.withDataLen, BitVec.toNat_ofNat]
  omega

end WithDataLen

/-- On this block a serialized packet has six bytes more than its data field. -/
theorem Packet.bytes_length_block (p : Packet) : (p.bytes block).length = 6 + p.dataLen block := by
  unfold Packet.bytes Packet.dataLen Packet.secLen
  split <;> simp

/-- Setting a field leaves the user data as it is. -/
@[simp] theorem Packet.set_udf (p : Packet) (f : Field) (v : Word) : (p.set f v).udf = p.udf := by
  cases f <;> rfl

/-- What ROUTE makes on this block: for Local a new MAIN_STATE_TC, for Forward and Broadcast output as long as the user
data, with the result registers in both. -/
theorem routeCmd_block_cases {b : Bank} {s u : State} (h : routeCmd block b s = .ok u) :
    (routeClassOf b s = .loc ∧ ∃ v r0 r1 r2, u = (s.setMainStateTc v).setRes r0 r1 r2) ∨
    (((∃ sid, routeClassOf b s = .forward sid) ∨ routeClassOf b s = .broadcast) ∧
      ∃ x r0 r1 r2, x.length = (s.bank b).udf.length ∧ u = (s.putOBuf x).setRes r0 r1 r2) := by
  obtain ⟨hlen, h⟩ := routeCmd_eq_ok.mp h
  change routeByClass block _ s (routeClassOf b s) = _ at h
  cases hk : routeClassOf b s with
  | loc =>
    rw [hk] at h; cases h
    exact .inl ⟨rfl, _, _, _, _, rfl⟩
  | forward sid =>
    rw [hk] at h; cases h
    exact .inr ⟨.inl ⟨sid, rfl⟩, _, _, _, _, rfl, rfl⟩
  | broadcast =>
    rw [hk] at h; cases h
    exact .inr ⟨.inr rfl, _, _, _, _, by simp; omega, rfl⟩
  | invalid => rw [hk] at h; cases h

end Sys2Proof.Machine
end

section
/-! The invariant of the block holds at reset and every step keeps it: each command, then each transaction, then the
step. -/

namespace Sys2Proof.Machine

/-- Settles O13: the buffers and the counters are empty, and both banks are EMPTY. -/
theorem invariantAtReset : Obligations.InvariantAtReset where
  ibuf := ⟨rfl, fun _ he => absurd he List.not_mem_nil⟩
  obuf := ⟨rfl, fun _ he => absurd he List.not_mem_nil⟩
  seqCtr := ⟨rfl, fun _ he => absurd he List.not_mem_nil⟩
  seqCtr_nonzero := fun _ he => absurd he List.not_mem_nil
  udf b := by cases b <;> exact Nat.zero_le _
  sec b := by cases b <;> exact zeroSecHdr_inRange _
  obufLen := Nat.zero_le _
  obufWritten a ha := absurd ha (Nat.not_lt_zero a)

section Steps
variable {s t : State} (h : Inv s)
include h

theorem Inv.udf_le_bufCap (b : Bank) : (s.bank b).udf.length ≤ block.bufCap :=
  (h.udf b).trans (by simp)

/-- A command keeps the invariant where what it makes does: an error changes STATUS only. -/
theorem Inv.of_finish {r : Cmd State} (hr : ∀ u, r = .ok u → Inv u) (ht : finish s r = .next t) : Inv t := by
  obtain ⟨u, e, rfl, hu | rfl⟩ := exists_setErr_of_finish ht
  · exact (hr u hu).setErr e
  · exact h.setErr e

theorem Inv.of_phDecodeCmd {b : Bank} (ht : phDecodeCmd block b s = .ok t) : Inv t := by
  obtain ⟨-, -, x, -, rfl⟩ := phDecodeCmd_eq_ok.mp ht
  exact h.setBank b (h.udf b) (h.sec b)

theorem Inv.of_shDecodeCmd {b : Bank} (ht : shDecodeCmd block b s = .ok t) : Inv t := by
  obtain ⟨-, -, x, -, rfl⟩ := shDecodeCmd_eq_ok.mp ht
  exact h.setBank b (h.udf b) (decSH_inRange x)

theorem Inv.of_serializeCmd {b : Bank} (ht : serializeCmd block b s = .ok t) : Inv t := by
  obtain ⟨-, hlen, rfl⟩ := serializeCmd_eq_ok.mp ht
  have hb : Inv (s.setBank b ((s.bank b).withDataLen ((s.bank b).dataLen block))) :=
    h.setBank b (h.udf b) (h.sec b)
  refine hb.putOBuf ?_
  rw [Packet.bytes_length_block, Packet.withDataLen_dataLen, block_bufCap]
  omega

theorem Inv.of_interpretCmd {b : Bank} (ht : interpretCmd block b s = .ok t) : Inv t := by
  obtain ⟨-, -, x, p, -, -, hp, rfl⟩ := interpretCmd_eq_ok.mp ht
  obtain ⟨-, hudf, hsec⟩ := interpretBody_eq_ok hp
  refine h.setBank b hudf ?_
  rcases hsec with hsec | ⟨y, -, hsec⟩ <;> rw [hsec]
  · exact zeroSecHdr_inRange _
  · exact decSH_inRange y

theorem Inv.of_setUserDataCmd {b : Bank} (ht : setUserDataCmd block b s = .ok t) : Inv t := by
  obtain ⟨-, -, hlen, u, hu, rfl⟩ := setUserDataCmd_eq_ok.mp ht
  have hl : u.length = s.arg0.toNat := (State.memRead_eq_ok.mp hu).1
  refine h.setBank b ?_ (h.sec b)
  change u.length ≤ udfCap
  rw [udfCap_eq]
  omega

theorem Inv.of_setFieldCmd {b : Bank} {sel : BitVec 4} (ht : setFieldCmd block b sel s = .ok t) : Inv t := by
  obtain ⟨f, v, -, -, hv, rfl⟩ := setFieldCmd_eq_ok.mp ht
  refine h.setBank b ?_ (Packet.set_inRange (fit_lt hv) (h.sec b))
  rw [Packet.set_udf]
  exact h.udf b

theorem Inv.of_wrapStatusCmd {b : Bank} (ht : wrapStatusCmd block b s = .ok t) : Inv t := by
  obtain ⟨v, -, rfl⟩ := wrapStatusCmd_eq_ok.mp ht
  exact h.wrap b _ (by simp)

theorem Inv.of_wrapSensorCmd {b : Bank} (ht : wrapSensorCmd block b s = .ok t) : Inv t := by
  obtain ⟨v, -, rfl⟩ := wrapSensorCmd_eq_ok.mp ht
  have := minBE_length_le s.arg1
  exact h.wrap b _ (by simp; omega)

theorem Inv.of_routeCmd {b : Bank} (ht : routeCmd block b s = .ok t) : Inv t := by
  rcases routeCmd_block_cases ht with ⟨-, v, r0, r1, r2, rfl⟩ | ⟨-, x, r0, r1, r2, hx, rfl⟩
  · exact (h.setMainStateTc v).setRes r0 r1 r2
  · exact (h.putOBuf (hx ▸ h.udf_le_bufCap b)).setRes r0 r1 r2

/-- Every command keeps the invariant. -/
theorem Inv.of_exec {i : Instr} (ht : exec i s = .next t) : Inv t := by
  cases i with
  | new b =>
    obtain rfl := exec_new_eq_next.mp ht
    exact (h.setBank (p := emptyPacket block) b (Nat.zero_le _) (zeroSecHdr_inRange _)).setErr 0
  | phEncode b =>
    obtain rfl := exec_phEncode_eq_next.mp ht
    exact (h.putOBuf (by simp)).setErr 0
  | phDecode b => exact h.of_finish (fun _ hu => h.of_phDecodeCmd hu) ht
  | shEncode b =>
    obtain rfl := exec_shEncode_eq_next.mp ht
    exact (h.putOBuf (by simp)).setErr 0
  | shDecode b => exact h.of_finish (fun _ hu => h.of_shDecodeCmd hu) ht
  | serialize b => exact h.of_finish (fun _ hu => h.of_serializeCmd hu) ht
  | interpret b => exact h.of_finish (fun _ hu => h.of_interpretCmd hu) ht
  | setUserData b => exact h.of_finish (fun _ hu => h.of_setUserDataCmd hu) ht
  | getUserData b =>
    obtain rfl := exec_getUserData_eq_next.mp ht
    exact (h.putOBuf (h.udf_le_bufCap b)).setErr 0
  | getField b sel =>
    exact h.of_finish (fun _ hu => by obtain ⟨f, -, rfl⟩ := getFieldCmd_eq_ok.mp hu; exact h.setRes0 _) ht
  | setField b sel => exact h.of_finish (fun _ hu => h.of_setFieldCmd hu) ht
  | clone b =>
    obtain rfl := exec_clone_eq_next.mp ht
    exact (h.setBank _ (h.udf b) (h.sec b)).setErr 0
  | wrapStatus b => exact h.of_finish (fun _ hu => h.of_wrapStatusCmd hu) ht
  | wrapSensor b => exact h.of_finish (fun _ hu => h.of_wrapSensorCmd hu) ht
  | route b => exact h.of_finish (fun _ hu => h.of_routeCmd hu) ht
  | checkSize sel =>
    exact h.of_finish (fun _ hu => by obtain ⟨k, -, -, rfl⟩ := checkSizeCmd_eq_ok.mp hu; exact h) ht

/-- A host write of a register keeps the invariant; it runs a command where the register is CMD. -/
theorem Inv.of_hostWriteReg {r : Nat} {v : Word} (ht : hostWriteReg r v s = .next t) : Inv t := by
  match r with
  | 0 =>
    change writeCmd v s = .next t at ht
    cases hd : decode v with
    | ok i => exact h.of_exec ((writeCmd_of_ok hd s).symm.trans ht)
    | error e =>
      rw [writeCmd_of_error hd] at ht; cases ht
      exact h.setErr _
  | 1 => cases ht; exact h.congr rfl rfl rfl rfl rfl rfl
  | 2 => cases ht; exact h.congr rfl rfl rfl rfl rfl rfl
  | r + 3 => cases ht

theorem Inv.of_hostWriteIBuf {a x : Nat} (ht : hostWriteIBuf block a x s = .next t) : Inv t := by
  obtain ⟨ha, -, rfl⟩ := hostWriteIBuf_eq_next.mp ht
  exact { h with ibuf := h.ibuf.write _ ha }

/-- Every transaction keeps the invariant. -/
theorem Inv.of_serve {tr : Transaction} (ht : serve tr s = .next t) : Inv t := by
  cases tr with
  | writeReg r v => exact h.of_hostWriteReg ht
  | readReg r =>
    obtain ⟨v, -, rfl⟩ := hostReadReg_eq_next.mp ht
    exact h.respond _
  | writeIBuf a x => exact h.of_hostWriteIBuf ht
  | readIBuf a =>
    obtain ⟨-, x, -, rfl⟩ := hostReadBuf_eq_next.mp ht
    exact h.respond _
  | readOBuf a =>
    obtain ⟨-, x, -, rfl⟩ := hostReadBuf_eq_next.mp ht
    exact h.respond _
  | reset => cases ht; exact invariantAtReset.congr rfl rfl rfl rfl rfl rfl

end Steps

/-- Settles O14: the step serves the next transaction, or holds the state where none is pending. -/
theorem everyStepKeepsTheInvariant : Obligations.EveryStepKeepsTheInvariant := by
  intro s t h ht
  cases hp : s.pending with
  | nil =>
    rw [step_nil hp] at ht; cases ht
    exact h
  | cons tr rest => exact (h.accept rest).of_serve ((step_cons hp).symm.trans ht)

end Sys2Proof.Machine
end

section
/-! What each command may change, one row of the access matrix each (10_state.md R40), and the packet data length after
the commands that set it. -/

namespace Sys2Proof.Machine

/-- A command that makes no more than a new bank `b` changes that bank only; a property of every bank it can make and of
the bank it starts from is one of the bank it leaves. -/
theorem onlyBank_and_of_finish {s t : State} {r : Cmd State} {b : Bank} (P : Packet → Prop) (h : finish s r = .next t)
    (hr : ∀ u, r = .ok u → ∃ p, u = s.setBank b p ∧ P p) (hs : P (s.bank b)) : OnlyBank b s t ∧ P (t.bank b) := by
  obtain ⟨u, e, rfl, hu | rfl⟩ := exists_setErr_of_finish h
  · obtain ⟨p, rfl, hp⟩ := hr u hu
    exact ⟨⟨by simp, rfl⟩, by simpa using hp⟩
  · exact ⟨⟨by simp, rfl⟩, by simpa using hs⟩

theorem onlyBank_of_finish {s t : State} {r : Cmd State} {b : Bank} (h : finish s r = .next t)
    (hr : ∀ u, r = .ok u → ∃ p, u = s.setBank b p) : OnlyBank b s t :=
  (onlyBank_and_of_finish (fun _ => True) h (fun u hu => (hr u hu).imp fun _ hp => ⟨hp, trivial⟩) trivial).1

/-- Bytes written to OBUF from position 0 lie below the new OBUF_LEN. -/
theorem WroteOBuf.keepsOBufTail {s t : State} {x : List Byte} (h : WroteOBuf s t x) : KeepsOBufTail s t :=
  fun a ha => h.rest a (h.len ▸ ha)

theorem keepsOBufTail_putOBuf (s : State) {x : List Byte} (hx : x.length ≤ block.bufCap) :
    KeepsOBufTail s (s.putOBuf x) :=
  (s.wroteOBuf_putOBuf x (Nat.lt_of_le_of_lt hx (by simp))).keepsOBufTail

theorem KeepsOBufTail.of_obuf_eq {s t : State} (h : t.obuf = s.obuf) : KeepsOBufTail s t :=
  fun a _ => congrArg (Memory.read · a) h

section Rows
variable {s t : State} {b : Bank} {sel : BitVec 4}

theorem phDecode_frame (h : exec (.phDecode b) s = .next t) :
    OnlyBank b s t ∧ (t.bank b).sec = (s.bank b).sec ∧ (t.bank b).udf = (s.bank b).udf := by
  refine onlyBank_and_of_finish (fun p => p.sec = (s.bank b).sec ∧ p.udf = (s.bank b).udf) h (fun u hu => ?_) ⟨rfl, rfl⟩
  obtain ⟨-, -, x, -, rfl⟩ := phDecodeCmd_eq_ok.mp hu
  exact ⟨_, rfl, rfl, rfl⟩

theorem shDecode_frame (h : exec (.shDecode b) s = .next t) :
    OnlyBank b s t ∧ (t.bank b).pri = (s.bank b).pri ∧ (t.bank b).udf = (s.bank b).udf := by
  refine onlyBank_and_of_finish (fun p => p.pri = (s.bank b).pri ∧ p.udf = (s.bank b).udf) h (fun u hu => ?_) ⟨rfl, rfl⟩
  obtain ⟨-, -, x, -, rfl⟩ := shDecodeCmd_eq_ok.mp hu
  exact ⟨_, rfl, rfl, rfl⟩

theorem interpret_frame (h : exec (.interpret b) s = .next t) : OnlyBank b s t := by
  refine onlyBank_of_finish h fun u hu => ?_
  obtain ⟨-, -, x, p, -, -, -, rfl⟩ := interpretCmd_eq_ok.mp hu
  exact ⟨p, rfl⟩

theorem setUserData_frame (h : exec (.setUserData b) s = .next t) :
    OnlyBank b s t ∧ (t.bank b).sec = (s.bank b).sec ∧
      (t.bank b).pri = { (s.bank b).pri with pdl := (t.bank b).pri.pdl } := by
  refine onlyBank_and_of_finish
    (fun p => p.sec = (s.bank b).sec ∧ p.pri = { (s.bank b).pri with pdl := p.pri.pdl }) h (fun u hu => ?_) ⟨rfl, rfl⟩
  obtain ⟨-, -, -, x, -, rfl⟩ := setUserDataCmd_eq_ok.mp hu
  exact ⟨_, rfl, rfl, rfl⟩

/-- A selector is the selector of the field it names. -/
theorem Field.sel_of_ofSel {f : Field} (h : Field.ofSel sel = some f) : f.sel = sel := by
  revert h f sel; decide

/-- Setting a field changes no field with another selector: the tables of R85 list each field once. -/
theorem fieldNat_set_of_ne (p : Packet) (f : Field) (v : Word) {k : Nat} (hk : k < 13) (hne : k ≠ f.sel.toNat) :
    fieldNat (p.set f v) k = fieldNat p k := by
  cases f <;> interval_cases k <;> simp [fieldNat, Packet.set, Field.sel] at hne ⊢

theorem setField_frame (h : exec (.setField b sel) s = .next t) :
    OnlyBank b s t ∧ (t.bank b).udf = (s.bank b).udf ∧
      ∀ k, k < 13 → k ≠ sel.toNat → fieldNat (t.bank b) k = fieldNat (s.bank b) k := by
  refine onlyBank_and_of_finish
    (fun p => p.udf = (s.bank b).udf ∧ ∀ k, k < 13 → k ≠ sel.toNat → fieldNat p k = fieldNat (s.bank b) k)
    h (fun u hu => ?_) ⟨rfl, fun _ _ _ => rfl⟩
  obtain ⟨f, v, hf, -, -, rfl⟩ := setFieldCmd_eq_ok.mp hu
  exact ⟨_, rfl, by simp, fun k hk hne => fieldNat_set_of_ne _ f v hk (Field.sel_of_ofSel hf ▸ hne)⟩

/-- PDL is read only, so SET_FIELD keeps it. -/
theorem Packet.set_pdl (p : Packet) (f : Field) (v : Word) : (p.set f v).pri.pdl = p.pri.pdl := by
  cases f <;> rfl

theorem setField_pdl (h : exec (.setField b sel) s = .next t) :
    OnlyBank b s t ∧ (t.bank b).pri.pdl = (s.bank b).pri.pdl := by
  refine onlyBank_and_of_finish (fun p => p.pri.pdl = (s.bank b).pri.pdl) h (fun u hu => ?_) rfl
  obtain ⟨f, v, -, -, -, rfl⟩ := setFieldCmd_eq_ok.mp hu
  exact ⟨_, rfl, Packet.set_pdl _ f v⟩

theorem new_frame (h : exec (.new b) s = .next t) : OnlyBank b s t := by
  obtain rfl := exec_new_eq_next.mp h
  exact ⟨by simp, rfl⟩

theorem clone_frame (h : exec (.clone b) s = .next t) : OnlyBank (otherBank b) s t := by
  obtain rfl := exec_clone_eq_next.mp h
  exact ⟨by simp, rfl⟩

theorem phEncode_frame (h : exec (.phEncode b) s = .next t) : OnlyOBuf s t ∧ KeepsOBufTail s t := by
  obtain rfl := exec_phEncode_eq_next.mp h
  exact ⟨rfl, keepsOBufTail_putOBuf s (by simp)⟩

theorem shEncode_frame (h : exec (.shEncode b) s = .next t) : OnlyOBuf s t ∧ KeepsOBufTail s t := by
  obtain rfl := exec_shEncode_eq_next.mp h
  exact ⟨rfl, keepsOBufTail_putOBuf s (by simp)⟩

theorem getUserData_frame (h : exec (.getUserData b) s = .next t) :
    OnlyOBuf s t ∧ ((s.bank b).udf.length ≤ udfCap → KeepsOBufTail s t) := by
  obtain rfl := exec_getUserData_eq_next.mp h
  exact ⟨rfl, fun hl => keepsOBufTail_putOBuf s (hl.trans (by simp))⟩

theorem serialize_frame (h : exec (.serialize b) s = .next t) :
    t.bank (otherBank b) = s.bank (otherBank b) ∧
      t.bank b = { s.bank b with pri := { (s.bank b).pri with pdl := (t.bank b).pri.pdl } } ∧
      t = { s with pkt0 := t.pkt0, pkt1 := t.pkt1, obuf := t.obuf, obufLen := t.obufLen, statusErr := t.statusErr } ∧
      KeepsOBufTail s t := by
  obtain ⟨u, e, rfl, hu | rfl⟩ := exists_setErr_of_finish h
  · obtain ⟨-, hlen, rfl⟩ := serializeCmd_eq_ok.mp hu
    refine ⟨by simp, by simp [Packet.withDataLen], rfl, ?_⟩
    refine keepsOBufTail_putOBuf (s.setBank b _) ?_
    rw [Packet.bytes_length_block, Packet.withDataLen_dataLen, block_bufCap]
    omega
  · exact ⟨by simp, by simp, rfl, .of_obuf_eq rfl⟩

theorem getField_frame (h : exec (.getField b sel) s = .next t) :
    t = { s with res0 := t.res0, statusErr := t.statusErr } := by
  obtain ⟨u, e, rfl, hu | rfl⟩ := exists_setErr_of_finish h
  · obtain ⟨f, -, rfl⟩ := getFieldCmd_eq_ok.mp hu
    rfl
  · rfl

theorem checkSize_frame (h : exec (.checkSize sel) s = .next t) : t = { s with statusErr := t.statusErr } := by
  obtain ⟨u, e, rfl, hu | rfl⟩ := exists_setErr_of_finish h
  · obtain ⟨k, -, -, rfl⟩ := checkSizeCmd_eq_ok.mp hu
    rfl
  · rfl

/-- The two WRAP commands change bank `b` and the counters only. -/
theorem wrap_frame {r : Cmd State} (h : finish s r = .next t)
    (hr : ∀ u, r = .ok u → ∃ apid x, u = s.wrap block b apid x) :
    t.bank (otherBank b) = s.bank (otherBank b) ∧
      t = { s with pkt0 := t.pkt0, pkt1 := t.pkt1, seqCtr := t.seqCtr, statusErr := t.statusErr } := by
  obtain ⟨u, e, rfl, hu | rfl⟩ := exists_setErr_of_finish h
  · obtain ⟨apid, x, rfl⟩ := hr u hu
    exact ⟨by simp [State.wrap], rfl⟩
  · exact ⟨by simp, rfl⟩

theorem wrapStatus_frame (h : exec (.wrapStatus b) s = .next t) :
    t.bank (otherBank b) = s.bank (otherBank b) ∧
      t = { s with pkt0 := t.pkt0, pkt1 := t.pkt1, seqCtr := t.seqCtr, statusErr := t.statusErr } :=
  wrap_frame h fun _ hu => (wrapStatusCmd_eq_ok.mp hu).elim fun _ hv => ⟨_, _, hv.2⟩

theorem wrapSensor_frame (h : exec (.wrapSensor b) s = .next t) :
    t.bank (otherBank b) = s.bank (otherBank b) ∧
      t = { s with pkt0 := t.pkt0, pkt1 := t.pkt1, seqCtr := t.seqCtr, statusErr := t.statusErr } :=
  wrap_frame h fun _ hu => (wrapSensorCmd_eq_ok.mp hu).elim fun _ hv => ⟨_, _, hv.2⟩

theorem route_frame (h : exec (.route b) s = .next t) :
    t = { s with
      obuf := t.obuf, obufLen := t.obufLen, res0 := t.res0, res1 := t.res1, res2 := t.res2,
      mainStateTc := t.mainStateTc, statusErr := t.statusErr } := by
  obtain ⟨u, e, rfl, hu | rfl⟩ := exists_setErr_of_finish h
  · rcases routeCmd_block_cases hu with ⟨-, v, r0, r1, r2, rfl⟩ | ⟨-, x, r0, r1, r2, -, rfl⟩ <;> rfl
  · rfl

theorem route_keepsOBufTail (h : exec (.route b) s = .next t) (hl : (s.bank b).udf.length ≤ udfCap) :
    KeepsOBufTail s t := by
  obtain ⟨u, e, rfl, hu | rfl⟩ := exists_setErr_of_finish h
  · rcases routeCmd_block_cases hu with ⟨-, v, r0, r1, r2, rfl⟩ | ⟨-, x, r0, r1, r2, hx, rfl⟩
    · exact .of_obuf_eq rfl
    · exact keepsOBufTail_putOBuf s (hx ▸ hl.trans (by simp))
  · exact .of_obuf_eq rfl

theorem route_loc_keeps_obuf (h : exec (.route b) s = .next t) (hk : routeClassOf b s = .loc) :
    t.obuf = s.obuf ∧ t.obufLen = s.obufLen := by
  obtain ⟨u, e, rfl, hu | rfl⟩ := exists_setErr_of_finish h
  · rcases routeCmd_block_cases hu with ⟨-, v, r0, r1, r2, rfl⟩ | ⟨hc, -⟩
    · exact ⟨rfl, rfl⟩
    · simp [hk] at hc
  · exact ⟨rfl, rfl⟩

theorem route_keeps_mainStateTc (h : exec (.route b) s = .next t) (hk : routeClassOf b s ≠ .loc) :
    t.mainStateTc = s.mainStateTc := by
  obtain ⟨u, e, rfl, hu | rfl⟩ := exists_setErr_of_finish h
  · rcases routeCmd_block_cases hu with ⟨hc, -⟩ | ⟨-, x, r0, r1, r2, -, rfl⟩
    · exact absurd hc hk
    · rfl
  · rfl

theorem route_invalid_frame (h : exec (.route b) s = .next t) (hk : routeClassOf b s = .invalid) :
    t = { s with statusErr := t.statusErr } := by
  obtain ⟨u, e, rfl, hu | rfl⟩ := exists_setErr_of_finish h
  · have := routeCmd_block_cases hu
    simp [hk] at this
  · rfl

end Rows

/-- Settles O18, a row of the access matrix a command. -/
theorem onlyTheAccessMatrixIsWritten : Obligations.OnlyTheAccessMatrixIsWritten := by
  intro i s t h
  cases i with
  | new b => exact new_frame h
  | phEncode b => exact phEncode_frame h
  | phDecode b => exact phDecode_frame h
  | shEncode b => exact shEncode_frame h
  | shDecode b => exact shDecode_frame h
  | serialize b => exact serialize_frame h
  | interpret b => exact interpret_frame h
  | setUserData b => exact setUserData_frame h
  | getUserData b => exact getUserData_frame h
  | getField b sel => exact getField_frame h
  | setField b sel => exact setField_frame h
  | clone b => exact clone_frame h
  | wrapStatus b => exact wrapStatus_frame h
  | wrapSensor b => exact wrapSensor_frame h
  | route b =>
    refine ⟨route_frame h, ?_, route_keepsOBufTail h⟩
    cases hk : routeClassOf b s with
    | loc => exact route_loc_keeps_obuf h hk
    | forward sid => exact route_keeps_mainStateTc h (by simp [hk])
    | broadcast => exact route_keeps_mainStateTc h (by simp [hk])
    | invalid => exact route_invalid_frame h hk
  | checkSize sel => exact checkSize_frame h

/-! The packet data length. -/

theorem bank_eq_or_eq_otherBank (b b' : Bank) : b = b' ∨ b = otherBank b' := by
  cases b <;> cases b' <;> decide

/-- Where the other bank of `b'` is kept, the bank with a new PDL is `b'`. -/
theorem eq_of_pdl_ne {s t : State} {b b' : Bank} (h : t.bank (otherBank b') = s.bank (otherBank b'))
    (hne : (t.bank b).pri.pdl ≠ (s.bank b).pri.pdl) : b' = b := by
  rcases bank_eq_or_eq_otherBank b b' with rfl | rfl
  · rfl
  · exact absurd (congrArg (·.pri.pdl) h) hne

/-- A command that changes bank `b'` only, and keeps its PDL, keeps the PDL of every bank. -/
theorem OnlyBank.pdl_eq {s t : State} {b' : Bank} (h : OnlyBank b' s t)
    (h' : (t.bank b').pri.pdl = (s.bank b').pri.pdl) (b : Bank) : (t.bank b).pri.pdl = (s.bank b).pri.pdl := by
  rcases bank_eq_or_eq_otherBank b b' with rfl | rfl
  · exact h'
  · exact congrArg (·.pri.pdl) h.other

/-- What keeps both packets keeps the PDL of every bank. -/
theorem pdl_eq_of_pkts_eq {s t : State} (h0 : t.pkt0 = s.pkt0) (h1 : t.pkt1 = s.pkt1) (b : Bank) :
    (t.bank b).pri.pdl = (s.bank b).pri.pdl := by
  cases b with
  | b0 => exact congrArg (·.pri.pdl) h0
  | b1 => exact congrArg (·.pri.pdl) h1

/-- Settles O19, from the rows of the access matrix: a command either changes no packet, or keeps the PDL of the bank it
changes, or is one of the listed ones and changes the PDL of its own bank. -/
theorem onlyTheseCommandsChangePdl : Obligations.OnlyTheseCommandsChangePdl := by
  intro i b s t h hne
  cases i with
  | new b' => simp [eq_of_pdl_ne (new_frame h).other hne]
  | phEncode b' =>
    have hf := (phEncode_frame h).1
    exact absurd (pdl_eq_of_pkts_eq (congrArg State.pkt0 hf) (congrArg State.pkt1 hf) b) hne
  | phDecode b' => simp [eq_of_pdl_ne (phDecode_frame h).1.other hne]
  | shEncode b' =>
    have hf := (shEncode_frame h).1
    exact absurd (pdl_eq_of_pkts_eq (congrArg State.pkt0 hf) (congrArg State.pkt1 hf) b) hne
  | shDecode b' =>
    obtain ⟨hb, hpri, -⟩ := shDecode_frame h
    exact absurd (hb.pdl_eq (congrArg PriHdr.pdl hpri) b) hne
  | serialize b' => simp [eq_of_pdl_ne (serialize_frame h).1 hne]
  | interpret b' => simp [eq_of_pdl_ne (interpret_frame h).other hne]
  | setUserData b' => simp [eq_of_pdl_ne (setUserData_frame h).1.other hne]
  | getUserData b' =>
    have hf := (getUserData_frame h).1
    exact absurd (pdl_eq_of_pkts_eq (congrArg State.pkt0 hf) (congrArg State.pkt1 hf) b) hne
  | getField b' sel =>
    have hf := getField_frame h
    exact absurd (pdl_eq_of_pkts_eq (congrArg State.pkt0 hf) (congrArg State.pkt1 hf) b) hne
  | setField b' sel =>
    obtain ⟨hb, hpdl⟩ := setField_pdl h
    exact absurd (hb.pdl_eq hpdl b) hne
  | clone b' => simp [← eq_of_pdl_ne (clone_frame h).other hne]
  | wrapStatus b' => simp [eq_of_pdl_ne (wrapStatus_frame h).1 hne]
  | wrapSensor b' => simp [eq_of_pdl_ne (wrapSensor_frame h).1 hne]
  | route b' =>
    have hf := route_frame h
    exact absurd (pdl_eq_of_pkts_eq (congrArg State.pkt0 hf) (congrArg State.pkt1 hf) b) hne
  | checkSize sel =>
    have hf := checkSize_frame h
    exact absurd (pdl_eq_of_pkts_eq (congrArg State.pkt0 hf) (congrArg State.pkt1 hf) b) hne

/-- The length invariant of a packet (10_state.md R25): PDL is one less than the length of its data field. -/
def Packet.PdlExact (p : Packet) : Prop := p.pri.pdl.toNat + 1 = p.dataLen block

theorem Packet.pdlExact_iff {p : Packet} :
    p.PdlExact ↔ p.pri.pdl.toNat + 1 = (if p.pri.shf = 1 then 8 else 0) + p.udf.length := by
  simp only [Packet.PdlExact, Packet.dataLen, Packet.secLen, block_secLen]

theorem Packet.withDataLen_pdlExact {p : Packet} {n : Nat} (h1 : 1 ≤ n) (h2 : n ≤ 65536) (hn : n = p.dataLen block) :
    (p.withDataLen n).PdlExact := (p.withDataLen_pdl_add_one h1 h2).trans hn

theorem telemetryPacket_pdlExact (apid : BitVec 11) (seqc : BitVec 14) {u : List Byte} (h1 : 1 ≤ u.length)
    (h2 : u.length ≤ 65536) : (telemetryPacket block apid seqc u).PdlExact := by
  simp only [Packet.pdlExact_iff, telemetryPacket, BitVec.toNat_ofNat, if_neg (show (0 : BitVec 1) ≠ 1 by decide)]
  omega

/-- INTERPRET reads the data field whose length the header declares, at SHF 1 less the secondary header. -/
theorem interpretBody_pdlExact {h : PriHdr} {s : State} {p : Packet} (hp : interpretBody block h s = .ok p) :
    p.PdlExact := by
  unfold interpretBody at hp
  rw [Packet.pdlExact_iff]
  split at hp
  · next hshf =>
    obtain ⟨u, hu, hp⟩ := Cmd.bind_eq_ok.mp hp
    cases hp
    simp [hshf, (State.memRead_eq_ok.mp hu).1]
  · next hshf =>
    split at hp
    · cases hp
    · next hlen =>
      obtain ⟨y, -, hp⟩ := Cmd.bind_eq_ok.mp hp
      obtain ⟨u, hu, hp⟩ := Cmd.bind_eq_ok.mp hp
      cases hp
      have hshf : h.shf = 1 := (BitVec.eq_zero_or_eq_one h.shf).resolve_left hshf
      rw [if_pos hshf, (State.memRead_eq_ok.mp hu).1]
      rw [block_secLen] at hlen ⊢
      dsimp only
      omega

section SetsPdl
variable {s t : State} {b : Bank}

theorem serializeCmd_pdlExact (h : serializeCmd block b s = .ok t) : (t.bank b).PdlExact := by
  obtain ⟨h1, h2, rfl⟩ := serializeCmd_eq_ok.mp h
  rw [State.putOBuf_bank, State.setBank_bank_same]
  exact Packet.withDataLen_pdlExact h1 h2 rfl

theorem setUserDataCmd_pdlExact (h : setUserDataCmd block b s = .ok t) : (t.bank b).PdlExact := by
  obtain ⟨-, h1, h2, u, hu, rfl⟩ := setUserDataCmd_eq_ok.mp h
  rw [State.setBank_bank_same]
  exact Packet.withDataLen_pdlExact h1 h2 (congrArg _ (State.memRead_eq_ok.mp hu).1.symm)

theorem interpretCmd_pdlExact (h : interpretCmd block b s = .ok t) : (t.bank b).PdlExact := by
  obtain ⟨-, -, x, p, -, -, hp, rfl⟩ := interpretCmd_eq_ok.mp h
  rw [State.setBank_bank_same]
  exact interpretBody_pdlExact hp

theorem wrap_pdlExact (s : State) (b : Bank) (apid : BitVec 11) {u : List Byte} (h1 : 1 ≤ u.length)
    (h2 : u.length ≤ 65536) : ((s.wrap block b apid u).bank b).PdlExact := by
  rw [State.wrap, State.setBank_bank_same]
  exact telemetryPacket_pdlExact _ _ h1 h2

theorem wrapStatusCmd_pdlExact (h : wrapStatusCmd block b s = .ok t) : (t.bank b).PdlExact := by
  obtain ⟨v, -, rfl⟩ := wrapStatusCmd_eq_ok.mp h
  exact wrap_pdlExact s b _ (by simp) (by simp)

theorem wrapSensorCmd_pdlExact (h : wrapSensorCmd block b s = .ok t) : (t.bank b).PdlExact := by
  obtain ⟨v, -, rfl⟩ := wrapSensorCmd_eq_ok.mp h
  have := minBE_length_le s.arg1
  exact wrap_pdlExact s b _ (by simp; omega) (by simp; omega)

/-- A command that ends with STATUS.ERR 0 has the length invariant of what it makes. -/
theorem pdlExact_of_finish {r : Cmd State} (h : finish s r = .next t) (h0 : t.statusErr = 0)
    (hr : ∀ u, r = .ok u → (u.bank b).PdlExact) : (t.bank b).PdlExact := by
  obtain ⟨u, hu, rfl⟩ := ok_of_finish_statusErr_eq_zero h h0
  rw [State.setErr_bank]
  exact hr u hu

end SetsPdl

/-- Settles O20: each of the five makes a packet with the length invariant. -/
theorem pdlAgreesWithTheData : Obligations.PdlAgreesWithTheData := by
  intro i b s t h h0 hi
  rw [← Packet.pdlExact_iff]
  rcases hi with rfl | rfl | rfl | rfl | rfl
  · exact pdlExact_of_finish h h0 fun _ => serializeCmd_pdlExact
  · exact pdlExact_of_finish h h0 fun _ => setUserDataCmd_pdlExact
  · exact pdlExact_of_finish h h0 fun _ => interpretCmd_pdlExact
  · exact pdlExact_of_finish h h0 fun _ => wrapStatusCmd_pdlExact
  · exact pdlExact_of_finish h h0 fun _ => wrapSensorCmd_pdlExact

end Sys2Proof.Machine
end

section
/-! What the host port refuses, and a host read made again. -/

namespace Sys2Proof.Machine

theorem State.readReg_eq_none {s : State} {r : Nat} : s.readReg r = none ↔ r = 0 ∨ 8 < r := by
  match r with
  | 0 | 1 | 2 | 3 | 4 | 5 | 6 | 7 | 8 => simp [State.readReg]
  | r + 9 => simp [State.readReg]

/-- A write to CMD is never refused: it runs a command, or raises an error. -/
theorem writeCmd_ne_refused (w : Word) (s : State) (e : Refusal) : writeCmd w s ≠ .refused e := by
  cases hd : decode w with
  | ok i =>
    rw [writeCmd_of_ok hd]
    exact exec_ne_refused i s e
  | error _ => simp [writeCmd_of_error hd]

theorem hostWriteReg_refuses {r : Nat} {v : Word} {s : State} : (∃ e, hostWriteReg r v s = .refused e) ↔ 3 ≤ r := by
  match r with
  | 0 => simp [hostWriteReg, writeCmd_ne_refused]
  | 1 | 2 => simp [hostWriteReg]
  | r + 3 => simp [hostWriteReg]

theorem hostReadReg_refuses {r : Nat} {s : State} : (∃ e, hostReadReg r s = .refused e) ↔ r = 0 ∨ 8 < r := by
  rw [← State.readReg_eq_none (s := s), hostReadReg]
  cases s.readReg r <;> simp

theorem hostWriteIBuf_refuses {c : Config} {a x : Nat} {s : State} :
    (∃ e, hostWriteIBuf c a x s = .refused e) ↔ c.bufCap ≤ a ∨ 256 ≤ x := by
  unfold hostWriteIBuf
  split
  · simp [*]
  · split <;> simp [*]

theorem hostReadBuf_refuses {c : Config} {m : Memory} {a : Nat} {s : State} :
    (∃ e, hostReadBuf c m a s = .refused e) ↔ c.bufCap ≤ a := by
  unfold hostReadBuf
  split
  · simp [*]
  · cases Memory.read m a <;> simp [*]

/-- Settles O8, one kind of transaction at a time. -/
theorem portRefusesExactlyOffTheMap : Obligations.PortRefusesExactlyOffTheMap := by
  intro t s
  cases t with
  | writeReg r v => exact hostWriteReg_refuses
  | readReg r => exact hostReadReg_refuses
  | writeIBuf a x => exact hostWriteIBuf_refuses
  | readIBuf a => exact hostReadBuf_refuses
  | readOBuf a => exact hostReadBuf_refuses
  | reset => simp [serve]

/-- No register shows what the port returned. -/
@[simp] theorem State.readReg_respond (s : State) (x : Response) (r : Nat) : (s.respond x).readReg r = s.readReg r :=
  rfl

/-- Settles O11: a read gives a response from a register or a buffer, and a response changes neither. -/
theorem hostReadsHaveNoSideEffect : Obligations.HostReadsHaveNoSideEffect := by
  rintro _ s u (⟨r, rfl⟩ | ⟨a, rfl⟩ | ⟨a, rfl⟩) h
  · obtain ⟨v, hv, rfl⟩ := hostReadReg_eq_next.mp h
    exact ⟨rfl, hostReadReg_eq_next.mpr ⟨v, by simpa using hv, rfl⟩⟩
  · obtain ⟨ha, x, hx, rfl⟩ := hostReadBuf_eq_next.mp h
    exact ⟨rfl, hostReadBuf_eq_next.mpr ⟨ha, x, hx, rfl⟩⟩
  · obtain ⟨ha, x, hx, rfl⟩ := hostReadBuf_eq_next.mp h
    exact ⟨rfl, hostReadBuf_eq_next.mpr ⟨ha, x, hx, rfl⟩⟩

end Sys2Proof.Machine
end

section
/-! The host's stream of transactions and the commands in it. -/

namespace Sys2Proof

/-- Decoding inverts encoding: the encoder's word matches its own row of the opcode map and no earlier one. -/
theorem decode_encode (i : Instr) : decode (encode i) = .ok i := by
  cases i with
  | new b | phEncode b | phDecode b | shEncode b | shDecode b | serialize b | interpret b | setUserData b
  | getUserData b | clone b | wrapStatus b | wrapSensor b | route b => cases b <;> rfl
  | getField b sel | setField b sel => cases b <;> revert sel <;> decide
  | checkSize sel => revert sel; decide

/-- A whole command word is its own table word. -/
@[simp] theorem tableWord_toNat (w : Word) : tableWord 32 w.toNat = w := by
  rw [tableWord, Nat.mod_eq_of_lt w.isLt, BitVec.ofNat_toNat, BitVec.setWidth_eq]

namespace Machine

/-- A step whose transaction writes a legal word to CMD runs the command of that word. -/
theorem step_of_command {s : State} {w : Word} {i : Instr} {rest : List Transaction}
    (hp : s.pending = .writeReg 0 w :: rest) (hd : decode w = .ok i) : step s = exec i (s.accept rest) :=
  (step_cons hp).trans (writeCmd_of_ok hd _)

/-- Settles O6. -/
theorem stepServesTheNextTransaction : Obligations.StepServesTheNextTransaction :=
  ⟨fun _ _ _ hp => step_cons hp, fun _ hp => step_nil hp⟩

/-- Settles O7. -/
theorem stepRunsTheDecodedCommand : Obligations.StepRunsTheDecodedCommand :=
  fun _ _ _ _ hp hd => step_of_command hp hd

/-- Settles O5: the word placed is the instruction's own, and it decodes to the instruction. -/
theorem placedCommandRuns : Obligations.PlacedCommandRuns := by
  intro i s
  rw [State.withFetchWord, tableWord_toNat]
  exact step_of_command (s.withCommand_pending _) (decode_encode i)

end Machine
end Sys2Proof
end

section
/-! A command made again (20_memory.md R59). No command reads STATUS, so the second one runs as at the state the first
one made, and there every command but the WRAP commands makes that state again. -/

namespace Sys2Proof.Machine

/-! STATUS.ERR before a command. -/

/-- What a command made, with another STATUS.ERR. -/
def Cmd.withErr (e : BitVec 8) (r : Cmd State) : Cmd State := r.bind fun u => .ok (u.setErr e)

section WithErr
variable (c : Config) (b : Bank) (sel : BitVec 4) (s : State) (e : BitVec 8)

@[simp] theorem Cmd.withErr_ok : (Cmd.ok s).withErr e = .ok (s.setErr e) := rfl

@[simp] theorem Cmd.withErr_raise (x : Err) : (Cmd.raise x).withErr e = .raise x := rfl

theorem Cmd.withErr_bind {α : Type} (x : Cmd α) (f : α → Cmd State) :
    (x.bind f).withErr e = x.bind fun a => (f a).withErr e := by cases x <;> rfl

theorem Cmd.withErr_ite (p : Prop) [Decidable p] (x y : Cmd State) :
    (if p then x else y).withErr e = if p then x.withErr e else y.withErr e := apply_ite _ p x y

/-- The end of a command overwrites STATUS.ERR. -/
theorem finish_withErr (r : Cmd State) : finish (s.setErr e) (r.withErr e) = finish s r := by cases r <;> rfl

theorem phDecodeCmd_setErr : phDecodeCmd c b (s.setErr e) = (phDecodeCmd c b s).withErr e := by
  simp only [phDecodeCmd, Cmd.withErr_ite, Cmd.withErr_bind]
  rfl

theorem shDecodeCmd_setErr : shDecodeCmd c b (s.setErr e) = (shDecodeCmd c b s).withErr e := by
  simp only [shDecodeCmd, Cmd.withErr_ite, Cmd.withErr_bind]
  rfl

theorem serializeCmd_setErr : serializeCmd c b (s.setErr e) = (serializeCmd c b s).withErr e := by
  simp only [serializeCmd, Cmd.withErr_ite, State.setErr_bank]
  rfl

theorem interpretCmd_setErr : interpretCmd c b (s.setErr e) = (interpretCmd c b s).withErr e := by
  simp only [interpretCmd, Cmd.withErr_ite, Cmd.withErr_bind]
  rfl

theorem setUserDataCmd_setErr : setUserDataCmd c b (s.setErr e) = (setUserDataCmd c b s).withErr e := by
  simp only [setUserDataCmd, Cmd.withErr_ite, Cmd.withErr_bind, State.setErr_bank]
  rfl

theorem getFieldCmd_setErr : getFieldCmd b sel (s.setErr e) = (getFieldCmd b sel s).withErr e := by
  unfold getFieldCmd
  cases Field.ofSel sel with
  | none => rfl
  | some f => simp only [State.setErr_bank, Cmd.withErr_ok]; rfl

theorem setFieldCmd_setErr : setFieldCmd c b sel (s.setErr e) = (setFieldCmd c b sel s).withErr e := by
  unfold setFieldCmd
  cases Field.ofSel sel with
  | none => rfl
  | some f => simp only [Cmd.withErr_ite, Cmd.withErr_bind, State.setErr_bank]; rfl

theorem wrapStatusCmd_setErr : wrapStatusCmd c b (s.setErr e) = (wrapStatusCmd c b s).withErr e := by
  simp only [wrapStatusCmd, Cmd.withErr_bind]
  rfl

theorem wrapSensorCmd_setErr : wrapSensorCmd c b (s.setErr e) = (wrapSensorCmd c b s).withErr e := by
  simp only [wrapSensorCmd, Cmd.withErr_bind]
  rfl

theorem routeByClass_setErr (x : List Byte) (k : RouteClass) :
    routeByClass c x (s.setErr e) k = (routeByClass c x s k).withErr e := by
  cases k with
  | broadcast =>
    simp only [routeByClass, Cmd.withErr_ok]
    split <;> rfl
  | loc | forward sid | invalid => rfl

theorem routeCmd_setErr : routeCmd c b (s.setErr e) = (routeCmd c b s).withErr e := by
  simp only [routeCmd, Cmd.withErr_ite, State.setErr_bank, routeByClass_setErr, Cmd.withErr_raise]

theorem checkSizeCmd_setErr : checkSizeCmd c sel (s.setErr e) = (checkSizeCmd c sel s).withErr e := by
  unfold checkSizeCmd
  cases Transport.ofSel sel with
  | none => rfl
  | some k => simp only [Cmd.withErr_ite]; rfl

/-- No command reads STATUS. -/
theorem exec_setErr (i : Instr) : exec i (s.setErr e) = exec i s := by
  cases i with
  | new b => exact finish_withErr s e (newCmd block b s)
  | phEncode b =>
    rw [exec_phEncode, phEncodeCmd, State.setErr_bank]
    exact finish_withErr s e (phEncodeCmd b s)
  | phDecode b => rw [exec_phDecode, phDecodeCmd_setErr, finish_withErr, exec_phDecode]
  | shEncode b =>
    rw [exec_shEncode, shEncodeCmd, State.setErr_bank]
    exact finish_withErr s e (shEncodeCmd block b s)
  | shDecode b => rw [exec_shDecode, shDecodeCmd_setErr, finish_withErr, exec_shDecode]
  | serialize b => rw [exec_serialize, serializeCmd_setErr, finish_withErr, exec_serialize]
  | interpret b => rw [exec_interpret, interpretCmd_setErr, finish_withErr, exec_interpret]
  | setUserData b => rw [exec_setUserData, setUserDataCmd_setErr, finish_withErr, exec_setUserData]
  | getUserData b =>
    rw [exec_getUserData, getUserDataCmd, State.setErr_bank]
    exact finish_withErr s e (getUserDataCmd b s)
  | getField b sel => rw [exec_getField, getFieldCmd_setErr, finish_withErr, exec_getField]
  | setField b sel => rw [exec_setField, setFieldCmd_setErr, finish_withErr, exec_setField]
  | clone b =>
    rw [exec_clone, cloneCmd, State.setErr_bank]
    exact finish_withErr s e (cloneCmd b s)
  | wrapStatus b => rw [exec_wrapStatus, wrapStatusCmd_setErr, finish_withErr, exec_wrapStatus]
  | wrapSensor b => rw [exec_wrapSensor, wrapSensorCmd_setErr, finish_withErr, exec_wrapSensor]
  | route b => rw [exec_route, routeCmd_setErr, finish_withErr, exec_route]
  | checkSize sel => rw [exec_checkSize, checkSizeCmd_setErr, finish_withErr, exec_checkSize]

end WithErr

/-- A command that makes again the state it made leaves the end state of one write; an error is raised again. -/
theorem exec_again {i : Instr} {f : State → Cmd State} {s t : State} (hi : ∀ s, exec i s = finish s (f s))
    (hf : ∀ u, f s = .ok u → f u = .ok u) (h : exec i s = .next t) : exec i t = .next t := by
  rcases finish_eq_next.mp ((hi s).symm.trans h) with ⟨u, hu, rfl⟩ | ⟨e, -, rfl⟩
  · rw [exec_setErr, hi, hf u hu, finish_ok]
  · exact (exec_setErr s e.code i).trans h

/-! An update made again. -/

section Again
variable (s : State) (b : Bank)

@[simp] theorem State.setBank_setBank (p q : Packet) : (s.setBank b p).setBank b q = s.setBank b q := by
  cases b <;> rfl

theorem State.setBank_of_bank_eq {s : State} {b : Bank} {p : Packet} (h : s.bank b = p) : s.setBank b p = s := by
  subst p
  cases b <;> rfl

/-- A sequence written again to a canonical buffer changes nothing: each of its bytes is there. -/
theorem Memory.writeBytes_writeBytes {m : Memory} (a : Nat) (x : List Byte) (h : m.wf = true) :
    Memory.writeBytes (Memory.writeBytes m a x) a x = Memory.writeBytes m a x := by
  refine Memory.ext_of_wf (Memory.wf_writeBytes a x (Memory.wf_writeBytes a x h)) (Memory.wf_writeBytes a x h)
    fun k => ?_
  simp only [Memory.read_writeBytes]
  split <;> rfl

theorem State.putOBuf_putOBuf {s : State} (x : List Byte) (h : s.obuf.wf = true) :
    (s.putOBuf x).putOBuf x = s.putOBuf x := by
  simp only [State.putOBuf, Memory.writeBytes_writeBytes 0 x h]

theorem Packet.withDataLen_withDataLen (p : Packet) (n m : Nat) :
    (p.withDataLen n).withDataLen m = p.withDataLen m := rfl

/-- The result registers are no part of OBUF. -/
theorem State.setRes_putOBuf (r0 r1 r2 : Word) (x : List Byte) :
    (s.setRes r0 r1 r2).putOBuf x = (s.putOBuf x).setRes r0 r1 r2 := rfl

theorem State.setRes_setRes (r0 r1 r2 q0 q1 q2 : Word) :
    (s.setRes r0 r1 r2).setRes q0 q1 q2 = s.setRes q0 q1 q2 := rfl

theorem Packet.set_set (p : Packet) (f : Field) (v : Word) : (p.set f v).set f v = p.set f v := by
  cases f <;> rfl

/-- INTERPRET reads its packet from IBUF only. -/
theorem interpretBody_congr {s t : State} (h : s.ibuf = t.ibuf) (c : Config) (p : PriHdr) :
    interpretBody c p s = interpretBody c p t := by
  simp only [interpretBody, State.memRead_congr h]

end Again

/-! Each command made again at the state it made. -/

section Commands
variable {c : Config} {b : Bank} {sel : BitVec 4} {s u : State}

theorem newCmd_again (h : newCmd c b s = .ok u) : newCmd c b u = .ok u := by
  cases h
  rw [newCmd, State.setBank_setBank]

theorem phEncodeCmd_again (hs : s.obuf.wf = true) (h : phEncodeCmd b s = .ok u) : phEncodeCmd b u = .ok u := by
  cases h
  rw [phEncodeCmd, State.putOBuf_bank, State.putOBuf_putOBuf _ hs]

theorem phDecodeCmd_again (h : phDecodeCmd c b s = .ok u) : phDecodeCmd c b u = .ok u := by
  obtain ⟨h1, h2, x, hx, rfl⟩ := phDecodeCmd_eq_ok.mp h
  exact phDecodeCmd_eq_ok.mpr ⟨h1, h2, x, hx, by simp⟩

theorem shEncodeCmd_again (hs : s.obuf.wf = true) (h : shEncodeCmd c b s = .ok u) : shEncodeCmd c b u = .ok u := by
  cases h
  rw [shEncodeCmd, State.putOBuf_bank, State.putOBuf_putOBuf _ hs]

theorem shDecodeCmd_again (h : shDecodeCmd c b s = .ok u) : shDecodeCmd c b u = .ok u := by
  obtain ⟨h1, h2, x, hx, rfl⟩ := shDecodeCmd_eq_ok.mp h
  exact shDecodeCmd_eq_ok.mpr ⟨h1, h2, x, hx, by simp⟩

/-- SERIALIZE sets PDL from a length that PDL is no part of. -/
theorem serializeCmd_again (hs : s.obuf.wf = true) (h : serializeCmd c b s = .ok u) : serializeCmd c b u = .ok u := by
  obtain ⟨h1, h2, rfl⟩ := serializeCmd_eq_ok.mp h
  refine serializeCmd_eq_ok.mpr ⟨by simpa using h1, by simpa using h2, ?_⟩
  simp only [State.putOBuf_bank, State.setBank_bank_same, Packet.withDataLen_dataLen, Packet.withDataLen_withDataLen]
  rw [State.setBank_of_bank_eq (s := State.putOBuf _ _) (by simp), State.putOBuf_putOBuf (s := s.setBank b _) _ hs]

theorem interpretCmd_again (h : interpretCmd c b s = .ok u) : interpretCmd c b u = .ok u := by
  obtain ⟨h1, h2, x, p, hx, hl, hp, rfl⟩ := interpretCmd_eq_ok.mp h
  exact interpretCmd_eq_ok.mpr ⟨h1, h2, x, p, hx, hl, (interpretBody_congr rfl c _).trans hp, by simp⟩

theorem setUserDataCmd_again (h : setUserDataCmd c b s = .ok u) : setUserDataCmd c b u = .ok u := by
  obtain ⟨h1, h2, h3, x, hx, rfl⟩ := setUserDataCmd_eq_ok.mp h
  have hsec (n : Nat) : (Packet.withDataLen { s.bank b with udf := x } n).secLen c = (s.bank b).secLen c := rfl
  refine setUserDataCmd_eq_ok.mpr ⟨h1, by simpa [hsec] using h2, by simpa [hsec] using h3, x, hx, ?_⟩
  rw [State.setBank_setBank, State.setBank_bank_same]
  rfl

theorem getUserDataCmd_again (hs : s.obuf.wf = true) (h : getUserDataCmd b s = .ok u) :
    getUserDataCmd b u = .ok u := by
  cases h
  rw [getUserDataCmd, State.putOBuf_bank, State.putOBuf_putOBuf _ hs]

theorem getFieldCmd_again (h : getFieldCmd b sel s = .ok u) : getFieldCmd b sel u = .ok u := by
  obtain ⟨f, hf, rfl⟩ := getFieldCmd_eq_ok.mp h
  exact getFieldCmd_eq_ok.mpr ⟨f, hf, by rw [State.setRes0_bank]; rfl⟩

theorem setFieldCmd_again (h : setFieldCmd c b sel s = .ok u) : setFieldCmd c b sel u = .ok u := by
  obtain ⟨f, v, hf, hr, hv, rfl⟩ := setFieldCmd_eq_ok.mp h
  exact setFieldCmd_eq_ok.mpr ⟨f, v, hf, hr, hv, by simp [Packet.set_set]⟩

theorem cloneCmd_again (h : cloneCmd b s = .ok u) : cloneCmd b u = .ok u := by
  cases h
  simp [cloneCmd]

theorem routeByClass_bank {x : List Byte} {k : RouteClass} (h : routeByClass block x s k = .ok u) (b : Bank) :
    u.bank b = s.bank b := by
  cases k with
  | loc | forward sid => cases h; simp
  | broadcast =>
    simp only [routeByClass, block_broadcastAppliesLocal, Bool.false_eq_true, if_false] at h
    cases h
    simp
  | invalid => cases h

theorem routeByClass_again {x : List Byte} {k : RouteClass} (hs : s.obuf.wf = true)
    (h : routeByClass block x s k = .ok u) : routeByClass block x u k = .ok u := by
  cases k with
  | loc => cases h; rfl
  | forward sid =>
    cases h
    rw [routeByClass, State.setRes_putOBuf, State.putOBuf_putOBuf x hs, State.setRes_setRes]
  | broadcast =>
    simp only [routeByClass, block_broadcastAppliesLocal, Bool.false_eq_true, if_false] at h ⊢
    cases h
    rw [State.setRes_putOBuf, State.putOBuf_putOBuf _ hs, State.setRes_setRes]
  | invalid => cases h

theorem routeCmd_again (hs : s.obuf.wf = true) (h : routeCmd block b s = .ok u) :
    routeCmd block b u = .ok u := by
  obtain ⟨hl, hk⟩ := routeCmd_eq_ok.mp h
  have hb : u.bank b = s.bank b := routeByClass_bank hk b
  rw [routeCmd_eq_ok, hb]
  exact ⟨hl, routeByClass_again hs hk⟩

theorem checkSizeCmd_again (h : checkSizeCmd c sel s = .ok u) : checkSizeCmd c sel u = .ok u := by
  obtain ⟨k, -, -, rfl⟩ := checkSizeCmd_eq_ok.mp h
  exact h

end Commands

/-- Every command but the WRAP commands, made again, leaves the end state of one write. -/
theorem exec_again_of_not_wrap {i : Instr} {s t : State} (hs : s.obuf.wf = true)
    (hi : ∀ b, i ≠ .wrapStatus b ∧ i ≠ .wrapSensor b) (h : exec i s = .next t) : exec i t = .next t := by
  cases i with
  | new b => exact exec_again (exec_new b) (fun _ => newCmd_again) h
  | phEncode b => exact exec_again (exec_phEncode b) (fun _ => phEncodeCmd_again hs) h
  | phDecode b => exact exec_again (exec_phDecode b) (fun _ => phDecodeCmd_again) h
  | shEncode b => exact exec_again (exec_shEncode b) (fun _ => shEncodeCmd_again hs) h
  | shDecode b => exact exec_again (exec_shDecode b) (fun _ => shDecodeCmd_again) h
  | serialize b => exact exec_again (exec_serialize b) (fun _ => serializeCmd_again hs) h
  | interpret b => exact exec_again (exec_interpret b) (fun _ => interpretCmd_again) h
  | setUserData b => exact exec_again (exec_setUserData b) (fun _ => setUserDataCmd_again) h
  | getUserData b => exact exec_again (exec_getUserData b) (fun _ => getUserDataCmd_again hs) h
  | getField b sel => exact exec_again (exec_getField b sel) (fun _ => getFieldCmd_again) h
  | setField b sel => exact exec_again (exec_setField b sel) (fun _ => setFieldCmd_again) h
  | clone b => exact exec_again (exec_clone b) (fun _ => cloneCmd_again) h
  | wrapStatus b => exact absurd rfl (hi b).1
  | wrapSensor b => exact absurd rfl (hi b).2
  | route b => exact exec_again (exec_route b) (fun _ => routeCmd_again hs) h
  | checkSize sel => exact exec_again (exec_checkSize sel) (fun _ => checkSizeCmd_again) h

/-! The WRAP commands made again. -/

section WrapAgain
variable {b : Bank} {s t : State}

theorem wrap_bank (s : State) (c : Config) (b : Bank) (apid : BitVec 11) (x : List Byte) :
    (s.wrap c b apid x).bank b = telemetryPacket c apid (nextSeq c apid s.seqCtr).1 x := by
  rw [State.wrap, State.setBank_bank_same]

/-- The next telemetry packet of an APID is the last one with the count one higher (42_framing.md R134). -/
theorem wrap_wrap_bank (s : State) (b : Bank) (apid : BitVec 11) (x : List Byte) :
    ((s.wrap block b apid x).wrap block b apid x).bank b =
      { (s.wrap block b apid x).bank b with
        pri := { ((s.wrap block b apid x).bank b).pri with
          seqc := ((s.wrap block b apid x).bank b).pri.seqc + 1 } } := by
  have hseq : (nextSeq block apid (s.wrap block b apid x).seqCtr).1 = (nextSeq block apid s.seqCtr).1 + 1 := by
    simp [State.wrap, nextSeq]
  rw [wrap_bank, wrap_bank, hseq, telemetryPacket, telemetryPacket]

/-- A command that ends by wrapping the same user data builds, made again, the packet with the next count. -/
theorem exec_wrap_again {i : Instr} {f : State → Cmd State} {apid : BitVec 11} {x : List Byte}
    (hi : ∀ s, exec i s = finish s (f s)) (hs : f s = .ok (s.wrap block b apid x))
    (hu : f (s.wrap block b apid x) = .ok ((s.wrap block b apid x).wrap block b apid x)) (h : exec i s = .next t) :
    ∃ u, exec i t = .next u ∧ u.statusErr = 0 ∧
      u.bank b = { t.bank b with pri := { (t.bank b).pri with seqc := (t.bank b).pri.seqc + 1 } } := by
  rw [hi, hs, finish_ok] at h
  cases h
  refine ⟨_, by rw [exec_setErr, hi, hu, finish_ok], rfl, ?_⟩
  rw [State.setErr_bank, State.setErr_bank, wrap_wrap_bank]

end WrapAgain

/-- Settles O21: a command made again makes the same state, but for the WRAP commands, which take the next count. -/
theorem repeatedCommandsAreIdempotent : Obligations.RepeatedCommandsAreIdempotent := by
  refine ⟨fun i s t hs hi h => exec_again_of_not_wrap hs hi h, ?_⟩
  rintro _ b s t (rfl | rfl) h h0
  · obtain ⟨u, hu, -⟩ := ok_of_finish_statusErr_eq_zero h h0
    obtain ⟨v, hv, rfl⟩ := wrapStatusCmd_eq_ok.mp hu
    exact exec_wrap_again (exec_wrapStatus b) hu (wrapStatusCmd_eq_ok.mpr ⟨v, hv, rfl⟩) h
  · obtain ⟨u, hu, -⟩ := ok_of_finish_statusErr_eq_zero h h0
    obtain ⟨v, hv, rfl⟩ := wrapSensorCmd_eq_ok.mp hu
    exact exec_wrap_again (exec_wrapSensor b) hu (wrapSensorCmd_eq_ok.mpr ⟨v, hv, rfl⟩) h

end Sys2Proof.Machine
end

section
/-! The command words: each field at its place, the encoder by the rows of the opcode map, and the words that decode
(30_encoding.md R82 to R84). -/

namespace Sys2Proof

/-! The fields of a word at their places (30_encoding.md R82). -/

/-- A field put back at its place is the word with every other bit cleared. -/
theorem extractLsb'_shiftLeft_eq_and (w : Word) (start len : Nat) :
    (w.extractLsb' start len).setWidth 32 <<< start = w &&& (BitVec.allOnes len).setWidth 32 <<< start := by
  ext i hi
  by_cases h : start ≤ i
  · simp [h, Nat.not_lt.mpr h, BitVec.getLsbD_eq_getElem hi, Bool.and_comm]
  · simp [show i < start by omega]

theorem selBits_selOf (w : Word) : selBits (selOf w) = w &&& 0xF000 := extractLsb'_shiftLeft_eq_and w 12 4

theorem bankBit_bankOf (w : Word) : bankBit (bankOf w) = w &&& 0x100 := by
  rw [show (0x100 : Word) = BitVec.twoPow 32 8 from rfl, BitVec.and_twoPow, bankOf]
  split <;> rfl

/-- A word whose reserved fields are zero is its opcode, its bank and its selector. -/
theorem word_eq_of_reserved_zero {w : Word} (h0 : rsv0Of w = 0) (h1 : rsv1Of w = 0) :
    w = (opcOf w).setWidth 32 ||| (bankBit (bankOf w) ||| selBits (selOf w)) := by
  have hopc : (opcOf w).setWidth 32 = w &&& 0xFF := by
    simpa [opcOf] using extractLsb'_shiftLeft_eq_and w 0 8
  have hrsv0 : w &&& 0xFFFF0000 = 0 := by
    simpa [show w.extractLsb' 16 16 = 0 from h0] using (extractLsb'_shiftLeft_eq_and w 16 16).symm
  have hrsv1 : w &&& 0xE00 = 0 := by
    simpa [show w.extractLsb' 9 3 = 0 from h1] using (extractLsb'_shiftLeft_eq_and w 9 3).symm
  calc w = w &&& ((0xFF ||| (0x100 ||| 0xF000)) ||| (0xFFFF0000 ||| 0xE00)) := BitVec.and_allOnes.symm
    _ = _ := by simp only [BitVec.and_or_distrib_left, hopc, bankBit_bankOf, selBits_selOf, hrsv0, hrsv1]; simp

/-! The encoder and the opcode map (30_encoding.md R83, R87). -/

/-- The operand bits of a row's command word: the bank and the selector where the row uses them. -/
def OpRow.operandBits (r : OpRow) (b : Bank) (sel : BitVec 4) : Word :=
  (if r.usesB then bankBit b else 0) ||| (if r.usesSel then selBits sel else 0)

/-- The encoder gives a row's match value with the operands the row uses. -/
theorem encode_build {r : OpRow} (hr : r ∈ opcodeTable) (b : Bank) (sel : BitVec 4) :
    encode (r.build b sel) = r.pattern ||| r.operandBits b sel := by
  simp only [opcodeTable, List.mem_cons, List.not_mem_nil, or_false] at hr
  rcases hr with rfl | rfl | rfl | rfl | rfl | rfl | rfl | rfl | rfl | rfl | rfl | rfl | rfl | rfl | rfl | rfl <;>
    simp [encode, OpRow.operandBits, BitVec.or_assoc]

/-- A row's mask leaves out the operands the row uses, and nothing else. -/
theorem mask_eq {r : OpRow} (hr : r ∈ opcodeTable) :
    r.mask = ~~~((if r.usesB then 0x100 else 0) ||| (if r.usesSel then 0xF000 else 0)) := by
  revert r
  decide

/-- A word that matches a row is the encoding of the row's instruction with the word's own operands. -/
theorem encode_build_of_matches {r : OpRow} {w : Word} (hr : r ∈ opcodeTable) (hm : r.matches w = true) :
    encode (r.build (bankOf w) (selOf w)) = w := by
  have hbits : r.operandBits (bankOf w) (selOf w) = w &&& ~~~r.mask := by
    rw [mask_eq hr, BitVec.not_not, BitVec.and_or_distrib_left, OpRow.operandBits, bankBit_bankOf, selBits_selOf]
    cases r.usesB <;> cases r.usesSel <;> simp
  have hpat : w &&& r.mask = r.pattern := eq_of_beq hm
  rw [encode_build hr, hbits, ← hpat, ← BitVec.and_or_distrib_left, BitVec.or_not_self, BitVec.and_allOnes]

/-- A word decodes to the instruction it encodes, and to nothing else. -/
theorem decode_eq_ok_iff {w : Word} {i : Instr} : decode w = .ok i ↔ encode i = w := by
  refine ⟨fun h => ?_, fun h => h ▸ decode_encode i⟩
  unfold decode at h
  split at h
  · rename_i r hr
    cases h
    exact encode_build_of_matches (List.mem_of_find?_eq_some hr) (List.find?_some (p := fun r : OpRow => r.matches w) hr)
  · cases h

/-- Settles O1. -/
theorem decodeOfEncode : Obligations.DecodeOfEncode := decode_encode

/-- Settles O2: the bits that a row's mask leaves out are the operands the encoder puts back. -/
theorem decodedWordIsItsEncoding : Obligations.DecodedWordIsItsEncoding := fun _ _ => decode_eq_ok_iff.mp

/-- Settles O3: each word against the rows of the opcode map. -/
theorem specCommandWordsDecode : Obligations.SpecCommandWordsDecode :=
  ⟨rfl, rfl, rfl, rfl, rfl, rfl, rfl, rfl, rfl, rfl, rfl, rfl, rfl, rfl⟩

end Sys2Proof
end

section
/-! The illegal words (30_encoding.md R84) and the undefined selectors (R85). -/

namespace Sys2Proof

/-- The opcodes the map leaves unassigned (30_encoding.md R84). -/
abbrev UnassignedOpcode (o : BitVec 8) : Prop := o = 0 ∨ (0x0D ≤ o.toNat ∧ o.toNat ≤ 0x0F) ∨ 0x14 ≤ o.toNat

/-- The three cases of 30_encoding.md R84, the third in its two parts. -/
abbrev IllegalWord (w : Word) : Prop :=
  UnassignedOpcode (opcOf w) ∨ (rsv0Of w ≠ 0 ∨ rsv1Of w ≠ 0) ∨
    (selOf w ≠ 0 ∧ opcOf w ≠ 0x0A ∧ opcOf w ≠ 0x0B ∧ opcOf w ≠ 0x13) ∨ (bankOf w = .b1 ∧ opcOf w = 0x13)

/-- Every assigned opcode has its row in the map, which leaves out SEL or B only as R84 has it. -/
theorem exists_row_of_assigned : ∀ o : BitVec 8, ¬ UnassignedOpcode o → ∃ r ∈ opcodeTable,
    r.pattern = o.setWidth 32 ∧ (r.usesSel = false → o ≠ 0x0A ∧ o ≠ 0x0B ∧ o ≠ 0x13) ∧
      (r.usesB = false → o = 0x13) := by decide

/-- No command word falls under one of the cases. -/
theorem encode_not_illegalWord (i : Instr) : ¬ IllegalWord (encode i) := by
  cases i with
  | new b | phEncode b | phDecode b | shEncode b | shDecode b | serialize b | interpret b | setUserData b
  | getUserData b | clone b | wrapStatus b | wrapSensor b | route b => cases b <;> decide
  | getField b sel | setField b sel => cases b <;> revert sel <;> decide
  | checkSize sel => revert sel; decide

/-- Operands that are zero where a row does not use them are the row's operand bits. -/
theorem operandBits_eq {r : OpRow} {b : Bank} {sel : BitVec 4} (hb : r.usesB = false → b = .b0)
    (hs : r.usesSel = false → sel = 0) : r.operandBits b sel = bankBit b ||| selBits sel := by
  have hbank : (if r.usesB then bankBit b else 0) = bankBit b := by
    cases h : r.usesB with
    | true => rfl
    | false => rw [hb h]; rfl
  have hsel : (if r.usesSel then selBits sel else 0) = selBits sel := by
    cases h : r.usesSel with
    | true => rfl
    | false => rw [hs h]; rfl
  rw [OpRow.operandBits, hbank, hsel]

/-- A word under none of the cases is a command word: of its opcode's row, with its own operands. -/
theorem exists_encode_of_not_illegalWord {w : Word} (h : ¬ IllegalWord w) : ∃ i, encode i = w := by
  obtain ⟨hopc, hrest⟩ := not_or.mp h
  obtain ⟨hrsv, hrest⟩ := not_or.mp hrest
  obtain ⟨hsel, hbank⟩ := not_or.mp hrest
  obtain ⟨hrsv0, hrsv1⟩ := not_or.mp hrsv
  obtain ⟨r, hr, hpat, hrsel, hrbank⟩ := exists_row_of_assigned (opcOf w) hopc
  have hb (hu : r.usesB = false) : bankOf w = .b0 := by
    cases hw : bankOf w with
    | b0 => rfl
    | b1 => exact absurd ⟨hw, hrbank hu⟩ hbank
  have hs (hu : r.usesSel = false) : selOf w = 0 := by
    by_contra hw
    exact hsel ⟨hw, hrsel hu⟩
  refine ⟨r.build (bankOf w) (selOf w), ?_⟩
  rw [encode_build hr, operandBits_eq hb hs, hpat]
  exact (word_eq_of_reserved_zero (not_not.mp hrsv0) (not_not.mp hrsv1)).symm

/-- The words that decode to no command are those under one of the cases. -/
theorem decode_eq_error_iff {w : Word} : (∃ e, decode w = .error e) ↔ IllegalWord w := by
  constructor
  · rintro ⟨e, he⟩
    by_contra h
    obtain ⟨i, rfl⟩ := exists_encode_of_not_illegalWord h
    rw [decode_encode] at he
    cases he
  · intro h
    cases hd : decode w with
    | error e => exact ⟨e, rfl⟩
    | ok i => exact absurd (decode_eq_ok_iff.mp hd ▸ h) (encode_not_illegalWord i)

namespace Machine

theorem Field.ofSel_eq_none_iff {sel : BitVec 4} : Field.ofSel sel = none ↔ 14 ≤ sel.toNat := by
  revert sel
  decide

theorem Transport.ofSel_eq_none_iff {sel : BitVec 4} : Transport.ofSel sel = none ↔ 3 ≤ sel.toNat := by
  revert sel
  decide

/-- A command that ends with an error changes STATUS only. -/
theorem raises_of_eq_raise {i : Instr} {s : State} {r : Cmd State} {e : Err} (hi : exec i s = finish s r)
    (hr : r = .raise e) : Raises i s e.code := by
  rw [Raises, hi, hr, finish_raise]
  rfl

theorem getField_raises {b : Bank} {sel : BitVec 4} (s : State) (h : 14 ≤ sel.toNat) :
    Raises (.getField b sel) s 11 :=
  raises_of_eq_raise (e := .illegalOperand) (exec_getField b sel s)
    (by rw [getFieldCmd, Field.ofSel_eq_none_iff.mpr h])

theorem setField_raises {b : Bank} {sel : BitVec 4} (s : State) (h : 14 ≤ sel.toNat) :
    Raises (.setField b sel) s 11 :=
  raises_of_eq_raise (e := .illegalOperand) (exec_setField b sel s)
    (by rw [setFieldCmd, Field.ofSel_eq_none_iff.mpr h])

theorem checkSize_raises {sel : BitVec 4} (s : State) (h : 3 ≤ sel.toNat) : Raises (.checkSize sel) s 11 :=
  raises_of_eq_raise (e := .illegalOperand) (exec_checkSize sel s)
    (by rw [checkSizeCmd, Transport.ofSel_eq_none_iff.mpr h])

/-- Settles O4: a word is legal exactly where it is a command word, and an error changes STATUS only. -/
theorem illegalWordsRaiseIllegalCommand : Obligations.IllegalWordsRaiseIllegalCommand :=
  ⟨fun _ => decode_eq_error_iff, fun w _ s he => (serve_writeCmd w s).trans (writeCmd_of_error he s),
    fun _ _ s h => ⟨getField_raises s h, setField_raises s h⟩, fun _ s h => checkSize_raises s h⟩

end Machine
end Sys2Proof
end

section
/-! The wire format (30_encoding.md Part A). A word of the wire is a sum of its parts, each times the weight of its
place, and a field read from it is a quotient and a remainder. -/

namespace Sys2Proof.Machine

/-! Parts of a word as numbers. -/

theorem toNat_extractLsb'_eq {n : Nat} (v : BitVec n) (start len : Nat) :
    (v.extractLsb' start len).toNat = v.toNat / 2 ^ start % 2 ^ len := by
  rw [BitVec.extractLsb'_toNat, Nat.shiftRight_eq_div_pow]

/-- A value above a shorter one is their sum. -/
theorem toNat_shiftLeft_or {w k : Nat} {x y : BitVec w} (hx : x.toNat * 2 ^ k < 2 ^ w) (hy : y.toNat < 2 ^ k) :
    (x <<< k ||| y).toNat = x.toNat * 2 ^ k + y.toNat := by
  rw [BitVec.toNat_or, BitVec.toNat_shiftLeft, Nat.shiftLeft_eq, Nat.mod_eq_of_lt hx, ← Nat.shiftLeft_eq,
    Nat.shiftLeft_add_eq_or_of_lt hy]

/-- A field above a shorter value is their sum. -/
theorem toNat_field_or {w n : Nat} (k : Nat) (x : BitVec n) {y : BitVec w} (hn : n + k ≤ w) (hy : y.toNat < 2 ^ k) :
    (x.setWidth w <<< k ||| y).toNat = x.toNat * 2 ^ k + y.toNat := by
  have hw : (x.setWidth w).toNat = x.toNat := BitVec.toNat_setWidth_of_le (by omega)
  have hx : x.toNat * 2 ^ k < 2 ^ w :=
    calc x.toNat * 2 ^ k < 2 ^ n * 2 ^ k := Nat.mul_lt_mul_of_pos_right x.isLt (Nat.two_pow_pos k)
      _ = 2 ^ (n + k) := (Nat.pow_add 2 n k).symm
      _ ≤ 2 ^ w := Nat.pow_le_pow_right (by decide) hn
  rw [toNat_shiftLeft_or (by rwa [hw]) hy, hw]

/-! Two and four bytes, big-endian (00_scope.md R13). -/

theorem unbe16_toNat (x y : Byte) : (unbe16 x y).toNat = x.toNat * 2 ^ 8 + y.toNat := by
  have hy : (y.setWidth 16).toNat = y.toNat := BitVec.toNat_setWidth_of_le (by decide)
  rw [unbe16, toNat_field_or 8 x (by decide) (hy ▸ y.isLt), hy]

theorem unbe16_be16 (v : BitVec 16) : unbe16 (v.extractLsb' 8 8) (v.extractLsb' 0 8) = v := by
  apply BitVec.eq_of_toNat_eq
  simp only [unbe16_toNat, toNat_extractLsb'_eq]
  omega

theorem be16_unbe16 (x y : Byte) : be16 (unbe16 x y) = [x, y] := by
  have hx : (unbe16 x y).extractLsb' 8 8 = x := BitVec.eq_of_toNat_eq (by
    simp only [unbe16_toNat, toNat_extractLsb'_eq]
    omega)
  have hy : (unbe16 x y).extractLsb' 0 8 = y := BitVec.eq_of_toNat_eq (by
    simp only [unbe16_toNat, toNat_extractLsb'_eq]
    omega)
  rw [be16, hx, hy]

/-! The primary header (30_encoding.md R70 to R72). -/

theorem priWord0_toNat (p : PriHdr) :
    (priWord0 p).toNat = p.ver.toNat * 2 ^ 13 + (p.typ.toNat * 2 ^ 12 + (p.shf.toNat * 2 ^ 11 + p.apid.toNat)) := by
  have hapid : (p.apid.setWidth 16).toNat = p.apid.toNat := BitVec.toNat_setWidth_of_le (by decide)
  have hshf := toNat_field_or 11 p.shf (y := p.apid.setWidth 16) (by decide) (by omega)
  have htyp := toNat_field_or 12 p.typ (y := p.shf.setWidth 16 <<< 11 ||| p.apid.setWidth 16) (by decide) (by omega)
  rw [priWord0, BitVec.or_assoc, BitVec.or_assoc, toNat_field_or 13 p.ver (by decide) (by omega), htyp, hshf, hapid]

theorem priWord1_toNat (p : PriHdr) : (priWord1 p).toNat = p.seqf.toNat * 2 ^ 14 + p.seqc.toNat := by
  have hseqc : (p.seqc.setWidth 16).toNat = p.seqc.toNat := BitVec.toNat_setWidth_of_le (by decide)
  rw [priWord1, toNat_field_or 14 p.seqf (by decide) (by omega), hseqc]

/-- Reading the fields of a header's words gives the header back. -/
theorem priOfWords_priWord (p : PriHdr) : priOfWords (priWord0 p) (priWord1 p) p.pdl = p := by
  obtain ⟨ver, typ, shf, apid, seqf, seqc, pdl⟩ := p
  rw [priOfWords, PriHdr.mk.injEq]
  refine ⟨?_, ?_, ?_, ?_, ?_, ?_, rfl⟩ <;> apply BitVec.eq_of_toNat_eq <;>
    simp only [toNat_extractLsb'_eq, priWord0_toNat, priWord1_toNat] <;> omega

/-- The fields of two words make the words again: no bit of them is left out. -/
theorem priWord_priOfWords (w0 w1 w2 : BitVec 16) :
    priWord0 (priOfWords w0 w1 w2) = w0 ∧ priWord1 (priOfWords w0 w1 w2) = w1 := by
  constructor <;> apply BitVec.eq_of_toNat_eq <;>
    simp only [priWord0_toNat, priWord1_toNat, priOfWords, toNat_extractLsb'_eq] <;> omega

theorem decPH_encPH (p : PriHdr) : decPH (encPH p) = p := by
  calc decPH (encPH p)
    _ = priOfWords (unbe16 ((priWord0 p).extractLsb' 8 8) ((priWord0 p).extractLsb' 0 8))
          (unbe16 ((priWord1 p).extractLsb' 8 8) ((priWord1 p).extractLsb' 0 8))
          (unbe16 (p.pdl.extractLsb' 8 8) (p.pdl.extractLsb' 0 8)) := rfl
    _ = p := by rw [unbe16_be16, unbe16_be16, unbe16_be16, priOfWords_priWord]

theorem encPH_decPH (x0 x1 x2 x3 x4 x5 : Byte) :
    encPH (decPH [x0, x1, x2, x3, x4, x5]) = [x0, x1, x2, x3, x4, x5] := by
  obtain ⟨h0, h1⟩ := priWord_priOfWords (unbe16 x0 x1) (unbe16 x2 x3) (unbe16 x4 x5)
  calc encPH (decPH [x0, x1, x2, x3, x4, x5])
    _ = be16 (priWord0 (priOfWords (unbe16 x0 x1) (unbe16 x2 x3) (unbe16 x4 x5))) ++
          be16 (priWord1 (priOfWords (unbe16 x0 x1) (unbe16 x2 x3) (unbe16 x4 x5))) ++ be16 (unbe16 x4 x5) := rfl
    _ = [x0, x1, x2, x3, x4, x5] := by rw [h0, h1, be16_unbe16, be16_unbe16, be16_unbe16]; rfl

/-- Settles O23: each field from the sum that its word of the header is. -/
theorem primaryHeaderLayout : Obligations.PrimaryHeaderLayout := by
  intro p
  refine ⟨_, _, _, _, _, _, rfl, ?_, ?_, ?_, ?_, ?_, ?_, ?_, ?_, rfl, rfl⟩ <;> apply BitVec.eq_of_toNat_eq <;>
    simp only [toNat_extractLsb'_eq, priWord0_toNat, priWord1_toNat] <;> omega

/-- Settles O24: the six bytes are the encoding of the header they decode to, whose places O23 gives. -/
theorem primaryHeaderRoundTrips : Obligations.PrimaryHeaderRoundTrips := by
  refine ⟨fun x0 x1 x2 x3 x4 x5 => ⟨_, rfl, ?_⟩, decPH_encPH, fun x hx => ?_⟩
  · obtain ⟨y0, y1, y2, y3, y4, y5, hy, h⟩ := primaryHeaderLayout (decPH [x0, x1, x2, x3, x4, x5])
    rw [encPH_decPH] at hy
    cases hy
    obtain ⟨hver, htyp, hshf, hapid, hapid', hseqf, hseqc, hseqc', hpdl, hpdl'⟩ := h
    exact ⟨hver.symm, htyp.symm, hshf.symm, hapid.symm, hapid'.symm, hseqf.symm, hseqc.symm, hseqc'.symm, hpdl.symm,
      hpdl'.symm⟩
  · match x, hx with
    | [x0, x1, x2, x3, x4, x5], _ => exact encPH_decPH x0 x1 x2 x3 x4 x5

/-! The default secondary header (30_encoding.md R76, R77). -/

/-- Four bytes joined to a 32-bit value are its bytes. -/
theorem be32_join (x y z t : Byte) :
    be32 (x.setWidth 32 <<< 24 ||| y.setWidth 32 <<< 16 ||| z.setWidth 32 <<< 8 ||| t.setWidth 32) = [x, y, z, t] := by
  have ht : (t.setWidth 32).toNat = t.toNat := BitVec.toNat_setWidth_of_le (by decide)
  have hz := toNat_field_or 8 z (y := t.setWidth 32) (by decide) (by omega)
  have hy := toNat_field_or 16 y (y := z.setWidth 32 <<< 8 ||| t.setWidth 32) (by decide) (by omega)
  have hx := toNat_field_or 24 x (y := y.setWidth 32 <<< 16 ||| (z.setWidth 32 <<< 8 ||| t.setWidth 32)) (by decide)
    (by omega)
  rw [BitVec.or_assoc, BitVec.or_assoc]
  simp only [be32, List.cons.injEq, and_true, ← BitVec.toNat_inj, toNat_extractLsb'_eq]
  omega

/-- The bytes of a header whose fields are in range, as numbers. -/
theorem encSH_toNat {h : SecHdr} (hr : h.inRange defaultWidths = true) : ∃ x0 x1 x2 x3 x4 x5 x6 x7 : Byte,
    encSH h = [x0, x1, x2, x3, x4, x5, x6, x7] ∧ x0.toNat = h.cat.toNat ∧
      x1.toNat = h.aduUse.toNat * 2 ^ 7 + h.aduCh.toNat ∧ x2.toNat = h.aduSegf.toNat * 2 ^ 6 + h.aduCnt.toNat / 2 ^ 8 ∧
      x3.toNat = h.aduCnt.toNat % 2 ^ 8 ∧ be32 h.time = [x4, x5, x6, x7] := by
  obtain ⟨hcat, huse, hch, hsegf, hcnt, -⟩ := SecHdr.inRange_iff.mp hr
  simp only [defaultWidths] at hcat huse hch hsegf hcnt
  have hx1 := toNat_shiftLeft_or (k := 7) (x := h.aduUse) (y := h.aduCh) (by omega) (by omega)
  have hhi : ((h.aduCnt.extractLsb' 8 6).setWidth 32).toNat = h.aduCnt.toNat / 2 ^ 8 := by
    rw [BitVec.toNat_setWidth_of_le (by decide), toNat_extractLsb'_eq]
    omega
  have hx2 := toNat_shiftLeft_or (k := 6) (x := h.aduSegf) (y := (h.aduCnt.extractLsb' 8 6).setWidth 32)
    (by omega) (by omega)
  refine ⟨_, _, _, _, _, _, _, _, rfl, ?_, ?_, ?_, ?_, rfl⟩
  · rw [BitVec.toNat_setWidth, Nat.mod_eq_of_lt hcat]
  · rw [BitVec.toNat_setWidth, hx1, Nat.mod_eq_of_lt (by omega)]
  · rw [BitVec.toNat_setWidth, hx2, hhi, Nat.mod_eq_of_lt (by omega)]
  · rw [toNat_extractLsb'_eq, Nat.pow_zero, Nat.div_one]

/-- The fields that eight bytes decode to, as numbers. -/
theorem decSH_toNat (x0 x1 x2 x3 x4 x5 x6 x7 : Byte) : ∃ h, decSH [x0, x1, x2, x3, x4, x5, x6, x7] = h ∧
    h.cat.toNat = x0.toNat ∧ h.aduUse.toNat = x1.toNat / 2 ^ 7 ∧ h.aduCh.toNat = x1.toNat % 2 ^ 7 ∧
      h.aduSegf.toNat = x2.toNat / 2 ^ 6 ∧ h.aduCnt.toNat = x2.toNat % 2 ^ 6 * 2 ^ 8 + x3.toNat ∧
      be32 h.time = [x4, x5, x6, x7] := by
  have hword {n : Nat} (v : BitVec n) (hn : n ≤ 32) : (v.setWidth 32).toNat = v.toNat := BitVec.toNat_setWidth_of_le hn
  refine ⟨_, rfl, hword x0 (by decide), ?_, ?_, ?_, ?_, be32_join x4 x5 x6 x7⟩
  · refine (hword (x1.extractLsb' 7 1) (by decide)).trans ?_
    rw [toNat_extractLsb'_eq]
    omega
  · refine (hword (x1.extractLsb' 0 7) (by decide)).trans ?_
    rw [toNat_extractLsb'_eq, Nat.pow_zero, Nat.div_one]
  · refine (hword (x2.extractLsb' 6 2) (by decide)).trans ?_
    rw [toNat_extractLsb'_eq]
    omega
  · have hx3 := hword x3 (by decide)
    refine (toNat_field_or 8 (x2.extractLsb' 0 6) (y := x3.setWidth 32) (by decide) (by omega)).trans ?_
    rw [toNat_extractLsb'_eq, Nat.pow_zero, Nat.div_one, hx3]

/-- A 32-bit value is determined by its four bytes. -/
theorem be32_injective {v w : Word} (h : be32 v = be32 w) : v = w := by
  apply BitVec.eq_of_toNat_eq
  simp only [be32, List.cons.injEq, and_true, ← BitVec.toNat_inj, toNat_extractLsb'_eq] at h
  omega

theorem decSH_encSH {h : SecHdr} (hr : h.inRange defaultWidths = true) : decSH (encSH h) = h := by
  obtain ⟨x0, x1, x2, x3, x4, x5, x6, x7, he, hcat, hx1, hx2, hx3, htime⟩ := encSH_toNat hr
  obtain ⟨h', hd, hcat', huse', hch', hsegf', hcnt', htime'⟩ := decSH_toNat x0 x1 x2 x3 x4 x5 x6 x7
  obtain ⟨-, -, hch, -, hcnt, -⟩ := SecHdr.inRange_iff.mp hr
  simp only [defaultWidths] at hch hcnt
  rw [he, hd]
  obtain ⟨cat, use, ch, segf, cnt, time⟩ := h
  obtain ⟨cat', use', ch', segf', cnt', time'⟩ := h'
  rw [SecHdr.mk.injEq]
  dsimp only at hcat hx1 hx2 hx3 hcat' huse' hch' hsegf' hcnt' hch hcnt
  refine ⟨?_, ?_, ?_, ?_, ?_, be32_injective (htime'.trans htime.symm)⟩ <;> apply BitVec.eq_of_toNat_eq <;> omega

theorem encSH_decSH (x0 x1 x2 x3 x4 x5 x6 x7 : Byte) :
    encSH (decSH [x0, x1, x2, x3, x4, x5, x6, x7]) = [x0, x1, x2, x3, x4, x5, x6, x7] := by
  obtain ⟨h, hd, hcat, huse, hch, hsegf, hcnt, htime⟩ := decSH_toNat x0 x1 x2 x3 x4 x5 x6 x7
  obtain ⟨y0, y1, y2, y3, y4, y5, y6, y7, he, hy0, hy1, hy2, hy3, htime'⟩ := encSH_toNat (hd ▸ decSH_inRange _)
  have h0 : y0 = x0 := BitVec.eq_of_toNat_eq (hy0.trans hcat)
  have h1 : y1 = x1 := BitVec.eq_of_toNat_eq (by omega)
  have h2 : y2 = x2 := BitVec.eq_of_toNat_eq (by omega)
  have h3 : y3 = x3 := BitVec.eq_of_toNat_eq (by omega)
  rw [hd, he, h0, h1, h2, h3, ← htime.symm.trans htime']

/-- The default layout meets the requirements on every layout (30_encoding.md R77). -/
theorem defaultLayout_lawful : defaultLayout.Lawful where
  widths := rfl
  enc_length := encSH_length
  dec_enc _ := decSH_encSH
  dec_inRange x _ := decSH_inRange x

/-- Settles O25: each field from the sum that its byte is. -/
theorem secondaryHeaderLayout : Obligations.SecondaryHeaderLayout := by
  refine ⟨block_secLen, rfl, fun h hr => ?_⟩
  obtain ⟨x0, x1, x2, x3, x4, x5, x6, x7, he, hx0, hx1, hx2, hx3, htime⟩ := encSH_toNat hr
  obtain ⟨-, -, hch, -, hcnt, -⟩ := SecHdr.inRange_iff.mp hr
  simp only [block_shLayout, defaultLayout_widths] at hch hcnt
  cases htime
  refine ⟨x0, x1, x2, x3, _, _, _, _, he, hx0, ?_, ?_, ?_, ?_, hx3, rfl, rfl, rfl, rfl⟩ <;>
    rw [toNat_extractLsb'_eq] <;> omega

/-- Settles O26. -/
theorem secondaryHeaderRoundTrips : Obligations.SecondaryHeaderRoundTrips := by
  refine ⟨defaultLayout_lawful, fun x hx => ?_⟩
  match x, hx with
  | [x0, x1, x2, x3, x4, x5, x6, x7], _ => exact encSH_decSH x0 x1 x2 x3 x4 x5 x6 x7

/-! The sensor value (30_encoding.md R79). -/

theorem extractLsb'_eq_ofNat_div {n : Nat} (v : BitVec n) (start len : Nat) :
    v.extractLsb' start len = BitVec.ofNat len (v.toNat / 2 ^ start) :=
  BitVec.eq_of_toNat_eq (by rw [toNat_extractLsb'_eq, BitVec.toNat_ofNat])

/-- The bits of a word from a place on are zero exactly where its value is below that place's weight. -/
theorem extractLsb'_top_eq_zero_iff {v : Word} {start len : Nat} (h : start + len = 32) :
    v.extractLsb' start len = 0 ↔ v.toNat < 2 ^ start := by
  have hlt : v.toNat / 2 ^ start < 2 ^ len := by
    rw [Nat.div_lt_iff_lt_mul (Nat.two_pow_pos start), ← Nat.pow_add, Nat.add_comm, h]
    exact v.isLt
  rw [← BitVec.toNat_inj, toNat_extractLsb'_eq, Nat.mod_eq_of_lt hlt, BitVec.ofNat_eq_ofNat, BitVec.toNat_zero,
    Nat.div_eq_zero_iff_lt (Nat.two_pow_pos start)]

theorem be16_eq (v : BitVec 16) : be16 v = [BitVec.ofNat 8 (v.toNat / 2 ^ 8), BitVec.ofNat 8 v.toNat] := by
  simp [be16, extractLsb'_eq_ofNat_div]

theorem be32_eq (v : Word) : be32 v = [BitVec.ofNat 8 (v.toNat / 2 ^ 24), BitVec.ofNat 8 (v.toNat / 2 ^ 16),
    BitVec.ofNat 8 (v.toNat / 2 ^ 8), BitVec.ofNat 8 v.toNat] := by
  simp [be32, extractLsb'_eq_ofNat_div]

/-- Settles O27: the width is chosen by whether the bits above one byte, and above two, are zero. -/
theorem sensorValueWidths : Obligations.SensorValueWidths := by
  intro v
  have h8 : v.extractLsb' 8 24 = 0 ↔ v.toNat < 2 ^ 8 := extractLsb'_top_eq_zero_iff (by decide)
  have h16 : v.extractLsb' 16 16 = 0 ↔ v.toNat < 2 ^ 16 := extractLsb'_top_eq_zero_iff (by decide)
  refine ⟨fun h => ?_, fun hlo hhi => ?_, fun h => ?_⟩
  · rw [minBE, if_pos (h8.mpr h), extractLsb'_eq_ofNat_div, Nat.pow_zero, Nat.div_one]
  · rw [minBE, if_neg (mt h8.mp (by omega)), if_pos (h16.mpr hhi), be16_eq, toNat_extractLsb'_eq, Nat.pow_zero,
      Nat.div_one, Nat.mod_eq_of_lt hhi]
  · rw [minBE, if_neg (mt h8.mp (by omega)), if_neg (mt h16.mp (by omega)), be32_eq]

/-! A whole packet (30_encoding.md R74, R75). -/

theorem Packet.bytes_of_shf_zero {c : Config} {p : Packet} (h : p.pri.shf = 0) : p.bytes c = encPH p.pri ++ p.udf := by
  simp [Packet.bytes, h]

theorem Packet.bytes_of_shf_one {c : Config} {p : Packet} (h : p.pri.shf = 1) :
    p.bytes c = encPH p.pri ++ (c.shLayout.enc p.sec ++ p.udf) := by
  simp [Packet.bytes, h]

/-- Settles O56: the three parts stand one after another, the first two of known length. -/
theorem packetLayoutInEveryLayout : Obligations.PacketLayoutInEveryLayout := by
  intro c p hl
  have hsec : (c.shLayout.enc p.sec).length = c.secLen := hl.enc_length p.sec
  refine ⟨?_, fun h0 => ?_, fun h1 => ?_⟩
  · rw [Packet.bytes, List.append_assoc, List.take_left' (encPH_length p.pri)]
  · rw [Packet.bytes_of_shf_zero h0, List.drop_left' (encPH_length p.pri)]
  · have hrest : (p.bytes c).drop 6 = c.shLayout.enc p.sec ++ p.udf := by
      rw [Packet.bytes_of_shf_one h1, List.drop_left' (encPH_length p.pri)]
    rw [← List.drop_drop, hrest, List.take_left' hsec, List.drop_left' hsec]
    exact ⟨rfl, rfl, hl.dec_enc p.sec⟩

end Sys2Proof.Machine
end

section
/-! The host program: the command words the assembler makes (30_encoding.md R87) and the pseudo-instructions
(R88). -/

namespace Sys2Proof.Machine

theorem mem_and_mnemonic_of_rowOf {m : Mnemonic} {r : OpRow} (h : rowOf m = some r) :
    r ∈ opcodeTable ∧ r.mnemonic = m :=
  ⟨List.mem_of_find?_eq_some h, eq_of_beq (List.find?_some (p := fun r : OpRow => r.mnemonic == m) h)⟩

/-- The rows that use SEL, and the one that does not use B (30_encoding.md R83). -/
theorem uses_iff_mnemonic {r : OpRow} (hr : r ∈ opcodeTable) :
    (r.usesSel = true ↔ r.mnemonic = .getField ∨ r.mnemonic = .setField ∨ r.mnemonic = .checkSize) ∧
      (r.usesB = true ↔ r.mnemonic ≠ .checkSize) := by
  revert r
  decide

theorem rowOf_checkSize_usesB {r : OpRow} (h : rowOf .checkSize = some r) : r.usesB = false := by
  cases h
  rfl

theorem bankArg_of_not_usesB {r : OpRow} (h : r.usesB = false) (n : Nat) : bankArg r (some n) = none := by
  match n with
  | 0 | 1 => simp [bankArg, h]
  | _ + 2 => rfl

theorem bankArg_of_two_le (r : OpRow) {n : Nat} (h : 2 ≤ n) : bankArg r (some n) = none := by
  match n, h with
  | _ + 2, _ => rfl

/-- A row that does not use B is given bank 0 only. -/
theorem bankArg_eq_b0 {r : OpRow} {k : Option Nat} {b : Bank} (h : bankArg r k = some b) (hu : r.usesB = false) :
    b = .b0 := by
  cases k with
  | none => exact (Option.some.inj h).symm
  | some n => simp [bankArg_of_not_usesB hu] at h

/-- A row that does not use SEL is given no `sel=`. -/
theorem selArg_of_not_usesSel {r : OpRow} (hr : r ∈ opcodeTable) (hu : r.usesSel = false) {sel : SelArg}
    (h : sel ≠ .absent) : selArg r sel = none := by
  have hm : r.mnemonic ≠ .checkSize := fun h => by simp [(uses_iff_mnemonic hr).1.mpr (.inr (.inr h))] at hu
  cases sel with
  | absent => exact absurd rfl h
  | field f => simp [selArg, hu]
  | transport t => simp [selArg, hm]
  | number n => simp [selArg, hu]

/-- A row that does not use SEL is given selector 0 only. -/
theorem selArg_eq_zero {r : OpRow} (hr : r ∈ opcodeTable) {k : SelArg} {sel : BitVec 4} (h : selArg r k = some sel)
    (hu : r.usesSel = false) : sel = 0 := by
  by_cases hk : k = .absent
  · subst hk
    exact (Option.some.inj h).symm
  · simp [selArg_of_not_usesSel hr hu hk] at h

/-- What the assembler makes of a line: the command word of the row's instruction with the line's operands. -/
theorem cmdWord_eq_some_iff {m : Mnemonic} {k : Option Nat} {sel : SelArg} {w : Word} :
    cmdWord m k sel = some w ↔ ∃ r b sl, rowOf m = some r ∧ bankArg r k = some b ∧ selArg r sel = some sl ∧
      encode (r.build b sl) = w := by
  have hword {r : OpRow} {b : Bank} {sl : BitVec 4} (hr : rowOf m = some r) (hb : bankArg r k = some b)
      (hs : selArg r sel = some sl) : encode (r.build b sl) = r.pattern ||| bankBit b ||| selBits sl := by
    have hmem := (mem_and_mnemonic_of_rowOf hr).1
    rw [encode_build hmem, operandBits_eq (bankArg_eq_b0 hb) (selArg_eq_zero hmem hs), BitVec.or_assoc]
  constructor
  · intro h
    unfold cmdWord at h
    split at h
    · cases h
    · rename_i r hr
      split at h
      · rename_i b sl hb hs
        exact ⟨r, b, sl, hr, hb, hs, (hword hr hb hs).trans (Option.some.inj h)⟩
      · cases h
  · rintro ⟨r, b, sl, hr, hb, hs, rfl⟩
    rw [hword hr hb hs]
    simp only [cmdWord, hr, hb, hs]

/-- The assembler refuses a line whose bank or selector it refuses. -/
theorem cmdWord_eq_none {m : Mnemonic} {k : Option Nat} {sel : SelArg}
    (h : ∀ r, rowOf m = some r → bankArg r k = none ∨ selArg r sel = none) : cmdWord m k sel = none := by
  refine Option.eq_none_iff_forall_ne_some.mpr fun w hw => ?_
  obtain ⟨r, b, sl, hr, hb, hs, -⟩ := cmdWord_eq_some_iff.mp hw
  rcases h r hr with h | h
  · simp [h] at hb
  · simp [h] at hs

/-- Settles O54: an operand that the row does not use is 0 or refused, so the word is the encoding of an instruction. -/
theorem assembledCommandsAreLegal : Obligations.AssembledCommandsAreLegal := by
  refine ⟨fun m b sel w h => ?_, fun m n sel hn => ?_, fun n sel => ?_, fun m b sel hsel hg hs hc => ?_⟩
  · obtain ⟨r, bk, sl, -, -, -, hw⟩ := cmdWord_eq_some_iff.mp h
    exact ⟨r.build bk sl, decode_eq_ok_iff.mpr hw, hw⟩
  · exact cmdWord_eq_none fun r _ => .inl (bankArg_of_two_le r hn)
  · exact cmdWord_eq_none fun r hr => .inl (bankArg_of_not_usesB (rowOf_checkSize_usesB hr) n)
  · refine cmdWord_eq_none fun r hr => .inr ?_
    obtain ⟨hmem, rfl⟩ := mem_and_mnemonic_of_rowOf hr
    have hu : r.usesSel = false := by
      rw [← Bool.not_eq_true, (uses_iff_mnemonic hmem).1]
      simp [hg, hs, hc]
    exact selArg_of_not_usesSel hmem hu hsel

/-- A `cmd` line writes the command word of its row's instruction to CMD. -/
theorem cmdStep_eq {m : Mnemonic} {k : Option Nat} {sel : SelArg} {r : OpRow} {b : Bank} {sl : BitVec 4}
    (hr : rowOf m = some r) (hb : bankArg r k = some b) (hs : selArg r sel = some sl) :
    cmdStep m k sel = some ⟨.writeReg 0 (encode (r.build b sl)), false⟩ := by
  rw [cmdStep, cmdWord_eq_some_iff.mpr ⟨r, b, sl, hr, hb, hs, rfl⟩]
  rfl

/-- The bank that `b=` names: bank 0 also where it is absent (30_encoding.md R87). -/
theorem bankArg_of_usesB {r : OpRow} (hu : r.usesB = true) {b : Bank} {k : Option Nat}
    (h : (b = .b0 ∧ (k = none ∨ k = some 0)) ∨ (b = .b1 ∧ k = some 1)) : bankArg r k = some b := by
  rcases h with ⟨rfl, rfl | rfl⟩ | ⟨rfl, rfl⟩
  · rfl
  · simp [bankArg, hu]
  · simp [bankArg, hu]

/-- Settles O55: each pseudo-instruction from the command words of its `cmd` lines. -/
theorem pseudoInstructionsExpand : Obligations.PseudoInstructionsExpand := by
  intro b k hk
  refine ⟨fun f v => ?_, fun f => ?_, fun code t => ?_, fun n => ?_⟩
  · rw [HostLine.assemble, cmdStep_eq rfl (bankArg_of_usesB rfl hk) rfl]
    rfl
  · rw [HostLine.assemble, cmdStep_eq rfl (bankArg_of_usesB rfl hk) rfl]
    rfl
  · rw [HostLine.assemble, cmdStep_eq rfl (bankArg_of_usesB rfl hk) rfl, cmdStep_eq rfl (bankArg_of_usesB rfl hk) rfl,
      cmdStep_eq rfl rfl rfl]
    rfl
  · rw [HostLine.assemble, cmdStep_eq rfl (bankArg_of_usesB rfl hk) rfl, cmdStep_eq rfl (bankArg_of_usesB rfl hk) rfl]
    rfl

end Sys2Proof.Machine
end

section
/-! The header codec commands (40_header_codec.md). First what a command leaves that ends `ok` with output in OBUF, or
with a new bank; then where each decoder raises and where it stops; then each command from its word to its end state. -/

namespace Sys2Proof.Machine

section Ends
variable {i : Instr} {s : State} {r : Cmd State}

/-- A command that ends with the bytes `x` in OBUF leaves their number in OBUF_LEN and changes nothing else. -/
theorem exec_of_ok_putOBuf {x : List Byte} (hi : exec i s = finish s r) (hr : r = .ok (s.putOBuf x))
    (hx : x.length < 2 ^ 32) :
    ∃ t, exec i s = .next t ∧ t.statusErr = 0 ∧ t.obufLen = BitVec.ofNat 32 x.length ∧ WroteOBuf s t x ∧
      OnlyOBuf s t := by
  obtain ⟨hlen, hbytes, hrest⟩ := s.wroteOBuf_putOBuf x hx
  exact ⟨(s.putOBuf x).setErr 0, by rw [hi, hr, finish_ok], rfl, rfl, ⟨hlen, hbytes, hrest⟩, rfl⟩

/-- A command that ends with a new bank `b` changes nothing else. -/
theorem exec_of_ok_setBank {b : Bank} {p : Packet} (hi : exec i s = finish s r) (hr : r = .ok (s.setBank b p)) :
    ∃ t, exec i s = .next t ∧ t.statusErr = 0 ∧ t.bank b = p ∧ OnlyBank b s t :=
  ⟨(s.setBank b p).setErr 0, by rw [hi, hr, finish_ok], rfl, by simp, by simp, rfl⟩

/-- A command that asks for an unwritten byte stops the model. -/
theorem exec_of_uninit (hi : exec i s = finish s r) (hr : r = .uninit) : exec i s = .fault .uninitRead := by
  rw [hi, hr, finish_uninit]

end Ends

/-! Where the decoders raise, and where they stop: the checks stand before the read, in this order. -/

section Decoders
variable {c : Config} {b : Bank} {s : State}

theorem phDecodeCmd_of_avail_gt (h : c.bufCap < s.arg0.toNat) : phDecodeCmd c b s = .raise .illegalOperand := if_pos h

theorem phDecodeCmd_of_avail_lt (h : s.arg0.toNat ≤ c.bufCap) (h6 : s.arg0.toNat < 6) :
    phDecodeCmd c b s = .raise .notACCSDSSpacePacket := by
  rw [phDecodeCmd, if_neg (Nat.not_lt.mpr h), if_pos h6]

theorem phDecodeCmd_of_unwritten (h : s.arg0.toNat ≤ c.bufCap) (h6 : 6 ≤ s.arg0.toNat)
    (hu : HasUnwritten s.ibuf 0 6) : phDecodeCmd c b s = .uninit := by
  rw [phDecodeCmd, if_neg (Nat.not_lt.mpr h), if_neg (Nat.not_lt.mpr h6), State.memRead_eq_uninit.mpr hu,
    Cmd.bind_uninit]

/-- The two comparisons of R103 together say that the window `[ARG0, ARG0 + ARG1)` leaves the buffer. -/
theorem offset_gt_or_remaining_gt_iff :
    (s.offsetOperand > c.bufCap ∨ s.remainingOperand > c.bufCap - s.offsetOperand) ↔
      c.bufCap < s.arg0.toNat + s.arg1.toNat := by
  unfold State.offsetOperand State.remainingOperand
  omega

theorem shDecodeCmd_of_window_gt (h : c.bufCap < s.arg0.toNat + s.arg1.toNat) :
    shDecodeCmd c b s = .raise .illegalOperand := if_pos (offset_gt_or_remaining_gt_iff.mpr h)

theorem shDecodeCmd_of_remaining_lt (h : s.arg0.toNat + s.arg1.toNat ≤ c.bufCap) (hl : s.arg1.toNat < c.secLen) :
    shDecodeCmd c b s = .raise .secondaryHeaderDecodeError := by
  rw [shDecodeCmd, if_neg (mt offset_gt_or_remaining_gt_iff.mp (Nat.not_lt.mpr h)), if_pos hl]

theorem shDecodeCmd_of_unwritten (h : s.arg0.toNat + s.arg1.toNat ≤ c.bufCap) (hl : c.secLen ≤ s.arg1.toNat)
    (hu : HasUnwritten s.ibuf s.arg0.toNat (s.arg0.toNat + c.secLen)) : shDecodeCmd c b s = .uninit := by
  rw [shDecodeCmd, if_neg (mt offset_gt_or_remaining_gt_iff.mp (Nat.not_lt.mpr h)), if_neg (Nat.not_lt.mpr hl),
    State.memRead_eq_uninit.mpr hu, Cmd.bind_uninit]

end Decoders

/-- Settles O31: the output is the six bytes of the encoding. -/
theorem phEncodeWritesTheHeader : Obligations.PhEncodeWritesTheHeader := fun b s =>
  ⟨decode_encode (.phEncode b), exec_of_ok_putOBuf (exec_phEncode b s) rfl (by simp)⟩

/-- Settles O32: the two checks, then the read of six bytes. -/
theorem phDecodeLoadsTheHeader : Obligations.PhDecodeLoadsTheHeader := by
  intro b s
  refine ⟨decode_encode (.phDecode b), fun h => ?_, fun h6 => ?_, fun h6 h hu => ?_, fun x h6 h hl hx => ?_⟩
  · exact raises_of_eq_raise (exec_phDecode b s) (phDecodeCmd_of_avail_gt h)
  · have h : s.arg0.toNat ≤ block.bufCap := by rw [block_bufCap]; omega
    exact raises_of_eq_raise (exec_phDecode b s) (phDecodeCmd_of_avail_lt h h6)
  · exact exec_of_uninit (exec_phDecode b s) (phDecodeCmd_of_unwritten h h6 hu)
  · have hread : s.memRead 0 6 = .ok x := State.memRead_eq_ok.mpr ⟨hl, hx⟩
    exact exec_of_ok_setBank (exec_phDecode b s) (phDecodeCmd_eq_ok.mpr ⟨h, h6, x, hread, rfl⟩)

/-- Settles O33: the output is the eight bytes of the encoding by this block's layout. -/
theorem shEncodeWritesTheHeader : Obligations.ShEncodeWritesTheHeader := fun b s =>
  ⟨decode_encode (.shEncode b), exec_of_ok_putOBuf (exec_shEncode b s) rfl (by simp)⟩

/-- Settles O34: the check of the window, the check of its length, then the read of the eight bytes at ARG0. -/
theorem shDecodeLoadsTheHeader : Obligations.ShDecodeLoadsTheHeader := by
  intro b s
  refine ⟨decode_encode (.shDecode b), fun h => ?_, fun h hl => ?_, fun h hl hu => ?_, fun x h hl hx hb => ?_⟩
  · exact raises_of_eq_raise (exec_shDecode b s) (shDecodeCmd_of_window_gt h)
  · exact raises_of_eq_raise (exec_shDecode b s) (shDecodeCmd_of_remaining_lt h hl)
  · exact exec_of_uninit (exec_shDecode b s) (shDecodeCmd_of_unwritten h hl hu)
  · have hread : s.memRead s.arg0.toNat block.secLen = .ok x := State.memRead_eq_ok.mpr ⟨hx, hb⟩
    exact exec_of_ok_setBank (exec_shDecode b s) (shDecodeCmd_eq_ok.mpr ⟨h, hl, x, hread, rfl⟩)

end Sys2Proof.Machine
end

section
/-! The packet model commands (41_packet_model.md). First where a buffer holds a sequence of parts and where one of its
bytes is unwritten; then what SERIALIZE leaves, what INTERPRET does in each of its cases, and the round trip of the two
over every configuration. -/

namespace Sys2Proof.Machine

/-! Buffers by parts. -/

/-- A buffer holds two sequences one after the other exactly where it holds each in its place. -/
theorem hasBytes_append {m : Memory} {a : Nat} {x y : List Byte} :
    HasBytes m a (x ++ y) ↔ HasBytes m a x ∧ HasBytes m (a + x.length) y := by
  constructor
  · refine fun h => ⟨fun k hk => ?_, fun k hk => ?_⟩
    · rw [h k (by rw [List.length_append]; omega), List.getElem?_append_left hk]
    · rw [Nat.add_assoc, h (x.length + k) (by rw [List.length_append]; omega),
        List.getElem?_append_right (Nat.le_add_right _ _), Nat.add_sub_cancel_left]
  · rintro ⟨hx, hy⟩ k hk
    rw [List.length_append] at hk
    rcases Nat.lt_or_ge k x.length with hlt | hge
    · rw [hx k hlt, List.getElem?_append_left hlt]
    · rw [List.getElem?_append_right hge, ← hy (k - x.length) (by omega), Nat.add_assoc, Nat.add_sub_cancel' hge]

theorem HasBytes.congr {m m' : Memory} {a : Nat} {x : List Byte} (h : HasBytes m a x)
    (hm : ∀ k, k < a + x.length → Memory.read m' k = Memory.read m k) : HasBytes m' a x :=
  fun k hk => (hm (a + k) (by omega)).trans (h k hk)

/-- An unwritten byte lies below or above any cut. -/
theorem HasUnwritten.split {m : Memory} {a d : Nat} (h : HasUnwritten m a d) (b : Nat) :
    HasUnwritten m a b ∨ HasUnwritten m b d := by
  obtain ⟨k, ha, hd, hk⟩ := h
  rcases Nat.lt_or_ge k b with hlt | hge
  · exact .inl ⟨k, ha, hlt, hk⟩
  · exact .inr ⟨k, hge, hd, hk⟩

/-- A read of IBUF gives its bytes, or one of them was not written. -/
theorem State.memRead_ok_or_unwritten (s : State) (a n : Nat) :
    (∃ x, s.memRead a n = .ok x) ∨ HasUnwritten s.ibuf a (a + n) := by
  cases h : s.memRead a n with
  | ok x => exact .inl ⟨x, rfl⟩
  | raise e => exact absurd h (s.memRead_ne_raise a n e)
  | uninit => exact .inr (State.memRead_eq_uninit.mp h)

/-- A read of IBUF depends on the bytes it asks for only. -/
theorem State.memRead_congr_of_reads {s t : State} {a n : Nat}
    (h : ∀ k, k < a + n → Memory.read t.ibuf k = Memory.read s.ibuf k) : t.memRead a n = s.memRead a n := by
  rcases s.memRead_ok_or_unwritten a n with ⟨x, hx⟩ | hu
  · obtain ⟨hl, hb⟩ := State.memRead_eq_ok.mp hx
    rw [hx, State.memRead_eq_ok]
    exact ⟨hl, hb.congr (hl.symm ▸ h)⟩
  · rw [State.memRead_eq_uninit.mpr hu, State.memRead_eq_uninit]
    obtain ⟨k, ha, hn, hk⟩ := hu
    exact ⟨k, ha, hn, (h k hn).trans hk⟩

/-- A sequence written again leaves every byte as it was. -/
theorem Memory.read_writeBytes_again (m : Memory) (a : Nat) (x : List Byte) (k : Nat) :
    Memory.read (Memory.writeBytes (Memory.writeBytes m a x) a x) k = Memory.read (Memory.writeBytes m a x) k := by
  simp only [Memory.read_writeBytes]
  split <;> rfl

/-- A command that ends `ok` with a new bank `b` changes nothing else. -/
theorem finish_ok_setBank (s : State) (b : Bank) (p : Packet) :
    ∃ t, finish s (.ok (s.setBank b p)) = .next t ∧ t.statusErr = 0 ∧ t.bank b = p ∧ OnlyBank b s t :=
  ⟨(s.setBank b p).setErr 0, rfl, rfl, by simp, by simp, rfl⟩

/-! SERIALIZE (41_packet_model.md R111). -/

section Serialize
variable (c : Config) (b : Bank) (s : State)

/-- The packet that SERIALIZE makes of bank `b`: PDL recomputed from the data field. -/
def State.lengthened : Packet := (s.bank b).withDataLen ((s.bank b).dataLen c)

/-- The state SERIALIZE ends in where it raises no error. -/
def State.serialized : State :=
  ((s.setBank b (s.lengthened c b)).putOBuf ((s.lengthened c b).bytes c)).setErr 0

theorem finish_serializeCmd (h1 : 1 ≤ (s.bank b).dataLen c) (h2 : (s.bank b).dataLen c ≤ 65536) :
    finish s (serializeCmd c b s) = .next (s.serialized c b) := by
  rw [serializeCmd_eq_ok.mpr ⟨h1, h2, rfl⟩, finish_ok]
  rfl

theorem serializeCmd_of_empty (h : (s.bank b).dataLen c = 0) : serializeCmd c b s = .raise .emptyPacketDataField :=
  if_pos h

theorem serializeCmd_of_too_long (h : 65536 < (s.bank b).dataLen c) :
    serializeCmd c b s = .raise .packetDataFieldTooLong := by
  rw [serializeCmd, if_neg (by omega), if_pos h]

@[simp] theorem State.serialized_bank : (s.serialized c b).bank b = s.lengthened c b := by
  simp [State.serialized]

@[simp] theorem State.serialized_bank_other :
    (s.serialized c b).bank (otherBank b) = s.bank (otherBank b) := by
  simp [State.serialized]

theorem State.serialized_obuf :
    (s.serialized c b).obuf = Memory.writeBytes s.obuf 0 ((s.lengthened c b).bytes c) := rfl

theorem State.serialized_obufLen :
    (s.serialized c b).obufLen = BitVec.ofNat 32 ((s.lengthened c b).bytes c).length := rfl

theorem State.lengthened_pdl (h1 : 1 ≤ (s.bank b).dataLen c) (h2 : (s.bank b).dataLen c ≤ 65536) :
    (s.lengthened c b).pri.pdl.toNat + 1 = (s.bank b).dataLen c :=
  (s.bank b).withDataLen_pdl_add_one h1 h2

theorem State.serialized_dataLen : ((s.serialized c b).bank b).dataLen c = (s.bank b).dataLen c := by
  rw [State.serialized_bank, State.lengthened, Packet.withDataLen_dataLen]

/-- SERIALIZE looks at no PDL, so it makes the same packet again. -/
@[simp] theorem State.serialized_lengthened : (s.serialized c b).lengthened c b = s.lengthened c b := by
  rw [State.lengthened, State.serialized_bank]
  rfl

variable {c} in
theorem State.lengthened_bytes_length (hl : c.shLayout.Lawful) :
    ((s.lengthened c b).bytes c).length = 6 + (s.bank b).dataLen c :=
  Packet.bytes_length hl _

variable {c} in
theorem State.serialized_wroteOBuf (hl : c.shLayout.Lawful) (h2 : (s.bank b).dataLen c ≤ 65536) :
    WroteOBuf s (s.serialized c b) ((s.lengthened c b).bytes c) := by
  have hlt : ((s.lengthened c b).bytes c).length < 2 ^ 32 := by
    rw [s.lengthened_bytes_length b hl]
    omega
  obtain ⟨hlen, hbytes, hrest⟩ := (s.setBank b (s.lengthened c b)).wroteOBuf_putOBuf _ hlt
  exact ⟨hlen, hbytes, hrest⟩

end Serialize

/-! INTERPRET (41_packet_model.md R112): first what stands behind the primary header, then the whole command. -/

section InterpretBody
variable {c : Config} {h : PriHdr} {s : State}

/-- With SHF 0 the whole data field is user data. -/
theorem interpretBody_of_shf_zero (h0 : h.shf = 0) :
    interpretBody c h s = (s.memRead 6 (h.pdl.toNat + 1)).bind fun u => .ok ⟨h, zeroSecHdr, u⟩ := if_pos h0

/-- With SHF 1 a data field that cannot hold the secondary header is an error, and else the two parts are read. -/
theorem interpretBody_of_shf_one (h1 : h.shf = 1) :
    interpretBody c h s =
      if h.pdl.toNat + 1 < c.secLen then .raise .inconsistentPacketLength
      else (s.memRead 6 c.secLen).bind fun y =>
        (s.memRead (6 + c.secLen) (h.pdl.toNat + 1 - c.secLen)).bind fun u => .ok ⟨h, c.shLayout.dec y, u⟩ := by
  rw [interpretBody, if_neg (by simp [h1])]

theorem interpretBody_of_short (h1 : h.shf = 1) (hl : h.pdl.toNat + 1 < c.secLen) :
    interpretBody c h s = .raise .inconsistentPacketLength := by
  rw [interpretBody_of_shf_one h1, if_pos hl]

theorem interpretBody_of_parts {y u : List Byte} (h1 : h.shf = 1) (hl : c.secLen ≤ h.pdl.toNat + 1)
    (hy : s.memRead 6 c.secLen = .ok y) (hu : s.memRead (6 + c.secLen) (h.pdl.toNat + 1 - c.secLen) = .ok u) :
    interpretBody c h s = .ok ⟨h, c.shLayout.dec y, u⟩ := by
  rw [interpretBody_of_shf_one h1, if_neg (Nat.not_lt.mpr hl), hy, Cmd.bind_ok, hu, Cmd.bind_ok]

theorem interpretBody_of_unwritten (hl : h.shf = 1 → c.secLen ≤ h.pdl.toNat + 1)
    (hu : HasUnwritten s.ibuf 6 (h.pdl.toNat + 1 + 6)) : interpretBody c h s = .uninit := by
  rcases BitVec.eq_zero_or_eq_one h.shf with h0 | h1
  · rw [Nat.add_comm _ 6] at hu
    rw [interpretBody_of_shf_zero h0, State.memRead_eq_uninit.mpr hu, Cmd.bind_uninit]
  · have hle := hl h1
    rw [interpretBody_of_shf_one h1, if_neg (Nat.not_lt.mpr hle), Cmd.bind_eq_uninit]
    rcases s.memRead_ok_or_unwritten 6 c.secLen with ⟨y, hy⟩ | hsec
    · have hudf : HasUnwritten s.ibuf (6 + c.secLen) (6 + c.secLen + (h.pdl.toNat + 1 - c.secLen)) := by
        rw [show 6 + c.secLen + (h.pdl.toNat + 1 - c.secLen) = h.pdl.toNat + 1 + 6 by omega]
        refine (hu.split (6 + c.secLen)).resolve_left fun hsec => ?_
        rw [State.memRead_eq_uninit.mpr hsec] at hy
        cases hy
      exact .inr ⟨y, hy, by rw [State.memRead_eq_uninit.mpr hudf, Cmd.bind_uninit]⟩
    · exact .inl (State.memRead_eq_uninit.mpr hsec)

/-- Only the bytes of the packet play a part. -/
theorem interpretBody_congr_of_reads {t : State}
    (hr : ∀ k, k < h.pdl.toNat + 1 + 6 → Memory.read t.ibuf k = Memory.read s.ibuf k) :
    interpretBody c h t = interpretBody c h s := by
  rcases BitVec.eq_zero_or_eq_one h.shf with h0 | h1
  · rw [interpretBody_of_shf_zero h0, interpretBody_of_shf_zero h0,
      State.memRead_congr_of_reads (s := s) (t := t) fun k hk => hr k (by omega)]
  · rw [interpretBody_of_shf_one h1, interpretBody_of_shf_one h1]
    split
    · rfl
    · rw [State.memRead_congr_of_reads (s := s) (t := t) (a := 6) fun k hk => hr k (by omega),
        State.memRead_congr_of_reads (s := s) (t := t) (a := 6 + c.secLen) fun k hk => hr k (by omega)]

end InterpretBody

section Interpret
variable {c : Config} {b : Bank} {s : State}

theorem interpretCmd_of_length_gt (h : c.bufCap < s.arg0.toNat) : interpretCmd c b s = .raise .illegalOperand :=
  if_pos h

theorem interpretCmd_of_length_lt (h : s.arg0.toNat ≤ c.bufCap) (h6 : s.arg0.toNat < 6) :
    interpretCmd c b s = .raise .notACCSDSSpacePacket := by
  rw [interpretCmd, if_neg (Nat.not_lt.mpr h), if_pos h6]

theorem interpretCmd_of_unwritten (h : s.arg0.toNat ≤ c.bufCap) (h6 : 6 ≤ s.arg0.toNat)
    (hu : HasUnwritten s.ibuf 0 6) : interpretCmd c b s = .uninit := by
  rw [interpretCmd, if_neg (Nat.not_lt.mpr h), if_neg (Nat.not_lt.mpr h6), State.memRead_eq_uninit.mpr hu,
    Cmd.bind_uninit]

section Header
variable {x : List Byte} (h : s.arg0.toNat ≤ c.bufCap) (h6 : 6 ≤ s.arg0.toNat) (hx : s.memRead 0 6 = .ok x)
include h h6 hx

theorem interpretCmd_of_length_lt_packet (hl : s.arg0.toNat < (decPH x).pdl.toNat + 1 + 6) :
    interpretCmd c b s = .raise .inconsistentPacketLength := by
  rw [interpretCmd, if_neg (Nat.not_lt.mpr h), if_neg (Nat.not_lt.mpr h6), hx, Cmd.bind_ok, if_pos hl]

/-- Where the given length covers the packet, INTERPRET is the reading of what stands behind the header. -/
theorem interpretCmd_of_header (hl : (decPH x).pdl.toNat + 1 + 6 ≤ s.arg0.toNat) :
    interpretCmd c b s = (interpretBody c (decPH x) s).bind fun p => .ok (s.setBank b p) := by
  rw [interpretCmd, if_neg (Nat.not_lt.mpr h), if_neg (Nat.not_lt.mpr h6), hx, Cmd.bind_ok,
    if_neg (Nat.not_lt.mpr hl)]

end Header

end Interpret

/-! The round trip (41_packet_model.md R119). -/

/-- What INTERPRET can recover of a packet: the secondary header only where SHF says that there is one. -/
def Packet.received (p : Packet) : Packet := { p with sec := if p.pri.shf = 1 then p.sec else zeroSecHdr }

/-- Behind the header of a packet whose PDL is exact stands what the packet holds. -/
theorem interpretBody_bytes {c : Config} {p : Packet} {s : State} (hl : c.shLayout.Lawful)
    (hr : p.sec.inRange c.shLayout.widths = true) (hp : p.pri.pdl.toNat + 1 = p.dataLen c)
    (hb : HasBytes s.ibuf 0 (p.bytes c)) : interpretBody c p.pri s = .ok p.received := by
  have hsec : (c.shLayout.enc p.sec).length = c.secLen := hl.enc_length p.sec
  rcases BitVec.eq_zero_or_eq_one p.pri.shf with h0 | h1
  · rw [Packet.bytes_of_shf_zero h0, hasBytes_append] at hb
    obtain ⟨-, hu⟩ := hb
    have hlen : p.udf.length = p.pri.pdl.toNat + 1 := by simp [hp, Packet.dataLen, Packet.secLen, h0]
    have hread : s.memRead 6 (p.pri.pdl.toNat + 1) = .ok p.udf := State.memRead_eq_ok.mpr ⟨hlen, hu⟩
    rw [interpretBody_of_shf_zero h0, hread, Cmd.bind_ok]
    simp [Packet.received, h0]
  · rw [Packet.bytes_of_shf_one h1, hasBytes_append, hasBytes_append] at hb
    obtain ⟨-, hy, hu⟩ := hb
    rw [hsec] at hu
    have hlen : p.pri.pdl.toNat + 1 = c.secLen + p.udf.length := by simp [hp, Packet.dataLen, Packet.secLen, h1]
    rw [interpretBody_of_parts h1 (by omega) (State.memRead_eq_ok.mpr ⟨hsec, hy⟩)
      (State.memRead_eq_ok.mpr ⟨by omega, hu⟩), hl.dec_enc p.sec hr]
    simp [Packet.received, h1]

/-- INTERPRET of a whole serialized packet. -/
theorem interpretCmd_bytes {c : Config} {b : Bank} {p : Packet} {s : State} (hl : c.shLayout.Lawful)
    (hr : p.sec.inRange c.shLayout.widths = true) (hp : p.pri.pdl.toNat + 1 = p.dataLen c)
    (hb : HasBytes s.ibuf 0 (p.bytes c)) (hlen : s.arg0.toNat = (p.bytes c).length) (hcap : s.arg0.toNat ≤ c.bufCap) :
    interpretCmd c b s = .ok (s.setBank b p.received) := by
  rw [Packet.bytes_length hl] at hlen
  have hhdr : s.memRead 0 6 = .ok (encPH p.pri) := by
    rw [Packet.bytes, List.append_assoc, hasBytes_append] at hb
    exact State.memRead_eq_ok.mpr ⟨encPH_length _, hb.1⟩
  rw [interpretCmd_of_header hcap (by omega) hhdr (by rw [decPH_encPH]; omega), decPH_encPH,
    interpretBody_bytes hl hr hp hb, Cmd.bind_ok]

/-- The longest packet fits a buffer (00_scope.md R10). -/
theorem bufCap_ge_of_valid {c : Config} (hc : c.Valid) : 6 + 65536 ≤ c.bufCap :=
  (config_wf_iff.mp hc.wf).1

theorem block_valid : block.Valid := ⟨block_wf, defaultLayout_lawful⟩

/-- INTERPRET after SERIALIZE, with the bytes of OBUF taken to IBUF. -/
theorem interpretCmd_of_serialized {c : Config} {b b' : Bank} {s u : State} (hc : c.Valid)
    (hr : (s.bank b).sec.inRange c.shLayout.widths = true) (h1 : 1 ≤ (s.bank b).dataLen c)
    (h2 : (s.bank b).dataLen c ≤ 65536)
    (hi : ∀ a, a < (s.serialized c b).obufLen.toNat →
      Memory.read u.ibuf a = Memory.read (s.serialized c b).obuf a)
    (ha : u.arg0 = (s.serialized c b).obufLen) :
    interpretCmd c b' u = .ok (u.setBank b' (s.lengthened c b).received) := by
  have hw := s.serialized_wroteOBuf b hc.layout h2
  have hlen : u.arg0.toNat = ((s.lengthened c b).bytes c).length := by rw [ha, hw.len]
  have hcap := bufCap_ge_of_valid hc
  have hbytes := s.lengthened_bytes_length b hc.layout
  refine interpretCmd_bytes hc.layout hr (s.lengthened_pdl c b h1 h2) ?_ hlen (by omega)
  exact hw.bytes.congr fun k hk => hi k (by rw [hw.len]; omega)

/-- Settles O57: SERIALIZE makes PDL exact and puts the packet's bytes in OBUF, from which INTERPRET recovers it. -/
theorem roundTripInEveryConfiguration : Obligations.RoundTripInEveryConfiguration := by
  refine ⟨fun b s => ⟨exec_serialize b s, exec_interpret b s⟩, ?_⟩
  rintro c b b' s _ hc hr rfl h1 h2
  have hw := s.serialized_wroteOBuf b hc.layout h2
  refine ⟨_, finish_serializeCmd c b s h1 h2, rfl, hw.len.trans (s.lengthened_bytes_length b hc.layout),
    fun u hi ha => ?_⟩
  rw [interpretCmd_of_serialized hc hr h1 h2 hi ha]
  obtain ⟨v, hv, hv0, hvb, -⟩ := finish_ok_setBank u b' (s.lengthened c b).received
  exact ⟨v, hv, hv0, hvb⟩

/-- Settles O51: the round trip at this block's configuration. -/
theorem serializeInterpretRoundTrip : Obligations.SerializeInterpretRoundTrip := by
  intro b b' s n hr hn h1 h2
  rw [← block_secLen] at hn
  obtain ⟨t, ht, ht0, -, hback⟩ := roundTripInEveryConfiguration.2 block b b' s n block_valid hr hn h1 h2
  exact ⟨t, ht, ht0, hback⟩

end Sys2Proof.Machine
end

section
/-! The packet model commands one by one (41_packet_model.md R110 to R118), each from its word to its end state. -/

namespace Sys2Proof.Machine

/-- Settles O36: the errors by the data field length, and otherwise the serialized state, whose output is made again. -/
theorem serializeWritesThePacket : Obligations.SerializeWritesThePacket := by
  intro b s n hn
  obtain rfl : n = (s.bank b).dataLen block := hn
  refine ⟨decode_encode (.serialize b), fun h0 => ?_, fun hlong => ?_, fun h1 h2 => ?_⟩
  · exact raises_of_eq_raise (exec_serialize b s) (serializeCmd_of_empty block b s h0)
  · exact raises_of_eq_raise (exec_serialize b s) (serializeCmd_of_too_long block b s hlong)
  · have hw := s.serialized_wroteOBuf b defaultLayout_lawful h2
    have hlen := s.serialized_dataLen block b
    have hagain := finish_serializeCmd block b (s.serialized block b) (h1.trans_eq hlen.symm) (hlen.trans_le h2)
    refine ⟨s.serialized block b, s.lengthened block b, finish_serializeCmd block b s h1 h2, rfl, rfl,
      s.serialized_bank block b, s.lengthened_pdl block b h1 h2, s.serialized_bank_other block b,
      hw.len.trans (s.lengthened_bytes_length b defaultLayout_lawful), hw, rfl, _, hagain, ?_, fun a => ?_⟩
    · rw [State.serialized_obufLen, State.serialized_lengthened, State.serialized_obufLen]
    · rw [State.serialized_obuf, State.serialized_lengthened, State.serialized_obuf, Memory.read_writeBytes_again]

/-- Settles O37: the checks of the length, the read of the header, and the cases of what stands behind it. -/
theorem interpretLoadsThePacket : Obligations.InterpretLoadsThePacket := by
  intro b s
  refine ⟨decode_encode (.interpret b), fun h => ?_, fun h6 => ?_, fun h6 h hu => ?_, ?_⟩
  · exact raises_of_eq_raise (exec_interpret b s) (interpretCmd_of_length_gt h)
  · have h : s.arg0.toNat ≤ block.bufCap := by rw [block_bufCap]; omega
    exact raises_of_eq_raise (exec_interpret b s) (interpretCmd_of_length_lt h h6)
  · exact exec_of_uninit (exec_interpret b s) (interpretCmd_of_unwritten h h6 hu)
  · rintro x _ h6 h hx6 hx rfl
    have hread : s.memRead 0 6 = .ok x := State.memRead_eq_ok.mpr ⟨hx6, hx⟩
    refine ⟨fun hl => ?_, fun hl h1 hs => ?_, fun hl hs hu => ?_, fun u hl h0 hlen hu => ?_,
      fun y u hl h1 hy8 hlen hy hu => ?_⟩
    · exact raises_of_eq_raise (exec_interpret b s) (interpretCmd_of_length_lt_packet h h6 hread hl)
    · refine raises_of_eq_raise (e := .inconsistentPacketLength) (exec_interpret b s) ?_
      rw [interpretCmd_of_header h h6 hread hl, interpretBody_of_short h1 (by rwa [block_secLen]), Cmd.bind_raise]
    · refine exec_of_uninit (exec_interpret b s) ?_
      rw [interpretCmd_of_header h h6 hread hl, interpretBody_of_unwritten hs hu, Cmd.bind_uninit]
    · refine exec_of_ok_setBank (exec_interpret b s) ?_
      rw [interpretCmd_of_header h h6 hread hl, interpretBody_of_shf_zero h0, State.memRead_eq_ok.mpr ⟨hlen, hu⟩,
        Cmd.bind_ok, Cmd.bind_ok]
    · refine exec_of_ok_setBank (exec_interpret b s) ?_
      have hreadSec : s.memRead 6 block.secLen = .ok y := State.memRead_eq_ok.mpr ⟨hy8, hy⟩
      have hreadUdf : s.memRead (6 + block.secLen) ((decPH x).pdl.toNat + 1 - block.secLen) = .ok u :=
        State.memRead_eq_ok.mpr ⟨by rw [block_secLen]; omega, hu⟩
      rw [interpretCmd_of_header h h6 hread hl,
        interpretBody_of_parts h1 (by rw [block_secLen]; omega) hreadSec hreadUdf, Cmd.bind_ok]
      rfl

/-- Settles O52: the header and what stands behind it are read below `total`, where the two buffers agree. -/
theorem interpretIgnoresSlack : Obligations.InterpretIgnoresSlack := by
  rintro b s m v x _ hx6 hx rfl hl h hlv hv hm
  have hread : s.memRead 0 6 = .ok x := State.memRead_eq_ok.mpr ⟨hx6, hx⟩
  have hread' : { s with ibuf := m, arg0 := v }.memRead 0 6 = .ok x :=
    (State.memRead_congr_of_reads fun k hk => hm k (by omega)).trans hread
  rw [exec_interpret, exec_interpret, interpretCmd_of_header h (by omega) hread hl,
    interpretCmd_of_header (s := { s with ibuf := m, arg0 := v }) hv (by dsimp only; omega) hread' hlv,
    interpretBody_congr_of_reads (s := s) (t := { s with ibuf := m, arg0 := v }) hm]
  cases interpretBody block (decPH x) s with
  | ok p => rfl
  | raise e => rfl
  | uninit => rfl

/-! SET_USER_DATA (41_packet_model.md R113). -/

section SetUserData
variable {c : Config} {b : Bank} {s : State}

theorem setUserDataCmd_of_count_gt (h : c.bufCap < s.arg0.toNat) : setUserDataCmd c b s = .raise .illegalOperand :=
  if_pos h

variable (h : s.arg0.toNat ≤ c.bufCap)
include h

theorem setUserDataCmd_of_empty (hd : (s.bank b).secLen c + s.arg0.toNat = 0) :
    setUserDataCmd c b s = .raise .emptyPacketDataField := by
  rw [setUserDataCmd, if_neg (Nat.not_lt.mpr h), if_pos hd]

theorem setUserDataCmd_of_too_long (hd : 65536 < (s.bank b).secLen c + s.arg0.toNat) :
    setUserDataCmd c b s = .raise .packetDataFieldTooLong := by
  rw [setUserDataCmd, if_neg (Nat.not_lt.mpr h), if_neg (by unfold State.countOperand; omega), if_pos hd]

theorem setUserDataCmd_of_unwritten (h1 : 1 ≤ (s.bank b).secLen c + s.arg0.toNat)
    (h2 : (s.bank b).secLen c + s.arg0.toNat ≤ 65536) (hu : HasUnwritten s.ibuf 0 s.arg0.toNat) :
    setUserDataCmd c b s = .uninit := by
  have hread : s.memRead 0 s.countOperand = .uninit := State.memRead_eq_uninit.mpr (by rwa [Nat.zero_add])
  rw [setUserDataCmd, if_neg (Nat.not_lt.mpr h), if_neg (by unfold State.countOperand; omega),
    if_neg (Nat.not_lt.mpr h2), hread, Cmd.bind_uninit]

end SetUserData

/-- Settles O38: the three checks, then the read of ARG0 bytes. -/
theorem setUserDataLoadsTheBytes : Obligations.SetUserDataLoadsTheBytes := by
  intro b s d hd
  obtain rfl : d = (s.bank b).secLen block + s.arg0.toNat := hd
  have hcap : (s.bank b).secLen block + s.arg0.toNat ≤ 65536 → s.arg0.toNat ≤ block.bufCap := by
    rw [block_bufCap]; omega
  refine ⟨decode_encode (.setUserData b), fun h => ?_, fun h0 => ?_, fun h hlong => ?_, fun h1 h2 hu => ?_,
    fun u h1 h2 hlen hu => ?_⟩
  · exact raises_of_eq_raise (exec_setUserData b s) (setUserDataCmd_of_count_gt h)
  · exact raises_of_eq_raise (exec_setUserData b s) (setUserDataCmd_of_empty (hcap (by omega)) h0)
  · exact raises_of_eq_raise (exec_setUserData b s) (setUserDataCmd_of_too_long h hlong)
  · exact exec_of_uninit (exec_setUserData b s) (setUserDataCmd_of_unwritten (hcap h2) h1 h2 hu)
  · have hread : s.memRead 0 s.arg0.toNat = .ok u := State.memRead_eq_ok.mpr ⟨hlen, hu⟩
    obtain ⟨t, ht, ht0, htb, hframe⟩ := exec_of_ok_setBank (exec_setUserData b s)
      (setUserDataCmd_eq_ok.mpr ⟨hcap h2, h1, h2, u, hread, rfl⟩)
    refine ⟨t, ht, ht0, htb, ?_, hframe⟩
    rw [htb]
    exact Packet.withDataLen_pdl_add_one _ h1 h2

/-- Settles O39: the output is the user data. -/
theorem getUserDataWritesTheBytes : Obligations.GetUserDataWritesTheBytes := by
  refine fun b s => ⟨decode_encode (.getUserData b), fun hudf => ?_⟩
  have hlt : (s.bank b).udf.length < 2 ^ 32 := Nat.lt_of_le_of_lt hudf (by simp)
  obtain ⟨t, ht, ht0, -, hw, hframe⟩ := exec_of_ok_putOBuf (exec_getUserData b s) rfl hlt
  exact ⟨t, ht, ht0, hw.len, hw, hframe⟩

/-! The fields by their selectors (30_encoding.md R85). -/

section Fields
variable {sel : BitVec 4} {f : Field}

theorem Field.exists_ofSel (h : sel.toNat < 14) : ∃ f, Field.ofSel sel = some f :=
  Option.ne_none_iff_exists'.mp (mt Field.ofSel_eq_none_iff.mp (Nat.not_le.mpr h))

/-- The read-only fields are VER, PDL and UDF_LEN. -/
theorem Field.readOnly_iff (h : Field.ofSel sel = some f) : f.readOnly = true ↔ sel = 0 ∨ sel = 6 ∨ sel = 13 := by
  revert h f sel; decide

theorem Field.width_eq_fieldWidth (c : Config) (f : Field) :
    f.width c = fieldWidth c.shLayout.widths f.sel.toNat := by
  cases f <;> rfl

/-- GET_FIELD's 32 bits hold the whole field, also the length of user data within UDF_CAP. -/
theorem Packet.get_toNat (p : Packet) (f : Field) (h : p.udf.length ≤ udfCap) :
    (p.get f).toNat = fieldNat p f.sel.toNat := by
  rw [udfCap_eq] at h
  cases f with
  | ver | typ | shf | apid | seqf | seqc | pdl => exact BitVec.toNat_setWidth_of_le (by decide)
  | cat | aduUse | aduCh | aduSegf | aduCnt | time => rfl
  | udfLen => exact Nat.mod_eq_of_lt (show p.udf.length < 2 ^ 32 by omega)

/-- A writable field set to a value of its width has that value. -/
theorem fieldNat_set_same {c : Config} (p : Packet) {v : Word} (hf : f.readOnly = false)
    (hv : v.toNat < 2 ^ f.width c) : fieldNat (p.set f v) f.sel.toNat = v.toNat := by
  cases f with
  | ver | pdl | udfLen => cases hf
  | typ | shf | apid | seqf | seqc => exact (BitVec.toNat_setWidth _ v).trans (Nat.mod_eq_of_lt hv)
  | cat | aduUse | aduCh | aduSegf | aduCnt | time => rfl

end Fields

/-- Settles O40: the selector names a field, which 32 bits hold. -/
theorem getFieldReadsTheField : Obligations.GetFieldReadsTheField := by
  refine fun b sel s => ⟨decode_encode (.getField b sel), getField_raises s, fun hsel hudf => ?_⟩
  obtain ⟨f, hf⟩ := Field.exists_ofSel hsel
  refine ⟨(s.setRes0 ((s.bank b).get f)).setErr 0, ?_, ?_, rfl⟩
  · rw [exec_getField, getFieldCmd_eq_ok.mpr ⟨f, hf, rfl⟩, finish_ok]
  · rw [← Field.sel_of_ofSel hf]
    exact (s.bank b).get_toNat f hudf

/-! SET_FIELD (41_packet_model.md R116, R118). -/

theorem fit_of_fault {c : Config} {v : Word} {w : Nat} (h : 2 ^ w ≤ v.toNat) (hc : c.overflowPolicy = .fault) :
    fit c v w = .raise .fieldOverflow := by
  rw [fit, if_neg (Nat.not_lt.mpr h), hc]

theorem fit_of_truncate {c : Config} {v : Word} {w : Nat} (h : 2 ^ w ≤ v.toNat) (hc : c.overflowPolicy = .truncate) :
    fit c v w = .ok (BitVec.ofNat 32 (v.toNat % 2 ^ w)) := by
  rw [fit, if_neg (Nat.not_lt.mpr h), hc]

/-- Where `fit` raises nothing, it passes the value modulo 2 to the width. -/
theorem fit_eq_ok_mod {c : Config} {v : Word} {w : Nat} (h : v.toNat < 2 ^ w ∨ c.overflowPolicy = .truncate) :
    ∃ x, fit c v w = .ok x ∧ x.toNat = v.toNat % 2 ^ w := by
  rcases Nat.lt_or_ge v.toNat (2 ^ w) with hlt | hge
  · exact ⟨v, fit_of_lt c hlt, (Nat.mod_eq_of_lt hlt).symm⟩
  · refine ⟨_, fit_of_truncate hge (h.resolve_left (Nat.not_lt.mpr hge)), ?_⟩
    exact Nat.mod_eq_of_lt (Nat.lt_of_le_of_lt (Nat.mod_le _ _) v.isLt)

/-- Settles O29. -/
theorem fitChecksTheWidth : Obligations.FitChecksTheWidth :=
  fun c _ _ => ⟨fit_of_lt c, fit_of_fault, fun _ hc => fit_eq_ok_mod (.inr hc)⟩

section SetField
variable {c : Config} {b : Bank} {sel : BitVec 4} {s : State} {f : Field}

theorem setFieldCmd_of_undefined (h : 14 ≤ sel.toNat) : setFieldCmd c b sel s = .raise .illegalOperand := by
  rw [setFieldCmd, Field.ofSel_eq_none_iff.mpr h]

theorem setFieldCmd_of_readOnly (hf : Field.ofSel sel = some f) (hr : f.readOnly = true) :
    setFieldCmd c b sel s = .raise .readOnlyField := by
  simp only [setFieldCmd, hf, hr, if_true]

theorem setFieldCmd_of_overflow (hf : Field.ofSel sel = some f) (hr : f.readOnly = false)
    (hv : fit c s.arg0 (f.width c) = .raise .fieldOverflow) : setFieldCmd c b sel s = .raise .fieldOverflow := by
  simp only [setFieldCmd, hf, hr, hv, Bool.false_eq_true, if_false, Cmd.bind_raise]

end SetField

/-- A selector that names a field other than VER, PDL and UDF_LEN names a writable one. -/
theorem Field.exists_writable {sel : BitVec 4} (h : sel.toNat < 14) (h0 : sel ≠ 0) (h6 : sel ≠ 6) (h13 : sel ≠ 13) :
    ∃ f, Field.ofSel sel = some f ∧ f.readOnly = false := by
  obtain ⟨f, hf⟩ := Field.exists_ofSel h
  refine ⟨f, hf, Bool.eq_false_iff.mpr fun hr => ?_⟩
  exact ((Field.readOnly_iff hf).mp hr).elim h0 fun h => h.elim h6 h13

/-- Settles O42: the selector names no field, a read-only one or a writable one, whose value `fit` checks. -/
theorem setFieldInEveryConfiguration : Obligations.SetFieldInEveryConfiguration := by
  refine ⟨fun b sel s => ⟨decode_encode (.setField b sel), exec_setField b sel s⟩, fun c b sel s =>
    ⟨fun h => ?_, fun h => ?_, fun h h0 h6 h13 hbig hc => ?_, fun h h0 h6 h13 hfit => ?_⟩⟩
  · rw [setFieldCmd_of_undefined h]
    rfl
  · obtain ⟨f, hf⟩ := Field.exists_ofSel (sel := sel) (by rcases h with rfl | rfl | rfl <;> decide)
    rw [setFieldCmd_of_readOnly hf ((Field.readOnly_iff hf).mpr h)]
    rfl
  · obtain ⟨f, hf, hr⟩ := Field.exists_writable h h0 h6 h13
    rw [← Field.sel_of_ofSel hf, ← Field.width_eq_fieldWidth] at hbig
    rw [setFieldCmd_of_overflow hf hr (fit_of_fault hbig hc)]
    rfl
  · obtain ⟨f, hf, hr⟩ := Field.exists_writable h h0 h6 h13
    obtain rfl := Field.sel_of_ofSel hf
    rw [← Field.width_eq_fieldWidth] at hfit ⊢
    obtain ⟨v, hv, hmod⟩ := fit_eq_ok_mod hfit
    obtain ⟨t, ht, ht0, htb, hframe⟩ := finish_ok_setBank s b ((s.bank b).set f v)
    rw [setFieldCmd_eq_ok.mpr ⟨f, v, hf, hr, hv, rfl⟩]
    refine ⟨t, ht, ht0, ?_, fun k hk hne => ?_, ?_, hframe⟩
    · rw [htb, fieldNat_set_same _ hr (fit_lt hv), hmod]
    · rw [htb, fieldNat_set_of_ne _ f v hk hne]
    · rw [htb, Packet.set_udf]

/-- Settles O41: SET_FIELD at this block's configuration, where a value that fits is its own remainder. -/
theorem setFieldWritesTheField : Obligations.SetFieldWritesTheField := by
  intro b sel s
  obtain ⟨hundef, hro, hbig, hok⟩ := setFieldInEveryConfiguration.2 block b sel s
  refine ⟨decode_encode (.setField b sel), hundef, hro, fun h h0 h6 h13 hv => hbig h h0 h6 h13 hv rfl,
    fun h h0 h6 h13 hv => ?_⟩
  obtain ⟨t, ht, ht0, hval, hrest⟩ := hok h h0 h6 h13 (.inl hv)
  exact ⟨t, ht, ht0, hval.trans (Nat.mod_eq_of_lt hv), hrest⟩

/-- Settles O35: what NEW makes is EMPTY. -/
theorem newEmptiesTheBank : Obligations.NewEmptiesTheBank := fun b s =>
  ⟨decode_encode (.new b), exec_of_ok_setBank (exec_new b s) rfl⟩

/-- Settles O43: the update of the other bank keeps bank `b`. -/
theorem cloneCopiesTheBank : Obligations.CloneCopiesTheBank := fun b s =>
  ⟨decode_encode (.clone b), _, exec_clone_eq_next.mpr rfl, rfl, by simp, by simp, rfl⟩

end Sys2Proof.Machine
end

section
/-! The framing commands (42_framing.md R130 to R134, R137): the next sequence count, then the WRAP commands, ROUTE and
CHECK_SIZE, each over every configuration and then on this block, and the laws over several of them. -/

namespace Sys2Proof.Machine

/-! The sequence count (R134). -/

section NextSeq
variable {c : Config} (a : BitVec 11) (t : SeqTable)

theorem nextSeq_of_constant (h : c.seqMode = .constant) : nextSeq c a t = (c.seqConst, t) := by
  rw [nextSeq, h]

theorem nextSeq_of_perApid (h : c.seqMode = .perApid) :
    nextSeq c a t = (SeqTable.read t a, SeqTable.write t a (SeqTable.read t a + 1)) := by
  rw [nextSeq, h]

theorem nextSeq_block :
    nextSeq block a t = (SeqTable.read t a, SeqTable.write t a (SeqTable.read t a + 1)) :=
  nextSeq_of_perApid a t block_seqMode

end NextSeq

/-- A command that leaves an error code leaves everything else as it was (60_exceptions.md R152). -/
theorem eq_setErr_of_finish_statusErr_ne_zero {s t : State} {r : Cmd State} (h : finish s r = .next t)
    (h0 : t.statusErr ≠ 0) : t = s.setErr t.statusErr := by
  rcases finish_eq_next.mp h with ⟨u, -, rfl⟩ | ⟨e, -, rfl⟩
  · exact absurd rfl h0
  · rfl

/-- Settles O30: PerApid is a read and a write of one counter, and an error changes STATUS only. -/
theorem nextSequenceCount : Obligations.NextSequenceCount := by
  refine ⟨fun c a t h => nextSeq_of_constant a t h, fun c a t h => ?_, fun b s t h h0 => ?_⟩
  · rw [nextSeq_of_perApid a t h]
    refine ⟨rfl, ?_, fun a' ha => SeqTable.read_write_of_ne t _ ha⟩
    rw [SeqTable.read_write_same, BitVec.toNat_add]
    rfl
  · rw [exec_wrapStatus, exec_wrapSensor] at h
    have ht : t = s.setErr t.statusErr := by
      rcases h with h | h <;> exact eq_setErr_of_finish_statusErr_ne_zero h h0
    rw [ht, State.setErr_seqCtr]

/-! The WRAP commands (R130, R131): first their 16-bit operand, then the packet and the counters they leave. -/

/-- Where `fit` raises nothing for 16 bits, it passes a value whose two bytes are the low two of the operand. -/
theorem fit_eq_ok_be16 {c : Config} {v : Word} (h : v.toNat < 2 ^ 16 ∨ c.overflowPolicy = .truncate) :
    ∃ w, fit c v 16 = .ok w ∧
      be16 (w.setWidth 16) = [BitVec.ofNat 8 (v.toNat / 256), BitVec.ofNat 8 v.toNat] := by
  obtain ⟨w, hw, hmod⟩ := fit_eq_ok_mod h
  refine ⟨w, hw, ?_⟩
  rw [be16_eq, BitVec.toNat_setWidth, hmod]
  simp only [List.cons.injEq, and_true, ← BitVec.toNat_inj, BitVec.toNat_ofNat]
  omega

section WrapCmds
variable {c : Config} {b : Bank} {s : State}

theorem wrapStatusCmd_of_overflow (h : 2 ^ 16 ≤ s.arg0.toNat) (hc : c.overflowPolicy = .fault) :
    wrapStatusCmd c b s = .raise .fieldOverflow := by
  rw [wrapStatusCmd, State.codeOperand, fit_of_fault h hc, Cmd.bind_raise, Cmd.bind_raise]

theorem wrapSensorCmd_of_overflow (h : 2 ^ 16 ≤ s.arg0.toNat) (hc : c.overflowPolicy = .fault) :
    wrapSensorCmd c b s = .raise .fieldOverflow := by
  rw [wrapSensorCmd, State.sensorIdOperand, fit_of_fault h hc, Cmd.bind_raise, Cmd.bind_raise]

variable (h : s.arg0.toNat < 2 ^ 16 ∨ c.overflowPolicy = .truncate)
include h

theorem wrapStatusCmd_of_fits :
    wrapStatusCmd c b s =
      .ok (s.wrap c b c.statusApid [BitVec.ofNat 8 (s.arg0.toNat / 256), BitVec.ofNat 8 s.arg0.toNat]) := by
  obtain ⟨w, hw, hbytes⟩ := fit_eq_ok_be16 h
  exact wrapStatusCmd_eq_ok.mpr ⟨w, hw, by rw [hbytes]⟩

theorem wrapSensorCmd_of_fits :
    wrapSensorCmd c b s =
      .ok (s.wrap c b c.sensorApid
        ([BitVec.ofNat 8 (s.arg0.toNat / 256), BitVec.ofNat 8 s.arg0.toNat] ++ minBE s.arg1)) := by
  obtain ⟨w, hw, hbytes⟩ := fit_eq_ok_be16 h
  exact wrapSensorCmd_eq_ok.mpr ⟨w, hw, by rw [hbytes]⟩

end WrapCmds

section WrapEnds
variable (c : Config) (b : Bank) (apid : BitVec 11) (x : List Byte) (s : State)

theorem wrap_bank_other : (s.wrap c b apid x).bank (otherBank b) = s.bank (otherBank b) := by
  rw [State.wrap, State.setBank_bank_other, State.setSeqCtr_bank]

/-- A WRAP that raises nothing changes its bank, the counters as `nextSeq` says, and STATUS. -/
theorem finish_ok_wrap : ∃ t, finish s (.ok (s.wrap c b apid x)) = .next t ∧
    t.bank b = telemetryPacket c apid (nextSeq c apid s.seqCtr).1 x ∧ t.bank (otherBank b) = s.bank (otherBank b) ∧
    t = { s with pkt0 := t.pkt0, pkt1 := t.pkt1, seqCtr := (nextSeq c apid s.seqCtr).2, statusErr := 0 } := by
  refine ⟨(s.wrap c b apid x).setErr 0, rfl, ?_, ?_, rfl⟩
  · rw [State.setErr_bank, wrap_bank]
  · rw [State.setErr_bank, wrap_bank_other]

/-- On this block the packet carries the APID's counter, which is then one higher. -/
theorem finish_ok_wrap_block : ∃ t, finish s (.ok (s.wrap block b apid x)) = .next t ∧ t.statusErr = 0 ∧
    t.bank b = telemetryPacket block apid (SeqTable.read s.seqCtr apid) x ∧
    t.bank (otherBank b) = s.bank (otherBank b) ∧
    SeqTable.read t.seqCtr apid = SeqTable.read s.seqCtr apid + 1 ∧
    (∀ a, a ≠ apid → SeqTable.read t.seqCtr a = SeqTable.read s.seqCtr a) ∧
    t = { s with pkt0 := t.pkt0, pkt1 := t.pkt1, seqCtr := t.seqCtr, statusErr := 0 } := by
  obtain ⟨t, ht, hbank, hother, hframe⟩ := finish_ok_wrap block b apid x s
  rw [nextSeq_block] at hbank hframe
  have hseq : t.seqCtr = SeqTable.write s.seqCtr apid (SeqTable.read s.seqCtr apid + 1) :=
    congrArg State.seqCtr hframe
  refine ⟨t, ht, congrArg State.statusErr hframe, hbank, hother, ?_, fun a ha => ?_, ?_⟩
  · rw [hseq, SeqTable.read_write_same]
  · rw [hseq, SeqTable.read_write_of_ne _ _ ha]
  · rwa [hseq]

end WrapEnds

/-- A sensor value takes one, two or four bytes (30_encoding.md R79). -/
theorem minBE_length_cases (v : Word) : (minBE v).length = 1 ∨ (minBE v).length = 2 ∨ (minBE v).length = 4 := by
  unfold minBE
  split
  · exact .inl rfl
  · split
    · exact .inr (.inl rfl)
    · exact .inr (.inr rfl)

/-- Settles O46: the operand overflows or fits, and then the packet is wrapped. -/
theorem wrapStatusInEveryConfiguration : Obligations.WrapStatusInEveryConfiguration := by
  refine ⟨fun b s => ⟨decode_encode (.wrapStatus b), exec_wrapStatus b s⟩, fun c b s =>
    ⟨fun h hc => ?_, fun h => ?_⟩⟩
  · rw [wrapStatusCmd_of_overflow h hc]
    rfl
  · rw [wrapStatusCmd_of_fits h]
    exact finish_ok_wrap c b c.statusApid _ s

/-- Settles O47: as WRAP_STATUS, with the sensor value behind the ID. -/
theorem wrapSensorInEveryConfiguration : Obligations.WrapSensorInEveryConfiguration := by
  refine ⟨fun b s => ⟨decode_encode (.wrapSensor b), exec_wrapSensor b s⟩, ?_⟩
  rintro c b s _ rfl
  refine ⟨fun h hc => ?_, fun h => ?_⟩
  · rw [wrapSensorCmd_of_overflow h hc]
    rfl
  · rw [wrapSensorCmd_of_fits h]
    exact finish_ok_wrap c b c.sensorApid _ s

/-- Settles O44: WRAP_STATUS under Fault and PerApid. -/
theorem wrapStatusBuildsThePacket : Obligations.WrapStatusBuildsThePacket := by
  refine fun b s => ⟨decode_encode (.wrapStatus b), fun h => ?_, fun h => ?_⟩
  · exact raises_of_eq_raise (exec_wrapStatus b s) (wrapStatusCmd_of_overflow h block_overflowPolicy)
  · rw [exec_wrapStatus, wrapStatusCmd_of_fits (.inl h)]
    exact finish_ok_wrap_block b block.statusApid _ s

/-- Settles O45: WRAP_SENSOR under Fault and PerApid. -/
theorem wrapSensorBuildsThePacket : Obligations.WrapSensorBuildsThePacket := by
  refine fun b s => ⟨decode_encode (.wrapSensor b), fun h => ?_, fun h => ?_⟩
  · exact raises_of_eq_raise (exec_wrapSensor b s) (wrapSensorCmd_of_overflow h block_overflowPolicy)
  · rw [exec_wrapSensor, wrapSensorCmd_of_fits (.inl h)]
    obtain ⟨t, ht, ht0, hbank, hrest⟩ := finish_ok_wrap_block b block.sensorApid
      ([BitVec.ofNat 8 (s.arg0.toNat / 256), BitVec.ofNat 8 s.arg0.toNat] ++ minBE s.arg1) s
    refine ⟨t, _, ht, ht0, rfl, hbank, ?_, hrest⟩
    have := minBE_length_cases s.arg1
    simp only [List.length_append, List.length_cons, List.length_nil]
    omega

/-! ROUTE (R132). The top nibble of the code is the top nibble of its first byte, and the masked code has that nibble
zero. -/

theorem routeCode_cons_cons (x y : Byte) (rest : List Byte) : routeCode (x :: y :: rest) = unbe16 x y := rfl

theorem unbe16_top_nibble (x y : Byte) : (unbe16 x y).extractLsb' 12 4 = x.extractLsb' 4 4 := by
  apply BitVec.eq_of_toNat_eq
  simp only [toNat_extractLsb'_eq, unbe16_toNat]
  omega

theorem broadcastValue_unbe16 (x y : Byte) : broadcastValue (unbe16 x y) = unbe16 (x &&& 0x0F) y := by
  have hcode : (broadcastValue (unbe16 x y)).toNat = (unbe16 x y).toNat % 2 ^ 12 :=
    (BitVec.toNat_and _ _).trans (Nat.and_two_pow_sub_one_eq_mod _ 12)
  have hbyte : (x &&& 0x0F).toNat = x.toNat % 2 ^ 4 :=
    (BitVec.toNat_and _ _).trans (Nat.and_two_pow_sub_one_eq_mod _ 4)
  apply BitVec.eq_of_toNat_eq
  rw [hcode, unbe16_toNat, unbe16_toNat, hbyte]
  omega

/-- An update after the output that leaves OBUF and OBUF_LEN alone leaves what was written. -/
theorem WroteOBuf.congr {s t t' : State} {x : List Byte} (h : WroteOBuf s t x) (ho : t'.obuf = t.obuf)
    (hl : t'.obufLen = t.obufLen) : WroteOBuf s t' x where
  len := hl ▸ h.len
  bytes := ho ▸ h.bytes
  rest := ho ▸ h.rest

section Route
variable {c : Config} {b : Bank} {s : State}

theorem routeCmd_of_short (h : (s.bank b).udf.length < 2) : routeCmd c b s = .raise .userDataTooShort := if_pos h

variable {x y : Byte} {rest : List Byte}

theorem routeCmd_of_udf (h : (s.bank b).udf = x :: y :: rest) :
    routeCmd c b s = routeByClass c (x :: y :: rest) s (c.routeClass (x.extractLsb' 4 4)) := by
  rw [routeCmd, h, if_neg (by simp), routeCode_cons_cons, unbe16_top_nibble]

/-- A broadcast puts out the user data with the top nibble of its first byte zero. -/
theorem routeByClass_broadcast : routeByClass c (x :: y :: rest) s .broadcast = .ok
    (if c.broadcastAppliesLocal then
      ((s.putOBuf ((x &&& 0x0F) :: y :: rest)).setRes 2 0 ((unbe16 (x &&& 0x0F) y).setWidth 32)).setMainStateTc
        (unbe16 (x &&& 0x0F) y)
    else (s.putOBuf ((x &&& 0x0F) :: y :: rest)).setRes 2 0 ((unbe16 (x &&& 0x0F) y).setWidth 32)) := by
  rw [routeByClass, routeCode_cons_cons, broadcastValue_unbe16, be16_unbe16]
  rfl

end Route

/-- Settles O49: the user data is too short, or it starts with a code and the class of its top nibble decides. -/
theorem routeInEveryConfiguration : Obligations.RouteInEveryConfiguration := by
  refine ⟨fun b s => ⟨decode_encode (.route b), exec_route b s⟩, fun c b s h => ?_,
    fun c b s x y rest hu hcap => ?_⟩
  · rw [routeCmd_of_short h]
    rfl
  · rw [hu, udfCap_eq] at hcap
    have hlen : rest.length + 2 ≤ 65536 := hcap
    have hout (z : Byte) := s.wroteOBuf_putOBuf (z :: y :: rest) (by simp only [List.length_cons]; omega)
    rw [routeCmd_of_udf hu]
    refine ⟨fun hk => ?_, fun hk => ?_, fun sid hk => ?_, fun hk => ?_⟩ <;> rw [hk]
    · rfl
    · rfl
    · exact ⟨_, rfl, (hout x).congr rfl rfl, rfl⟩
    · rw [routeByClass_broadcast, finish_ok]
      cases c.broadcastAppliesLocal with
      | true | false => exact ⟨_, rfl, (hout (x &&& 0x0F)).congr rfl rfl, rfl⟩

/-- Settles O48: ROUTE at this block's configuration, whose broadcasts leave MAIN_STATE_TC alone. -/
theorem routeActsByTheTopNibble : Obligations.RouteActsByTheTopNibble := by
  obtain ⟨hexec, hshort, hclass⟩ := routeInEveryConfiguration
  refine fun b s => ⟨decode_encode (.route b), hshort block b s, fun x y rest hu hcap => ?_⟩
  obtain ⟨hinvalid, hloc, hforward, hbroadcast⟩ := hclass block b s x y rest hu hcap
  rw [(hexec b s).2]
  cases hk : block.routeClass (x.extractLsb' 4 4) with
  | invalid => exact ⟨_, hinvalid hk, rfl⟩
  | loc => exact ⟨_, hloc hk, rfl⟩
  | forward sid => exact hforward sid hk
  | broadcast => exact hbroadcast hk

/-! CHECK_SIZE (R133). -/

theorem checkSizeCmd_of_gt {c : Config} {sel : BitVec 4} {s : State} {k : Transport}
    (hk : Transport.ofSel sel = some k) (h : k.limit c < s.obufLen.toNat) :
    checkSizeCmd c sel s = .raise .packetTooLargeForTransport := by
  simp only [checkSizeCmd, hk, if_pos h]

/-- The selectors 0, 1 and 2 name CAN, CAN-FD and UDP, with this block's limits. -/
theorem Transport.exists_ofSel_limit {sel : BitVec 4} {lim : Nat}
    (h : sel = 0 ∧ lim = 8 ∨ sel = 1 ∧ lim = 64 ∨ sel = 2 ∧ lim = 1024) :
    ∃ k, Transport.ofSel sel = some k ∧ k.limit block = lim := by
  rcases h with ⟨rfl, rfl⟩ | ⟨rfl, rfl⟩ | ⟨rfl, rfl⟩
  · exact ⟨.can, rfl, block_canMax⟩
  · exact ⟨.canFd, rfl, block_canFdMax⟩
  · exact ⟨.udp, rfl, block_udpMax⟩

/-- Settles O50: the selector names no transport, or one whose limit is compared. -/
theorem checkSizeGuardsTheTransport : Obligations.CheckSizeGuardsTheTransport := by
  refine fun sel s => ⟨decode_encode (.checkSize sel), checkSize_raises s, fun lim hlim => ?_⟩
  obtain ⟨k, hk, rfl⟩ := Transport.exists_ofSel_limit hlim
  refine ⟨fun h => raises_of_eq_raise (exec_checkSize sel s) (checkSizeCmd_of_gt hk h), fun h => ?_⟩
  rw [exec_checkSize, checkSizeCmd_eq_ok.mpr ⟨k, hk, h, rfl⟩]
  rfl

/-! The laws of framing (R137). -/

/-- Law (5): behind the two bytes of the ID stands the value at minimal width. -/
theorem exec_wrapSensor_udf_drop {b : Bank} {s : State} (h : s.arg0.toNat < 2 ^ 16) :
    ∃ t, exec (.wrapSensor b) s = .next t ∧ (t.bank b).udf.drop 2 = minBE s.arg1 := by
  obtain ⟨t, u, ht, -, rfl, hbank, -⟩ := (wrapSensorBuildsThePacket b s).2.2 h
  exact ⟨t, ht, by rw [hbank]; rfl⟩

/-- Law (7), sending: status code 0x1040 wrapped is a telemetry packet without secondary header, with that code as its
user data. -/
theorem exec_wrapStatus_0x1040 {b : Bank} {s : State} (h : s.arg0 = 0x1040) :
    ∃ t n, exec (.wrapStatus b) s = .next t ∧
      t.bank b = ⟨⟨0, 0, 0, block.statusApid, 3, n, 1⟩, zeroSecHdr, [0x10, 0x40]⟩ := by
  obtain ⟨t, ht, -, hbank, -⟩ := (wrapStatusBuildsThePacket b s).2.2 (by rw [h]; decide)
  rw [h] at hbank
  exact ⟨t, _, ht, hbank⟩

/-- Law (7), from the wrapped packet on: it serializes to eight bytes, and INTERPRET of those gives it back. -/
theorem exec_serialize_interpret_0x1040 {b : Bank} (b' : Bank) {t : State} {apid : BitVec 11} {n : BitVec 14}
    (h : t.bank b = ⟨⟨0, 0, 0, apid, 3, n, 1⟩, zeroSecHdr, [0x10, 0x40]⟩) :
    ∃ u, exec (.serialize b) t = .next u ∧ u.bank b = t.bank b ∧ u.obufLen = 8 ∧
      ∀ v : State, (∀ a, a < 8 → Memory.read v.ibuf a = Memory.read u.obuf a) → v.arg0 = 8 →
        ∃ w, exec (.interpret b') v = .next w ∧ w.bank b' = t.bank b := by
  have hlen : (t.bank b).dataLen block = 2 := by rw [h]; rfl
  have hpkt : t.lengthened block b = t.bank b := by rw [State.lengthened, hlen, h]; rfl
  have h1 : 1 ≤ (t.bank b).dataLen block := by omega
  have h2 : (t.bank b).dataLen block ≤ 65536 := by omega
  have hr : (t.bank b).sec.inRange block.shLayout.widths = true := by rw [h]; exact zeroSecHdr_inRange _
  have hout : (t.serialized block b).obufLen = 8 := by
    rw [State.serialized_obufLen, t.lengthened_bytes_length b defaultLayout_lawful, hlen]; rfl
  refine ⟨t.serialized block b, (exec_serialize b t).trans (finish_serializeCmd block b t h1 h2), ?_, hout,
    fun v hv ha => ?_⟩
  · rw [State.serialized_bank, hpkt]
  · obtain ⟨w, hw, -, hwb, -⟩ := finish_ok_setBank v b' (t.lengthened block b).received
    refine ⟨w, ?_, ?_⟩
    · rw [exec_interpret, interpretCmd_of_serialized block_valid hr h1 h2 (by rwa [hout]) (ha.trans hout.symm), hw]
    · rw [hwb, hpkt, h]; rfl

/-- Settles O53: the value widths of WRAP_SENSOR, a length of 9 against the limits 8 and 64, and the round trip of the
packet that WRAP_STATUS makes of 0x1040. -/
theorem framingLaws : Obligations.FramingLaws := by
  refine ⟨fun b s h => ?_, fun s h => ⟨?_, ?_⟩, fun b b' s h => ?_⟩
  · obtain ⟨t, ht, hdrop⟩ := exec_wrapSensor_udf_drop (b := b) h
    refine ⟨t, ht, ?_, ?_, ?_⟩ <;> intro hv <;> rw [hdrop, hv] <;> decide
  · exact ((checkSizeGuardsTheTransport 0 s).2.2 8 (.inl ⟨rfl, rfl⟩)).1 (by rw [h]; decide)
  · exact ((checkSizeGuardsTheTransport 1 s).2.2 64 (.inr (.inl ⟨rfl, rfl⟩))).2 (by rw [h]; decide)
  · obtain ⟨t, n, ht, hbank⟩ := exec_wrapStatus_0x1040 (b := b) h
    obtain ⟨u, hu, hub, hlen, hback⟩ := exec_serialize_interpret_0x1040 b' hbank
    rw [hbank] at hub hback
    refine ⟨t, u, ht, hu, by rw [hub], by rw [hub], hlen, fun v hv ha => ?_⟩
    obtain ⟨w, hw, hwb⟩ := hback v hv ha
    exact ⟨w, hw, by rw [hwb], by rw [hwb], by rw [hwb]⟩

end Sys2Proof.Machine
end

section
/-! Exceptions (60_exceptions.md): an error changes STATUS only, and only an unwritten byte of IBUF stops a command. -/

namespace Sys2Proof.Machine

/-- Settles O16: a command that leaves a nonzero STATUS.ERR raised an error, which discards its writes. -/
theorem errorsArePrecise : Obligations.ErrorsArePrecise := by
  intro i s t h h0
  obtain ⟨r, hr⟩ := exec_eq_finish i s
  rcases finish_eq_next.mp (hr.symm.trans h) with ⟨u, -, rfl⟩ | ⟨e, -, rfl⟩
  · exact absurd rfl h0
  · exact ⟨rfl, e.code_range.2⟩

/-! Commands that read no byte of IBUF stop on none. The five that end `ok` from every state need no lemma. -/

section NoRead
variable (c : Config) (b : Bank) (sel : BitVec 4) (s : State)

theorem serializeCmd_ne_uninit : serializeCmd c b s ≠ .uninit := by
  unfold serializeCmd
  split
  · nofun
  · split <;> nofun

theorem getFieldCmd_ne_uninit : getFieldCmd b sel s ≠ .uninit := by
  unfold getFieldCmd
  split <;> nofun

theorem setFieldCmd_ne_uninit : setFieldCmd c b sel s ≠ .uninit := by
  unfold setFieldCmd
  split
  · nofun
  · split
    · nofun
    · simp [Cmd.bind_eq_uninit, fit_ne_uninit]

theorem wrapStatusCmd_ne_uninit : wrapStatusCmd c b s ≠ .uninit := by
  simp [wrapStatusCmd, State.codeOperand, Cmd.bind_eq_uninit, fit_ne_uninit]

theorem wrapSensorCmd_ne_uninit : wrapSensorCmd c b s ≠ .uninit := by
  simp [wrapSensorCmd, State.sensorIdOperand, Cmd.bind_eq_uninit, fit_ne_uninit]

theorem routeCmd_ne_uninit : routeCmd c b s ≠ .uninit := by
  unfold routeCmd
  split
  · nofun
  · cases c.routeClass ((routeCode (s.bank b).udf).extractLsb' 12 4) <;> nofun

theorem checkSizeCmd_ne_uninit : checkSizeCmd c sel s ≠ .uninit := by
  unfold checkSizeCmd
  split
  · nofun
  · split <;> nofun

end NoRead

/-! The four that read IBUF check their operands first, so that they read inside the buffer. -/

section Reads
variable {c : Config} {b : Bank} {s : State}

/-- An unwritten byte of a range is one of every wider range. -/
theorem HasUnwritten.mono {m : Memory} {a a' d d' : Nat} (h : HasUnwritten m a d) (ha : a' ≤ a) (hd : d ≤ d') :
    HasUnwritten m a' d' := by
  obtain ⟨k, hk, hlt, hnone⟩ := h
  exact ⟨k, ha.trans hk, hlt.trans_le hd, hnone⟩

theorem hasUnwritten_of_memRead {a n m : Nat} (h : s.memRead a n = .uninit) (hm : a + n ≤ m) :
    HasUnwritten s.ibuf 0 m :=
  (State.memRead_eq_uninit.mp h).mono (Nat.zero_le a) hm

theorem hasUnwritten_of_phDecodeCmd (h : phDecodeCmd c b s = .uninit) : HasUnwritten s.ibuf 0 c.bufCap := by
  unfold phDecodeCmd State.availOperand at h
  split at h
  · cases h
  · split at h
    · cases h
    · rcases Cmd.bind_eq_uninit.mp h with hu | ⟨x, -, hx⟩
      · exact hasUnwritten_of_memRead hu (by omega)
      · cases hx

theorem hasUnwritten_of_shDecodeCmd (h : shDecodeCmd c b s = .uninit) : HasUnwritten s.ibuf 0 c.bufCap := by
  unfold shDecodeCmd State.offsetOperand State.remainingOperand at h
  split at h
  · cases h
  · split at h
    · cases h
    · rcases Cmd.bind_eq_uninit.mp h with hu | ⟨x, -, hx⟩
      · exact hasUnwritten_of_memRead hu (by omega)
      · cases hx

/-- Behind the header INTERPRET reads the rest of the packet's declared length, in one part or in two. -/
theorem hasUnwritten_of_interpretBody {p : PriHdr} (h : interpretBody c p s = .uninit) :
    HasUnwritten s.ibuf 0 (p.pdl.toNat + 1 + 6) := by
  unfold interpretBody at h
  split at h
  · rcases Cmd.bind_eq_uninit.mp h with hu | ⟨u, -, hok⟩
    · exact hasUnwritten_of_memRead hu (by omega)
    · cases hok
  · split at h
    · cases h
    · rcases Cmd.bind_eq_uninit.mp h with hu | ⟨y, -, h⟩
      · exact hasUnwritten_of_memRead hu (by omega)
      · rcases Cmd.bind_eq_uninit.mp h with hu | ⟨u, -, hok⟩
        · exact hasUnwritten_of_memRead hu (by omega)
        · cases hok

theorem hasUnwritten_of_interpretCmd (h : interpretCmd c b s = .uninit) : HasUnwritten s.ibuf 0 c.bufCap := by
  unfold interpretCmd State.lengthOperand at h
  split at h
  · cases h
  · split at h
    · cases h
    · rcases Cmd.bind_eq_uninit.mp h with hu | ⟨x, -, h⟩
      · exact hasUnwritten_of_memRead hu (by omega)
      · split at h
        · cases h
        · rcases Cmd.bind_eq_uninit.mp h with hu | ⟨p, -, hp⟩
          · exact (hasUnwritten_of_interpretBody hu).mono (Nat.le_refl 0) (by omega)
          · cases hp

theorem hasUnwritten_of_setUserDataCmd (h : setUserDataCmd c b s = .uninit) : HasUnwritten s.ibuf 0 c.bufCap := by
  unfold setUserDataCmd State.countOperand at h
  split at h
  · cases h
  · split at h
    · cases h
    · split at h
      · cases h
      · rcases Cmd.bind_eq_uninit.mp h with hu | ⟨u, -, hok⟩
        · exact hasUnwritten_of_memRead hu (by omega)
        · cases hok

end Reads

/-- Everything a fault of a command says: a byte of IBUF was not written, and the command is one of the four that read
IBUF. -/
theorem hasUnwritten_of_exec_fault {i : Instr} {s : State} {f : Fault} (h : exec i s = .fault f) :
    HasUnwritten s.ibuf 0 block.bufCap ∧
      ∃ b, i = .phDecode b ∨ i = .shDecode b ∨ i = .interpret b ∨ i = .setUserData b := by
  cases i with
  | phDecode b => exact ⟨hasUnwritten_of_phDecodeCmd (finish_eq_fault.mp h).1, b, .inl rfl⟩
  | shDecode b => exact ⟨hasUnwritten_of_shDecodeCmd (finish_eq_fault.mp h).1, b, .inr (.inl rfl)⟩
  | interpret b => exact ⟨hasUnwritten_of_interpretCmd (finish_eq_fault.mp h).1, b, .inr (.inr (.inl rfl))⟩
  | setUserData b => exact ⟨hasUnwritten_of_setUserDataCmd (finish_eq_fault.mp h).1, b, .inr (.inr (.inr rfl))⟩
  | new b | phEncode b | shEncode b | getUserData b | clone b => cases h
  | serialize b => exact absurd (finish_eq_fault.mp h).1 (serializeCmd_ne_uninit block b s)
  | getField b sel => exact absurd (finish_eq_fault.mp h).1 (getFieldCmd_ne_uninit b sel s)
  | setField b sel => exact absurd (finish_eq_fault.mp h).1 (setFieldCmd_ne_uninit block b sel s)
  | wrapStatus b => exact absurd (finish_eq_fault.mp h).1 (wrapStatusCmd_ne_uninit block b s)
  | wrapSensor b => exact absurd (finish_eq_fault.mp h).1 (wrapSensorCmd_ne_uninit block b s)
  | route b => exact absurd (finish_eq_fault.mp h).1 (routeCmd_ne_uninit block b s)
  | checkSize sel => exact absurd (finish_eq_fault.mp h).1 (checkSizeCmd_ne_uninit block sel s)

/-- Settles O17: no command is refused, and one that faults asked for an unwritten byte of IBUF. -/
theorem commandsNeverHaltTheBlock : Obligations.CommandsNeverHaltTheBlock := by
  refine fun i s => ⟨exec_ne_refused i s, fun f hf => ?_, fun hw => ?_⟩
  · cases f
    exact ⟨rfl, hasUnwritten_of_exec_fault hf⟩
  · cases h : exec i s with
    | next t => exact ⟨t, rfl⟩
    | fault f =>
      obtain ⟨⟨k, -, hk, hnone⟩, -⟩ := hasUnwritten_of_exec_fault h
      exact absurd hnone (hw k hk)
    | refused r => exact absurd h (exec_ne_refused i s r)

end Sys2Proof.Machine
end

section
/-! Noninterference: no command reads STATUS (`exec_setErr`, 60_exceptions.md R153), nor the stream of transactions and
the response, which are the model's own (00_scope.md R19). -/

namespace Sys2Proof.Machine

/-- The state with another stream of transactions and another response. -/
def State.withPort (p : List Transaction) (r : Response) (s : State) : State := (s.accept p).respond r

/-- What a command made, with another stream of transactions and another response. -/
def Cmd.withPort (p : List Transaction) (r : Response) (x : Cmd State) : Cmd State :=
  x.bind fun u => .ok (u.withPort p r)

section WithPort
variable (c : Config) (b : Bank) (sel : BitVec 4) (s : State) (p : List Transaction) (r : Response)

@[simp] theorem State.withPort_bank : (s.withPort p r).bank b = s.bank b := by
  rw [State.withPort, State.respond_bank, State.accept_bank]

theorem Cmd.withPort_bind {α : Type} (x : Cmd α) (f : α → Cmd State) :
    (x.bind f).withPort p r = x.bind fun a => (f a).withPort p r := by cases x <;> rfl

theorem Cmd.withPort_ite (q : Prop) [Decidable q] (x y : Cmd State) :
    (if q then x else y).withPort p r = if q then x.withPort p r else y.withPort p r := apply_ite _ q x y

variable {s p r} in
/-- A command that makes the same at another stream and response ends the same, with these left as they are. -/
theorem finish_withPort {x y : Cmd State} (h : y = x.withPort p r) :
    finish (s.withPort p r) y = mapNext (State.withPort p r) (finish s x) := by
  subst h
  cases x <;> rfl

theorem routeByClass_withPort (u : List Byte) (k : RouteClass) :
    routeByClass c u (s.withPort p r) k = (routeByClass c u s k).withPort p r := by
  cases k with
  | broadcast =>
    unfold routeByClass
    cases c.broadcastAppliesLocal <;> rfl
  | loc | forward sid | invalid => rfl

theorem getFieldCmd_withPort : getFieldCmd b sel (s.withPort p r) = (getFieldCmd b sel s).withPort p r := by
  unfold getFieldCmd
  cases Field.ofSel sel with
  | none => rfl
  | some f => simp only [State.withPort_bank]; rfl

theorem setFieldCmd_withPort : setFieldCmd c b sel (s.withPort p r) = (setFieldCmd c b sel s).withPort p r := by
  unfold setFieldCmd
  cases Field.ofSel sel with
  | none => rfl
  | some f => simp only [Cmd.withPort_ite, Cmd.withPort_bind, State.withPort_bank]; rfl

theorem checkSizeCmd_withPort : checkSizeCmd c sel (s.withPort p r) = (checkSizeCmd c sel s).withPort p r := by
  unfold checkSizeCmd
  cases Transport.ofSel sel with
  | none => rfl
  | some k => simp only [Cmd.withPort_ite]; rfl

/-- No command reads or writes the stream or the response. -/
theorem exec_withPort (i : Instr) : exec i (s.withPort p r) = mapNext (State.withPort p r) (exec i s) := by
  cases i with
  | new b => rfl
  | phEncode b =>
    rw [exec_phEncode, phEncodeCmd, State.withPort_bank]
    rfl
  | shEncode b =>
    rw [exec_shEncode, shEncodeCmd, State.withPort_bank]
    rfl
  | getUserData b =>
    rw [exec_getUserData, getUserDataCmd, State.withPort_bank]
    rfl
  | clone b =>
    rw [exec_clone, cloneCmd, State.withPort_bank]
    rfl
  | phDecode b =>
    exact finish_withPort (by simp only [phDecodeCmd, Cmd.withPort_ite, Cmd.withPort_bind, State.withPort_bank]; rfl)
  | shDecode b =>
    exact finish_withPort (by simp only [shDecodeCmd, Cmd.withPort_ite, Cmd.withPort_bind, State.withPort_bank]; rfl)
  | serialize b => exact finish_withPort (by simp only [serializeCmd, Cmd.withPort_ite, State.withPort_bank]; rfl)
  | interpret b => exact finish_withPort (by simp only [interpretCmd, Cmd.withPort_ite, Cmd.withPort_bind]; rfl)
  | setUserData b =>
    exact finish_withPort (by simp only [setUserDataCmd, Cmd.withPort_ite, Cmd.withPort_bind, State.withPort_bank]; rfl)
  | getField b sel => exact finish_withPort (getFieldCmd_withPort b sel s p r)
  | setField b sel => exact finish_withPort (setFieldCmd_withPort block b sel s p r)
  | wrapStatus b => exact finish_withPort (by simp only [wrapStatusCmd, Cmd.withPort_bind]; rfl)
  | wrapSensor b => exact finish_withPort (by simp only [wrapSensorCmd, Cmd.withPort_bind]; rfl)
  | route b =>
    exact finish_withPort (by simp only [routeCmd, Cmd.withPort_ite, State.withPort_bank, routeByClass_withPort]; rfl)
  | checkSize sel => exact finish_withPort (checkSizeCmd_withPort block sel s p r)

end WithPort

/-- Settles O22: neither another STATUS.ERR nor another stream and response plays a part. -/
theorem commandsIgnoreStatusAndStream : Obligations.CommandsIgnoreStatusAndStream :=
  fun i s e p r => (exec_setErr (s.withPort p r) e i).trans (exec_withPort s p r i)

end Sys2Proof.Machine
end

section
/-! Reset (70_reset_and_hazards.md): a Reset answers the initial state with the host's stream going on, and the stream is
no piece of the block's state. -/

namespace Sys2Proof.Machine

/-- Whatever the host still has pending: no piece of state R175 lists is read from `s`. -/
theorem hasResetValues_hostReset (s : State) : HasResetValues (hostReset s) where
  banks b := by cases b <;> rfl
  args := ⟨rfl, rfl⟩
  results := ⟨rfl, rfl, rfl⟩
  status := rfl
  obufLen := rfl
  mainStateTc := rfl
  seqCtr apid := SeqTable.read_nil apid
  buffers a := ⟨Memory.read_nil a, Memory.read_nil a⟩

/-- Settles O12: the state the model starts in is what a Reset makes of it. -/
theorem resetGivesEveryResetValue : Obligations.ResetGivesEveryResetValue :=
  ⟨fun s => ⟨hostReset s, rfl, hasResetValues_hostReset s⟩, hasResetValues_hostReset State.reset⟩

end Sys2Proof.Machine
end
